-- ==== Sys2Proof/Word.lean ====
section
/-! DEFINITION. The plain types of CORE: bits, bytes, trees, symbols, codes (00_scope.md R10, 10_state.md R21). -/

namespace Sys2Proof

/-- A bit, the two-valued type of R10; `true` is 1 and `false` is 0. -/
abbrev Bit := Bool

/-- An unsigned 8-bit value (R10). -/
abbrev Byte := BitVec 8

/-- A Huffman tree: exactly the three node kinds of R21, left child first. -/
inductive Tree where
  /-- Owns exactly two subtrees, no payload. -/
  | branch (l r : Tree)
  /-- Holds one symbol value. -/
  | leaf (v : Byte)
  /-- The end-of-message marker, no payload. -/
  | endLeaf
deriving DecidableEq, Repr

/-- A key of the code table (R10): a byte value or the end-of-message marker, 257 values in all. -/
inductive Sym where
  | byte (v : Byte)
  | eom
deriving DecidableEq, Repr

/-- A code word: a finite, possibly empty sequence of bits (R10). A malformed element is unrepresentable (R158). -/
abbrev Code := List Bit

end Sys2Proof
end

