-- ==== Sys2Proof/Syntax.lean ====
section
/-! DEFINITION. The instructions: one constructor per row of spec/opcode_table.json. -/

namespace Sys2Proof

/-- The three tokens of a tree description (30_encoding.md R91 to R93) and the four commands (R102). -/
inductive Instr where
  /-- `BRANCH`, token `1` (R91). -/
  | branch
  /-- `LEAF`, token `01` and eight value bits (R92). -/
  | leaf (value : Byte)
  /-- `END`, token `00` (R93). -/
  | endLeaf
  /-- `READ_TREE`, command 00 (R120). -/
  | readTree
  /-- `WRITE_TREE`, command 01 (R140). -/
  | writeTree
  /-- `DECOMPRESS`, command 10 (R170). -/
  | decompress
  /-- `COMPRESS`, command 11 (R190). -/
  | compress
deriving DecidableEq, Repr

end Sys2Proof
end

