-- ==== Sys2Proof/WellFormed.lean ====
section
/-! DEFINITION. Well-formedness: of instructions (nothing is reserved, R96, R103) and of trees (10_state.md R22). -/

namespace Sys2Proof

/-- Every instruction is well-formed: all 256 values of `LEAF`'s field are legal (R92, R96), the commands carry no
field (R103). -/
def Instr.wf : Instr → Bool
  | .branch => true
  | .leaf _ => true
  | .endLeaf => true
  | .readTree => true
  | .writeTree => true
  | .decompress => true
  | .compress => true

/-- The number of `EndLeaf` nodes. -/
def Tree.endLeaves : Tree → Nat
  | .branch l r => l.endLeaves + r.endLeaves
  | .leaf _ => 0
  | .endLeaf => 1

/-- The payloads of the `Leaf` nodes, left to right. -/
def Tree.payloads : Tree → List Byte
  | .branch l r => l.payloads ++ r.payloads
  | .leaf v => [v]
  | .endLeaf => []

/-- No value occurs twice. -/
def allDistinct : List Byte → Bool
  | [] => true
  | v :: vs => !vs.contains v && allDistinct vs

/-- A well-formed tree in the sense of R22: exactly one `EndLeaf` and no byte value at two leaves.
No command checks it. -/
def Tree.wf (t : Tree) : Bool :=
  t.endLeaves == 1 && allDistinct t.payloads

end Sys2Proof
end

