-- ==== Sys2Proof/Decode.lean ====
section
/-! DEFINITION. Bits and bytes, the decoder of tokens and commands, and the encoder (30_encoding.md, 00_scope.md R13,
20_memory.md R58). -/

namespace Sys2Proof

/-! ## Bit fields and packing -/

/-- `bits8(v)` of R13: the eight bits of `v`, most significant first. -/
def bits8 (v : Byte) : List Bit :=
  [v.getLsbD 7, v.getLsbD 6, v.getLsbD 5, v.getLsbD 4, v.getLsbD 3, v.getLsbD 2, v.getLsbD 1, v.getLsbD 0]

/-- `val(s)` of R13: the unsigned integer of a bit sequence, most significant bit first. -/
def val (s : List Bit) : Nat :=
  s.foldl (fun n b => 2 * n + b.toNat) 0

/-- The byte of an 8-bit field. -/
def byteOf (s : List Bit) : Byte := BitVec.ofNat 8 (val s)

/-- `unpack` of R58. -/
def unpack (bytes : List Byte) : List Bit := bytes.flatMap bits8

/-- `pack` of R58 for `n` bytes: byte `j` is made of the bits `8j` to `8j + 7`. -/
def packN : Nat → List Bit → List Byte
  | 0, _ => []
  | n + 1, s => byteOf (s.take 8) :: packN n (s.drop 8)

/-- `pack` of R58: the whole bytes of a bit sequence. -/
def pack (s : List Bit) : List Byte := packN (s.length / 8) s

/-! ## Decoding -/

/-- Why a decoder gives no instruction. A description's bits fail only by running out (R96). -/
inductive DecodeError where
  /-- There is no bit at all. -/
  | noFirstBit
  /-- The first bit is 0 and there is no second. -/
  | noSecondBit
  /-- `01` is followed by fewer than eight bits. -/
  | shortValue
deriving DecidableEq, Repr

/-- One token at the front of a bit sequence, with the bits after it (R90 to R95). -/
def decodeToken : List Bit → Except DecodeError (Instr × List Bit)
  | [] => .error .noFirstBit
  | true :: rest => .ok (.branch, rest)
  | [false] => .error .noSecondBit
  | false :: false :: rest => .ok (.endLeaf, rest)
  | false :: true :: rest =>
    if rest.length < 8 then .error .shortValue else .ok (.leaf (byteOf (rest.take 8)), rest.drop 8)

/-- The command of a `CMD` code: all four codes are assigned (R102, R103). -/
def decodeCmd (c : BitVec 2) : Instr :=
  match c.toNat with
  | 0 => .readTree
  | 1 => .writeTree
  | 2 => .decompress
  | _ => .compress

/-- What an instruction is written in: the `CMD` register, or the bits of a stream. -/
inductive Encoding where
  | cmd (code : BitVec 2)
  | token (bits : List Bit)
deriving DecidableEq, Repr

/-- The decoder: total, with the bits that follow the instruction. -/
def decode : Encoding → Except DecodeError (Instr × List Bit)
  | .cmd c => .ok (decodeCmd c, [])
  | .token bits => decodeToken bits

/-- The token at the front of a byte stream (R58). -/
def decodeBytes (bytes : List Byte) : Except DecodeError (Instr × List Bit) :=
  decodeToken (unpack bytes)

/-! ## Encoding -/

/-- The bits of a token in stream order (R91 to R93); a command has none. -/
def tokenBits : Instr → List Bit
  | .branch => [true]
  | .leaf v => false :: true :: bits8 v
  | .endLeaf => [false, false]
  | .readTree => []
  | .writeTree => []
  | .decompress => []
  | .compress => []

/-- The encoder: the words of an instruction (R91 to R93, R102). -/
def encode : Instr → Encoding
  | .branch => .token (tokenBits .branch)
  | .leaf v => .token (tokenBits (.leaf v))
  | .endLeaf => .token (tokenBits .endLeaf)
  | .readTree => .cmd 0b00#2
  | .writeTree => .cmd 0b01#2
  | .decompress => .cmd 0b10#2
  | .compress => .cmd 0b11#2

/-- The encoding followed by further bits of the same stream (the `CMD` register holds nothing more). -/
def Encoding.followedBy (e : Encoding) (rest : List Bit) : Encoding :=
  match e with
  | .cmd c => .cmd c
  | .token bits => .token (bits ++ rest)

/-- Format and width of the table's row: 1, 10, 2 stream bits (R91 to R93), 2 bits of `CMD` (R103). -/
def Encoding.width : Encoding → Nat
  | .cmd _ => 2
  | .token bits => bits.length

/-! ## Whole tree descriptions -/

/-- The token of a tree's root node. -/
def tokenOf : Tree → Instr
  | .branch _ _ => .branch
  | .leaf v => .leaf v
  | .endLeaf => .endLeaf

/-- The description `ser(T)` of R94. -/
def ser : Tree → List Bit
  | .branch l r => tokenBits .branch ++ ser l ++ ser r
  | .leaf v => tokenBits (.leaf v)
  | .endLeaf => tokenBits .endLeaf

/-- `ReadTreeRec` of R121 over the bits left, by recursion on fuel; `parse` gives it enough. -/
def parseFuel : Nat → List Bit → Except DecodeError (Tree × List Bit)
  | 0, _ => .error .noFirstBit
  | n + 1, bits =>
    match decodeToken bits with
    | .error e => .error e
    | .ok (.branch, rest) =>
      match parseFuel n rest with
      | .error e => .error e
      | .ok (l, rest) =>
        match parseFuel n rest with
        | .error e => .error e
        | .ok (r, rest) => .ok (.branch l r, rest)
    | .ok (.leaf v, rest) => .ok (.leaf v, rest)
    | .ok (.endLeaf, rest) => .ok (.endLeaf, rest)
    | .ok (.readTree, _) => .error .noFirstBit
    | .ok (.writeTree, _) => .error .noFirstBit
    | .ok (.decompress, _) => .error .noFirstBit
    | .ok (.compress, _) => .error .noFirstBit

/-- `parse` of R124: the tree described at the front of a bit sequence, and the bits after it. -/
def parse (bits : List Bit) : Except DecodeError (Tree × List Bit) :=
  parseFuel (bits.length + 1) bits

/-! ## The opcode table's words -/

/-- The `n` low bits of `w`, most significant first: the stream order of a token row's pattern. -/
def patternBits : Nat → Nat → List Bit
  | 0, _ => []
  | n + 1, w => w.testBit n :: patternBits n w

/-- The bits a table word stands for when it is a token of `n` bits (log 4). -/
def tokenAlone (n w : Nat) : Option Instr :=
  if w < 2 ^ n then
    match decodeToken (patternBits n w) with
    | .ok (i, []) => some i
    | .ok (_, _ :: _) => none
    | .error _ => none
  else none

/-- The instruction of a word of spec/opcode_table.json. A word of one byte is a `CMD` code; a longer one is the ten
bits of `LEAF`, its pattern read as one number; a single bit is `BRANCH` (log 4). -/
def decodeTableWord (nbits w : Nat) : Option Instr :=
  if nbits = 1 then tokenAlone 1 w
  else if nbits ≤ 8 then
    if w < 4 then some (decodeCmd (BitVec.ofNat 2 w)) else none
  else tokenAlone 10 w

end Sys2Proof
end

