-- ==== Sys2Proof/Config.lean ====
section
/-! DEFINITION. What an implementation fixes (00_scope.md R7) and the free values the spec leaves open. -/

namespace Sys2Proof

/-- The open numeric parameters of R7. They are carried in `State.par` so that a claim about every state is a claim
about every value of them; no step changes them (log 9). -/
structure Config where
  /-- `CHUNK - 1`: held so that every value is legal, `CHUNK >= 1`. -/
  chunkLessOne : Nat
  /-- `MAX_DEPTH`; `none` is the unbounded default. -/
  maxDepth : Option Nat
  /-- `OBUF_MAX`; `none` is the unbounded default. -/
  obufMax : Option Nat
deriving DecidableEq, Repr

/-- `CHUNK`, the largest number of bytes `COMPRESS` asks `BYTESRC` for in one read. -/
def Config.chunk (c : Config) : Nat := c.chunkLessOne + 1

/-- A limit of R7 admits the size `n`. -/
def withinLimit (limit : Option Nat) (n : Nat) : Bool :=
  match limit with
  | none => true
  | some m => decide (n ≤ m)

/-- The choice a device makes in its `n`-th transaction where `State.answers` gives none (log 6): the count of a read
(R60), the cursor after a failed `ReadBits` (R53), the bytes delivered before a flush (R72). A free value. -/
opaque Config.deviceChoice : Nat → Nat

/-- `DUP_CHOICE` (R161) for a symbol at several leaves, as an index among the candidate paths (log 8). A free value. -/
opaque Config.dupIndex : Tree → Sym → Nat

end Sys2Proof
end

