-- ==== Sys2Proof/Machine/State.lean ====
section
/-! DEFINITION. The state of CORE and of its four stream devices, as plain data (10_state.md, 20_memory.md). -/

namespace Sys2Proof.Machine

/-! ## Parts of the state -/

/-- `STATUS.state` (R30). -/
inductive Status where
  | ready
  | busy
  | faulted
deriving DecidableEq, Repr

/-- `PHASE`, the sequencer's position (R29). -/
inductive Phase where
  | idle
  | rt
  | wt
  | dTree
  | dWalk
  | dOut
  | cTree
  | cTable
  | cRead
  | cEmit
  | cEom
  | cPad
  | cFlush
deriving DecidableEq, Repr

/-- A frame of `RSTACK` (R29): a Branch whose left, or whose right, subtree is being read. -/
inductive RFrame where
  | needLeft
  | needRight (l : Tree)
deriving DecidableEq, Repr

/-- An entry of `WSTACK` (R29): a subtree still to be emitted, and its depth in the tree (log 10). -/
structure WFrame where
  sub : Tree
  depth : Nat
deriving DecidableEq, Repr

/-- How far the token under way has come: the discriminant bits of it that have already been read (R121), or written
(R141), one transaction each (log 30). -/
inductive TokenPart where
  /-- No bit: no token is under way. -/
  | start
  /-- The bit 0. -/
  | zero
  /-- The bits 0 and 1: the value of a Leaf comes next. -/
  | zeroOne
deriving DecidableEq, Repr

/-- The entries of `CT` (R24, R155): one pair for each symbol of the tree. -/
abbrev CodeTable := List (Sym × Code)

/-- The four stream interfaces (20_memory.md R50). -/
inductive Device where
  | bitsrc
  | bitsnk
  | bytesrc
  | bytesnk
deriving DecidableEq, Repr

/-- The fault causes that a rule produces (60_exceptions.md R216); cause 6 has no constructor (R222). -/
inductive FaultCause where
  | streamExhausted
  | missingCode
  | noTree
  | io
  | resource
deriving DecidableEq, Repr

/-- `BITSRC` (R51) and its own error indication (R70). -/
structure BitSource where
  data : List Bit
  pos : Nat
  error : Option Nat
deriving DecidableEq, Repr

/-- `BITSNK` (R54): the bits accepted, the counter `OFF`, how many whole bytes have reached the byte stream (R72),
and its own error indication (R70). -/
structure BitSink where
  bits : List Bit
  off : BitVec 3
  delivered : Nat
  error : Option Nat
deriving DecidableEq, Repr

/-- `BYTESRC` (R59) and its own error indication (R70). -/
structure ByteSource where
  data : List Byte
  pos : Nat
  error : Option Nat
deriving DecidableEq, Repr

/-- `BYTESNK` (R61) and its own error indication (R70). -/
structure ByteSink where
  data : List Byte
  error : Option Nat
deriving DecidableEq, Repr

/-- What becomes of one coming transaction (log 5). -/
inductive Answer where
  /-- The device answers; `choice` is its choice where the spec leaves one to it (R53, R60, R72). -/
  | ok (choice : Nat)
  /-- The device fails with its own error `e` (R70). -/
  | error (e : Nat) (choice : Nat)
  /-- The host applies `RESET` before the device answers, and the transaction does not take effect (R250, R251, log 2). -/
  | reset
deriving DecidableEq, Repr

/-! ## What is observable (00_scope.md R16 (a)) -/

/-- A transaction as CORE issues it. -/
inductive Call where
  | readBit
  | readBits8
  | writeBit (b : Bit)
  | writeBits8 (v : Byte)
  | flush
  | readBytes (max : Nat)
  | writeBytes (seq : List Byte)
deriving DecidableEq, Repr

/-- How a transaction returns. -/
inductive Reply where
  | bit (b : Bit)
  | byte (v : Byte)
  | bytes (r : List Byte)
  | done
  | endOfStream
  | deviceError (e : Nat)
deriving DecidableEq, Repr

/-- A transaction with the values passed and returned (log 22). -/
structure Txn where
  call : Call
  reply : Reply
deriving DecidableEq, Repr

/-! ## The host (R33) -/

/-- An action of the host (R33, R105, R270). -/
inductive HostAction where
  /-- Apply `RESET`, at any time. -/
  | reset
  /-- Let one step of CORE pass (log 26). -/
  | tick
  /-- Wait until `STATUS` leaves `BUSY`. -/
  | await
  /-- Read `STATUS`, `CAUSE` and `INFO`, at any time. -/
  | readRegs
  | loadTree (t : Tree)
  /-- Read `TREE`. -/
  | readTreeReg
  | issue (c : BitVec 2)
  /-- `SRC <- bits`. -/
  | setSrc (bits : List Bit)
  /-- Position the cursor of `BITSRC`. -/
  | seekSrc (pos : Nat)
  /-- `SNK <- init`. -/
  | initSnk
  /-- `FLUSH`. -/
  | flushSnk
  /-- `YSRC <- bytes`. -/
  | setYsrc (bytes : List Byte)
  /-- Position the cursor of `BYTESRC`. -/
  | seekYsrc (pos : Nat)
  /-- `YSNK <- init`. -/
  | initYsnk
  /-- Read `OFF` and the bytes that have reached the byte stream under `BITSNK`. -/
  | readSnk
  /-- Read the bytes `BYTESNK` has received. -/
  | readYsnk
  /-- Read a device's own error indication (R70). -/
  | readError (d : Device)
deriving DecidableEq, Repr

/-- What an action of the host returned to it. -/
inductive HostEvent where
  | regs (status : BitVec 2) (cause : BitVec 3) (info : BitVec 9)
  | treeReg (t : Tree)
  | snk (off : BitVec 3) (bytes : List Byte)
  | ysnk (bytes : List Byte)
  | deviceError (d : Device) (e : Option Nat)
  /-- The action was refused without any change (R229, R33 (c)). -/
  | refused (a : HostAction)
deriving DecidableEq, Repr

end Sys2Proof.Machine

namespace Sys2Proof.Machine

/-! ## The state -/

/-- Everything R20 and 20_memory.md give the machine, then the model's own fields (INVENTORY.md, State). -/
structure State where
  /-- `TREE` (R23): `none` is `TREE.valid = 0`. -/
  tree : Option Tree
  /-- `CT` (R24): `none` is `CT.valid = 0`. -/
  ct : Option CodeTable
  /-- `OBUF` (R25). -/
  obuf : List Byte
  /-- `CBUF` (R40). -/
  cbuf : List Byte
  /-- `PHASE` (R29). -/
  phase : Phase
  /-- `NODE` (R28): `none` is `NODE.valid = 0`. -/
  node : Option Tree
  /-- `RSTACK` (R29), innermost frame first. -/
  rstack : List RFrame
  /-- `WSTACK` (R29), next subtree first. -/
  wstack : List WFrame
  /-- `CMD` (R32). -/
  cmd : BitVec 2
  /-- `STATUS` (R30). -/
  status : Status
  /-- `CAUSE` (R31). -/
  cause : BitVec 3
  /-- `INFO` (R31). -/
  info : BitVec 9
  /-- `BITSRC` (R51). -/
  src : BitSource
  /-- `BITSNK` (R54). -/
  snk : BitSink
  /-- `BYTESRC` (R59). -/
  ysrc : ByteSource
  /-- `BYTESNK` (R61). -/
  ysnk : ByteSink
  /-- The model's own: the unwritten bits of the code word being emitted (log 13). -/
  code : Option Code
  /-- The model's own: how far the token under way has come (log 30). -/
  token : TokenPart
  /-- The open parameters of R7, never changed (log 9). -/
  par : Config
  /-- The host's coming actions (log 1). -/
  host : List HostAction
  /-- The devices' coming answers (log 5). -/
  answers : List Answer
  /-- For each coming transaction, how many steps it blocks first; `none` is for ever (log 7). -/
  waits : List (Option Nat)
  /-- How many transactions have been answered: the counter of the free values (log 6). -/
  asked : Nat
  /-- The transactions performed, oldest first (R16 (a), log 22). -/
  trace : List Txn
  /-- What the host's actions returned to it, oldest first (log 17). -/
  hostLog : List HostEvent
deriving DecidableEq, Repr

/-- The machine stops of the model, none of which `step` reaches. -/
inductive Fault where
  /-- Raised by BRANCH, LEAF and END handed to `exec` in a phase in which no tree description is read or written:
  no rule gives a token an effect there. Safe. -/
  | tokenOutsideTree
  /-- Raised by BRANCH, LEAF and END handed to `exec` in a writing phase when the next subtree of `WSTACK` calls for
  another token (R145 picks the token by the node). Safe. -/
  | tokenMismatch
deriving DecidableEq, Repr

/-- Why `exec` gives an instruction no move. -/
inductive Refusal where
  /-- An arm of `exec` without a meaning. Safe. -/
  | notModelled (mnemonic : String)
  /-- Raised by READ_TREE, WRITE_TREE, DECOMPRESS and COMPRESS handed to `exec` while another command runs: "the model
  gives the host no such move" (R33 (d), 93_implementation_defined.md V7). Safe. -/
  | issueWhileBusy
deriving DecidableEq, Repr

/-- What a step of the machine answers. -/
abbrev Result := Host.Outcome State Fault Refusal

/-! ## Reset values -/

/-- A freshly initialised `BITSRC` (R38's device rows; no contents, log 11). -/
def BitSource.initial : BitSource := { data := [], pos := 0, error := none }

/-- A freshly initialised `BITSNK` (R54; log 11). -/
def BitSink.initial : BitSink := { bits := [], off := 0, delivered := 0, error := none }

/-- A freshly initialised `BYTESRC` (R38's device rows; no contents, log 11). -/
def ByteSource.initial : ByteSource := { data := [], pos := 0, error := none }

/-- A freshly initialised `BYTESNK` (R61; log 11). -/
def ByteSink.initial : ByteSink := { data := [], error := none }

/-- The machine right after reset: the table of R38, the devices freshly initialised (log 11), the host with no action
pending (log 1), `CHUNK = 1` and no limits (log 9). -/
def State.reset : State :=
  { tree := none, ct := none, obuf := [], cbuf := [], phase := .idle, node := none, rstack := [], wstack := [],
    cmd := 0, status := .ready, cause := 0, info := 0,
    src := BitSource.initial, snk := BitSink.initial, ysrc := ByteSource.initial, ysnk := ByteSink.initial,
    code := none, token := .start, par := { chunkLessOne := 0, maxDepth := none, obufMax := none },
    host := [], answers := [], waits := [], asked := 0, trace := [], hostLog := [] }

end Sys2Proof.Machine
end

