-- ==== Sys2Proof/Machine/Flags.lean ====
section
/-! DEFINITION. The flag-like values: the words of `STATUS` and `CAUSE`, the fault's device number, `OFF` and the
padding length (10_state.md R30, R34; 20_memory.md R54; 60_exceptions.md R216, R221; 44_compressor.md R197). -/

namespace Sys2Proof.Machine

/-- The word the host reads from `STATUS` (R30); value 3 is never produced. -/
def Status.word : Status → BitVec 2
  | .ready => 0
  | .busy => 1
  | .faulted => 2

/-- The cause codes of R216. -/
def FaultCause.code : FaultCause → BitVec 3
  | .streamExhausted => 1
  | .missingCode => 2
  | .noTree => 3
  | .io => 4
  | .resource => 5

/-- `INFO` for `E_IO`: the device that failed (R221). -/
def Device.number : Device → BitVec 9
  | .bitsrc => 0
  | .bitsnk => 1
  | .bytesrc => 2
  | .bytesnk => 3

/-- `INFO` for `E_MISSING_CODE`: the byte, or 256 for the end-of-message marker (R219). -/
def missingInfo : Sym → BitVec 9
  | .byte v => v.setWidth 9
  | .eom => 256

/-- `OFF` after `n` more bits: `(OFF + n) mod 8` (R55, R56). -/
def offAfter (off : BitVec 3) (n : Nat) : BitVec 3 := off + BitVec.ofNat 3 n

/-- The number of zero bits to the next byte boundary: `(8 - OFF) mod 8` (R57, R197). -/
def pad (off : BitVec 3) : Nat := (8 - off.toNat) % 8

/-- The bits that have moved of a token under way (R95). -/
def TokenPart.moved : TokenPart → List Bit
  | .start => []
  | .zero => [false]
  | .zeroOne => [false, true]

/-- The phases of a running parse of a tree description (R29). -/
def Phase.reads : Phase → Bool
  | .rt => true
  | .dTree => true
  | .idle => false
  | .wt => false
  | .dWalk => false
  | .dOut => false
  | .cTree => false
  | .cTable => false
  | .cRead => false
  | .cEmit => false
  | .cEom => false
  | .cPad => false
  | .cFlush => false

/-- The phases of a running emission of a tree description (R29). -/
def Phase.writes : Phase → Bool
  | .wt => true
  | .cTree => true
  | .idle => false
  | .rt => false
  | .dTree => false
  | .dWalk => false
  | .dOut => false
  | .cTable => false
  | .cRead => false
  | .cEmit => false
  | .cEom => false
  | .cPad => false
  | .cFlush => false

/-- The command a phase belongs to (R29). -/
def Phase.command : Phase → Option Instr
  | .idle => none
  | .rt => some .readTree
  | .wt => some .writeTree
  | .dTree => some .decompress
  | .dWalk => some .decompress
  | .dOut => some .decompress
  | .cTree => some .compress
  | .cTable => some .compress
  | .cRead => some .compress
  | .cEmit => some .compress
  | .cEom => some .compress
  | .cPad => some .compress
  | .cFlush => some .compress

/-- The commands that leave `TREE` invalid when they fault (R37, R226): `READ_TREE` and `DECOMPRESS`. -/
def Phase.dropsTree : Phase → Bool
  | .rt => true
  | .dTree => true
  | .dWalk => true
  | .dOut => true
  | .idle => false
  | .wt => false
  | .cTree => false
  | .cTable => false
  | .cRead => false
  | .cEmit => false
  | .cEom => false
  | .cPad => false
  | .cFlush => false

end Sys2Proof.Machine
end

