-- ==== Sys2Proof/Machine/Operands.lean ====
section
/-! DEFINITION. What a command takes its operands from: the bits left in `BITSRC`, the bytes left in `BYTESRC`, the
code table of `TREE` (42_code_table.md). No command has an explicit operand (30_encoding.md R103). -/

namespace Sys2Proof.Machine

/-- The bits of `BITSRC` not yet consumed (R51). -/
def BitSource.left (d : BitSource) : List Bit := d.data.drop d.pos

/-- The bytes of `BYTESRC` not yet consumed (R59). -/
def ByteSource.left (d : ByteSource) : List Byte := d.data.drop d.pos

/-- The depth of a tree, the root at depth 0 (R127). -/
def treeDepth : Tree → Nat
  | .branch l r => max (treeDepth l) (treeDepth r) + 1
  | .leaf _ => 0
  | .endLeaf => 0

/-- `paths(T, p)` of R156: every leaf's symbol and path, left to right; left is 0, right is 1 (R157). -/
def paths : Tree → Code → List (Sym × Code)
  | .branch l r, p => paths l (p ++ [false]) ++ paths r (p ++ [true])
  | .leaf v, p => [(.byte v, p)]
  | .endLeaf, p => [(.eom, p)]

/-- The paths that a list of pairs gives for a symbol, in order. -/
def pathsOf (s : Sym) : List (Sym × Code) → List Code
  | [] => []
  | (s', p) :: rest => if s' = s then p :: pathsOf s rest else pathsOf s rest

/-- `CT(s)` of R155, R156, R161: none when no leaf carries the symbol, its path when one does, and one of the candidates
by `DUP_CHOICE` when several do (log 8). -/
def codeOf (t : Tree) (s : Sym) : Option Code :=
  match pathsOf s (paths t []) with
  | [] => none
  | [p] => some p
  | p :: q :: ps => some ((p :: q :: ps).getD (Config.dupIndex t s % (ps.length + 2)) p)

/-- The symbols that occur in a list of pairs, each once. -/
def symbolsOf : List (Sym × Code) → List Sym
  | [] => []
  | (s, _) :: rest => if s ∈ symbolsOf rest then symbolsOf rest else s :: symbolsOf rest

/-- The entry of one symbol, if it has a code. -/
def entryOf (t : Tree) (s : Sym) : Option (Sym × Code) :=
  match codeOf t s with
  | none => none
  | some c => some (s, c)

/-- The code table of a tree (R155, R193): one entry for each symbol that occurs in it. -/
def tableOf (t : Tree) : CodeTable := (symbolsOf (paths t [])).filterMap (entryOf t)

/-- The entry of a code table for a symbol. -/
def CodeTable.find (s : Sym) : CodeTable → Option Code
  | [] => none
  | (s', c) :: rest => if s' = s then some c else CodeTable.find s rest

/-- A lookup in `CT`; an invalid table has no entry (log 19). -/
def lookup (ct : Option CodeTable) (s : Sym) : Option Code :=
  match ct with
  | none => none
  | some table => CodeTable.find s table

end Sys2Proof.Machine
end

