-- ==== Sys2Proof/Machine/Ops.lean ====
section
/-! DEFINITION. The shared operations: raising a fault and the reset that ends it, the stream primitives
(20_memory.md R52 to R61), and how a command starts and ends. -/

namespace Sys2Proof.Machine

/-! ## Faults and their end (00_scope.md R12, 60_exceptions.md R226, 70_reset_and_hazards.md R250) -/

/-- `raise F(info)`: the whole fault entry of R226. `TREE` is dropped by the commands R37 names, known by their phase;
no stream changes. -/
def raise (f : FaultCause) (info : BitVec 9) (s : State) : State :=
  { s with
    status := .faulted, cause := f.code, info := info, phase := .idle,
    rstack := [], wstack := [], node := none, obuf := [], cbuf := [], ct := none, code := none, token := .start,
    tree := if s.phase.dropsTree then none else s.tree }

/-- The end of a command that completes: `PHASE <- IDLE`, `STATUS.state <- READY`, and the working state returned to its
reset values (R36). `TREE` is the command's own business (R37). -/
def finish (s : State) : State :=
  { s with
    status := .ready, phase := .idle,
    rstack := [], wstack := [], node := none, obuf := [], cbuf := [], ct := none, code := none, token := .start }

/-- Whether the next token of an emission starts with a transaction: a Branch beyond a finite `MAX_DEPTH` does not, its step
raises `E_RESOURCE` (R223, log 10). -/
def emits (s : State) : Bool :=
  match s.wstack with
  | [] => false
  | { sub := .branch _ _, depth := d } :: _ => withinLimit s.par.maxDepth (d + 1)
  | { sub := .leaf _, depth := _ } :: _ => true
  | { sub := .endLeaf, depth := _ } :: _ => true

/-- Whether the next step of the running command performs a transaction; no step performs two (R6, R121, R145, R186,
R209). -/
def transacts (s : State) : Bool :=
  match s.phase with
  | .idle => false
  | .rt => true
  | .dTree => true
  | .wt => emits s
  | .cTree => emits s
  | .dWalk =>
    match s.node with
    | none => false
    | some (.branch _ _) => true
    | some (.leaf _) => false
    | some .endLeaf => false
  | .dOut => true
  | .cTable => false
  | .cRead => true
  | .cEmit => s.code.any (fun c => !c.isEmpty)
  | .cEom => s.code.any (fun c => !c.isEmpty)
  | .cPad => decide (s.snk.off ≠ 0)
  | .cFlush => true

/-- `RESET` (R250): every item of R20 at its reset value (R38); the stream devices are not touched (R251). It is the only
way out of `FAULTED` (R228). `CMD` keeps its value: it has none of consequence (log 12). -/
def applyReset (s : State) : State :=
  { s with
    status := .ready, cause := 0, info := 0, phase := .idle, tree := none,
    rstack := [], wstack := [], node := none, obuf := [], cbuf := [], ct := none, code := none, token := .start }

/-- The waits that remain when the host resets a command between two of its steps: the wait of the step that does not
take place is dropped (log 24). -/
def waitsAfterReset (s : State) : List (Option Nat) :=
  if s.status = .busy ∧ transacts s then s.waits.tail else s.waits

/-! ## Transactions -/

/-- A transaction either returns a value and the command goes on, or the command has ended with it. -/
inductive Tx (α : Type) where
  | done (a : α) (s : State)
  | ended (s : State)

/-- What follows a transaction in a command: nothing, if the command has ended (R12). -/
def Tx.andThen {α : Type} (t : Tx α) (k : α → State → Result) : Result :=
  match t with
  | .done a s => k a s
  | .ended s => .next s

/-- What becomes of the next transaction (log 5): the next of `answers`, and past their end an answer with a free choice
(log 6). -/
def answer (s : State) : Answer :=
  match s.answers with
  | [] => .ok (Config.deviceChoice s.asked)
  | a :: _ => a

/-- The state after a transaction has been answered and recorded (R16 (a)). -/
def record (c : Call) (r : Reply) (s : State) : State :=
  { s with answers := s.answers.tail, asked := s.asked + 1, trace := s.trace ++ [{ call := c, reply := r }] }

/-- The common form of a transaction `c` on device `d`: what the device does when it answers (`onOk`), the device after an
error of its own (`onError`), with `E_IO` raised (R221), or a `RESET` in its place (R250). -/
def transaction {α : Type} (d : Device) (c : Call) (onError : Nat → Nat → State → State) (onOk : Nat → State → Tx α)
    (s : State) : Tx α :=
  match answer s with
  | .ok choice => onOk choice s
  | .error e choice => .ended (raise .io d.number (onError e choice (record c (.deviceError e) s)))
  | .reset => .ended (applyReset { s with answers := s.answers.tail })

/-- A value between two bounds picked by a choice: any of them, for the right choice. -/
def pickBetween (lo hi choice : Nat) : Nat :=
  if hi ≤ lo then lo else lo + choice % (hi - lo + 1)

/-- `BITSRC` with an error indication. -/
def srcError (e : Nat) (s : State) : State := { s with src := { s.src with error := some e } }

/-- `ReadBit()` (R52); `info` is the `INFO` of `E_STREAM_EXHAUSTED` (R218). -/
def readBit (info : BitVec 9) : State → Tx Bit :=
  transaction .bitsrc .readBit (fun e _ => srcError e) fun _ s =>
    match s.src.left with
    | [] => .ended (raise .streamExhausted info (record .readBit .endOfStream s))
    | b :: _ => .done b { record .readBit (.bit b) s with src := { s.src with pos := s.src.pos + 1 } }

/-- The cursor after a failed `ReadBits`: anywhere from where it was to the end of the data (R53, log 6). -/
def BitSource.afterFailure (d : BitSource) (choice : Nat) : BitSource :=
  { d with pos := pickBetween d.pos d.data.length choice }

/-- `ReadBits(8)` (R53). -/
def readBits8 (info : BitVec 9) : State → Tx Byte :=
  transaction .bitsrc .readBits8 (fun e choice s => srcError e { s with src := s.src.afterFailure choice })
    fun choice s =>
      if s.src.left.length < 8 then
        .ended (raise .streamExhausted info
          { record .readBits8 .endOfStream s with src := s.src.afterFailure choice })
      else
        .done (byteOf (s.src.left.take 8))
          { record .readBits8 (.byte (byteOf (s.src.left.take 8))) s with
            src := { s.src with pos := s.src.pos + 8 } }

/-- The sink after it has accepted `bs` (R55, R56); how many whole bytes have then reached the byte stream is the
device's choice (R72, log 14). -/
def BitSink.accept (d : BitSink) (bs : List Bit) (choice : Nat) : BitSink :=
  { d with
    bits := d.bits ++ bs, off := offAfter d.off bs.length,
    delivered := pickBetween d.delivered ((d.bits.length + bs.length) / 8) choice }

/-- The sink after a flush (R57): zero bits to the byte boundary, everything delivered. -/
def BitSink.flushed (d : BitSink) : BitSink :=
  { d with
    bits := d.bits ++ List.replicate (pad d.off) false, off := 0,
    delivered := (d.bits.length + pad d.off) / 8 }

/-- The bytes that have reached the byte stream under `BITSNK` (R58, R72). -/
def BitSink.stream (d : BitSink) : List Byte := (pack d.bits).take d.delivered

/-- A transaction on `BITSNK`: a device error leaves the bits as they are (R70, R227, log 16). -/
def sinkTransaction (c : Call) (after : Nat → BitSink → BitSink) : State → Tx Unit :=
  transaction .bitsnk c (fun e _ s => { s with snk := { s.snk with error := some e } }) fun choice s =>
    .done () { record c .done s with snk := after choice s.snk }

/-- `WriteBit(b)` (R55). -/
def writeBit (b : Bit) : State → Tx Unit :=
  sinkTransaction (.writeBit b) fun choice d => d.accept [b] choice

/-- `WriteBits(v, 8)` (R56). -/
def writeBits8 (v : Byte) : State → Tx Unit :=
  sinkTransaction (.writeBits8 v) fun choice d => d.accept (bits8 v) choice

/-- `Flush()` issued by CORE (R57, R198). -/
def flush : State → Tx Unit :=
  sinkTransaction .flush fun _ d => d.flushed

/-- The count of a `ReadBytes(max)` (R60): 0 exactly when nothing remains, else the device's choice from 1 to
`min(max, rem)`. -/
def readCount (max rem choice : Nat) : Nat :=
  if rem = 0 then 0 else pickBetween 1 (min max rem) choice

/-- The bytes a `ReadBytes(max)` returns. -/
def ByteSource.chunk (d : ByteSource) (max choice : Nat) : List Byte :=
  d.left.take (readCount max d.left.length choice)

/-- `ReadBytes(max)` (R60). -/
def readBytes (max : Nat) : State → Tx (List Byte) :=
  transaction .bytesrc (.readBytes max) (fun e _ s => { s with ysrc := { s.ysrc with error := some e } })
    fun choice s =>
      .done (s.ysrc.chunk max choice)
        { record (.readBytes max) (.bytes (s.ysrc.chunk max choice)) s with
          ysrc := { s.ysrc with pos := s.ysrc.pos + (s.ysrc.chunk max choice).length } }

/-- `WriteBytes(seq)` (R61); a device error leaves the bytes as they are (R177, R227, log 16). -/
def writeBytes (seq : List Byte) : State → Tx Unit :=
  transaction .bytesnk (.writeBytes seq) (fun e _ s => { s with ysnk := { s.ysnk with error := some e } })
    fun _ s => .done () { record (.writeBytes seq) .done s with ysnk := { s.ysnk with data := s.ysnk.data ++ seq } }

/-! ## Issuing and ending a command -/

/-- A command handed to `exec`: in `READY` it starts; in `FAULTED` it is refused without any change of state (R229); in
`BUSY` it goes on if it is the one that runs, and has no move otherwise (R33 (d), log 3, log 18). -/
def command (i : Instr) (start : State → Result) (resume : State → Result) (s : State) : Result :=
  match s.status with
  | .ready => start s
  | .faulted => .next s
  | .busy => if s.phase.command = some i then resume s else .refused .issueWhileBusy

/-- A command that needs a tree: `E_NO_TREE` before any transaction when `TREE.valid = 0` (R220), else it starts with the
tree on the writer's stack (R145) and `CBUF` empty (R40). -/
def startWriting (p : Phase) (s : State) : State :=
  match s.tree with
  | none => raise .noTree 0 s
  | some t =>
    { s with
      status := .busy, phase := p, wstack := [{ sub := t, depth := 0 }], cbuf := [], code := none,
      token := .start }

/-- A command that parses a tree: `TREE` is dropped at once (R37), the reader's stack is empty (R128), `OBUF` is empty
(R25). -/
def startReading (p : Phase) (s : State) : State :=
  { s with status := .busy, phase := p, tree := none, rstack := [], obuf := [], token := .start }

/-! ## The tree reader (R128) -/

/-- The description is complete: `READ_TREE` ends with the tree in `TREE` (R121); `DECOMPRESS` goes on to walk it from the
root (R186). -/
def treeRead (t : Tree) (s : State) : State :=
  if s.phase = .dTree then { s with tree := some t, node := some t, rstack := [], phase := .dWalk }
  else finish { s with tree := some t }

/-- A subtree is complete: every Branch that it completes is closed, and the innermost one still open takes it as its left
subtree (R128). -/
def handUp (s : State) : Tree → List RFrame → State
  | t, [] => treeRead t s
  | t, .needLeft :: r => { s with rstack := .needRight t :: r }
  | t, .needRight l :: r => handUp s (.branch l t) r

/-- What one transaction of a token's reading gives: more of the token is to come, or it is complete. -/
inductive Fetched where
  | more (p : TokenPart)
  | token (i : Instr)
deriving DecidableEq, Repr

/-- The next transaction of the token under way (R95, R121): its first discriminant bit, its second, or the value of a
Leaf. -/
def fetchToken (s : State) : Tx Fetched :=
  match s.token with
  | .start =>
    match readBit 0 s with
    | .ended s => .ended s
    | .done b s => .done (if b then .token .branch else .more .zero) s
  | .zero =>
    match readBit 0 s with
    | .ended s => .ended s
    | .done b s => .done (if b then .more .zeroOne else .token .endLeaf) s
  | .zeroOne =>
    match readBits8 0 s with
    | .ended s => .ended s
    | .done v s => .done (.token (.leaf v)) s

/-! ## The tree writer (R145) -/

/-- The description is written: `WRITE_TREE` ends (R141), `COMPRESS` goes on to the code table (R191). -/
def treeWritten (s : State) : State :=
  if s.phase = .cTree then { s with wstack := [], token := .start, phase := .cTable } else finish s

/-- A token has been emitted; `w` is what is left to emit. -/
def emitted (w : List WFrame) (s : State) : State :=
  match w with
  | [] => treeWritten s
  | f :: r => { s with token := .start, wstack := f :: r }

/-- One discriminant bit of a token is written, and its subtree stays next: more of the token is to come (log 30). -/
def writePart (b : Bit) (p : TokenPart) (s : State) : Result :=
  (writeBit b s).andThen fun _ s => .next { s with token := p }

end Sys2Proof.Machine
end

