-- ==== Sys2Proof/Machine/Tokens.lean ====
section
/-! DEFINITION. The meanings of the tokens BRANCH, LEAF and END: what reading one does in a running parse (R121, R128) and
what writing one does in a running emission (R141, R145). -/

namespace Sys2Proof.Machine

/-- `BRANCH` read: a Branch opens, its left subtree comes next; `E_RESOURCE` under a finite `MAX_DEPTH` (R127, R223). -/
def readBranch (s : State) : State :=
  if withinLimit s.par.maxDepth (s.rstack.length + 1) then { s with rstack := .needLeft :: s.rstack }
  else raise .resource 0 s

/-- `BRANCH` written for the Branch at the head of `WSTACK`: the bit 1, then its subtrees are to be emitted, left first;
`E_RESOURCE` under a finite `MAX_DEPTH` (R223, log 10). -/
def writeBranch (s : State) : Result :=
  match s.wstack with
  | [] => .fault .tokenMismatch
  | { sub := .branch l r, depth := d } :: w =>
    if withinLimit s.par.maxDepth (d + 1) then
      (writeBit true s).andThen fun _ s =>
        .next (emitted ({ sub := l, depth := d + 1 } :: { sub := r, depth := d + 1 } :: w) s)
    else .next (raise .resource 0 s)
  | { sub := .leaf _, depth := _ } :: _ => .fault .tokenMismatch
  | { sub := .endLeaf, depth := _ } :: _ => .fault .tokenMismatch

/-- `LEAF` written for the Leaf at the head of `WSTACK`: the bits 0, 1 and the value, most significant first (R143), one
transaction at a time. -/
def writeLeaf (v : Byte) (s : State) : Result :=
  match s.wstack with
  | [] => .fault .tokenMismatch
  | { sub := .leaf u, depth := _ } :: w =>
    if u = v then
      match s.token with
      | .start => writePart false .zero s
      | .zero => writePart true .zeroOne s
      | .zeroOne => (writeBits8 v s).andThen fun _ s => .next (emitted w s)
    else .fault .tokenMismatch
  | { sub := .branch _ _, depth := _ } :: _ => .fault .tokenMismatch
  | { sub := .endLeaf, depth := _ } :: _ => .fault .tokenMismatch

/-- `END` written for the EndLeaf at the head of `WSTACK`: the bits 0, 0, one transaction at a time. No run has written
`01` of it (log 19). -/
def writeEnd (s : State) : Result :=
  match s.wstack with
  | [] => .fault .tokenMismatch
  | { sub := .endLeaf, depth := _ } :: w =>
    match s.token with
    | .start => writePart false .zero s
    | .zero => (writeBit false s).andThen fun _ s => .next (emitted w s)
    | .zeroOne => (writeBit false s).andThen fun _ s => .next (emitted w s)
  | { sub := .branch _ _, depth := _ } :: _ => .fault .tokenMismatch
  | { sub := .leaf _, depth := _ } :: _ => .fault .tokenMismatch

/-- `BRANCH` (R91, R121, R141). In a parse its bit has been read by `fetchToken` (log 3). -/
def execBranch (s : State) : Result :=
  if s.phase.reads then .next (readBranch s)
  else if s.phase.writes then writeBranch s
  else .fault .tokenOutsideTree

/-- `LEAF` (R92, R121, R141). In a parse its bits have been read by `fetchToken`; in an emission this
is its next transaction (log 3). -/
def execLeaf (v : Byte) (s : State) : Result :=
  if s.phase.reads then .next (handUp s (.leaf v) s.rstack)
  else if s.phase.writes then writeLeaf v s
  else .fault .tokenOutsideTree

/-- `END` (R93, R121, R141). In a parse its bits have been read by `fetchToken`; in an emission this
is its next transaction (log 3). -/
def execEndLeaf (s : State) : Result :=
  if s.phase.reads then .next (handUp s .endLeaf s.rstack)
  else if s.phase.writes then writeEnd s
  else .fault .tokenOutsideTree

/-- A token by its instruction; a command is no token. -/
def execToken (i : Instr) (s : State) : Result :=
  match i with
  | .branch => execBranch s
  | .leaf v => execLeaf v s
  | .endLeaf => execEndLeaf s
  | .readTree => .fault .tokenOutsideTree
  | .writeTree => .fault .tokenOutsideTree
  | .decompress => .fault .tokenOutsideTree
  | .compress => .fault .tokenOutsideTree

/-- A step of the reader's loop (R128): one transaction, and with the last of a token its effect. -/
def readOneToken (s : State) : Result :=
  (fetchToken s).andThen fun f s =>
    match f with
    | .more p => .next { s with token := p }
    | .token i => execToken i { s with token := .start }

/-- A step of the writer's loop (R145): the next transaction of the token of the next subtree. -/
def writeOneToken (s : State) : Result :=
  match s.wstack with
  | [] => .next (treeWritten s)
  | f :: _ => execToken (tokenOf f.sub) s

end Sys2Proof.Machine
end

