-- ==== Sys2Proof/Machine/TreeCommands.lean ====
section
/-! DEFINITION. The meanings of READ_TREE (40_tree_reader.md) and WRITE_TREE (41_tree_writer.md). -/

namespace Sys2Proof.Machine

/-- `READ_TREE` (R121, R128): the issue, then one transaction a step. -/
def execReadTree (s : State) : Result :=
  command .readTree (fun s => .next (startReading .rt s)) readOneToken s

/-- `WRITE_TREE` (R141, R145): the issue, then one transaction a step; no flush, no padding (R142). -/
def execWriteTree (s : State) : Result :=
  command .writeTree (fun s => .next (startWriting .wt s)) writeOneToken s

end Sys2Proof.Machine
end

