-- ==== Sys2Proof/Machine/Codec.lean ====
section
/-! DEFINITION. The meanings of DECOMPRESS (43_decompressor.md) and COMPRESS (44_compressor.md). -/

namespace Sys2Proof.Machine

/-! ## DECOMPRESS -/

/-- `INFO` when the walk runs out of bits (R186, R218): 1 at the root, 2 inside a code word. -/
def walkInfo (s : State) : BitVec 9 := if s.node = s.tree then 1 else 2

/-- A step of `D_WALK` (R186): one bit at a Branch, left on 0 and right on 1 (R173); the byte and a restart at the root at a
Leaf (R174); the end of the loop at `EndLeaf` (R175). Without a position it starts a code word at the root (R171). -/
def walk (s : State) : Result :=
  match s.node with
  | none =>
    match s.tree with
    | none => .next (raise .noTree 0 s)
    | some t => .next { s with node := some t }
  | some (.branch l r) =>
    (readBit (walkInfo s) s).andThen fun b s => .next { s with node := some (if b then r else l) }
  | some (.leaf v) =>
    if withinLimit s.par.obufMax (s.obuf.length + 1) then
      .next { s with obuf := s.obuf ++ [v], node := s.tree }
    else .next (raise .resource 1 s)
  | some .endLeaf => .next { s with phase := .dOut, node := none }

/-- The step of `D_OUT` (R176, R186): the one `WriteBytes`, then the clean-up of R182. -/
def deliver (s : State) : Result :=
  (writeBytes s.obuf s).andThen fun _ s => .next (finish { s with tree := none })

/-- A step of a running `DECOMPRESS` (R186). -/
def decompressStep (s : State) : Result :=
  match s.phase with
  | .dTree => readOneToken s
  | .dWalk => walk s
  | .dOut => deliver s
  | .idle => .refused .issueWhileBusy
  | .rt => .refused .issueWhileBusy
  | .wt => .refused .issueWhileBusy
  | .cTree => .refused .issueWhileBusy
  | .cTable => .refused .issueWhileBusy
  | .cRead => .refused .issueWhileBusy
  | .cEmit => .refused .issueWhileBusy
  | .cEom => .refused .issueWhileBusy
  | .cPad => .refused .issueWhileBusy
  | .cFlush => .refused .issueWhileBusy

/-- `DECOMPRESS` (R171, R186): the issue, then one transaction or internal update of the reference sequencer a step. -/
def execDecompress (s : State) : Result :=
  command .decompress (fun s => .next (startReading .dTree s)) decompressStep s

/-! ## COMPRESS -/

/-- Step 2 (R193): the code table of `TREE`; `E_RESOURCE` under a finite `MAX_DEPTH` (R162, R223). -/
def deriveTable (s : State) : State :=
  match s.tree with
  | none => raise .noTree 0 s
  | some t =>
    if withinLimit s.par.maxDepth (treeDepth t) then { s with ct := some (tableOf t), phase := .cRead }
    else raise .resource 0 s

/-- Step 3, reading (R191, R194): one `ReadBytes(CHUNK)`; count 0 ends the input. -/
def readChunk (s : State) : Result :=
  (readBytes s.par.chunk s).andThen fun r s =>
    match r with
    | [] => .next { s with cbuf := [], phase := .cEom }
    | x :: xs => .next { s with cbuf := x :: xs, phase := .cEmit }

/-- The lookup of a symbol: its code is to be emitted, or `E_MISSING_CODE` (R201, R202). -/
def lookUp (sym : Sym) (s : State) : State :=
  match lookup s.ct sym with
  | none => raise .missingCode (missingInfo sym) s
  | some c => { s with code := some c }

/-- One bit of the code word being emitted. -/
def emitBit (b : Bit) (rest : Code) (s : State) : Result :=
  (writeBit b s).andThen fun _ s => .next { s with code := some rest }

/-- Step 3, emitting (R194, R209): the bits of the current code word, then the next byte of the chunk, then the next
chunk. -/
def emitChunk (s : State) : Result :=
  match s.code with
  | some (b :: rest) => emitBit b rest s
  | some [] => .next { s with code := none }
  | none =>
    match s.cbuf with
    | [] => .next { s with phase := .cRead }
    | x :: xs => .next (lookUp (.byte x) { s with cbuf := xs })

/-- Step 4 (R196): the end-of-message code. -/
def emitEom (s : State) : Result :=
  match s.code with
  | some (b :: rest) => emitBit b rest s
  | some [] => .next { s with code := none, phase := .cPad }
  | none => .next (lookUp .eom s)

/-- Step 5 (R197): a zero bit until `OFF` is 0. -/
def padStep (s : State) : Result :=
  if s.snk.off = 0 then .next { s with phase := .cFlush }
  else (writeBit false s).andThen fun _ s => .next s

/-- Step 6 (R198): the flush, then the end of the command (R205). -/
def flushStep (s : State) : Result :=
  (flush s).andThen fun _ s => .next (finish s)

/-- A step of a running `COMPRESS` (R209). -/
def compressStep (s : State) : Result :=
  match s.phase with
  | .cTree => writeOneToken s
  | .cTable => .next (deriveTable s)
  | .cRead => readChunk s
  | .cEmit => emitChunk s
  | .cEom => emitEom s
  | .cPad => padStep s
  | .cFlush => flushStep s
  | .idle => .refused .issueWhileBusy
  | .rt => .refused .issueWhileBusy
  | .wt => .refused .issueWhileBusy
  | .dTree => .refused .issueWhileBusy
  | .dWalk => .refused .issueWhileBusy
  | .dOut => .refused .issueWhileBusy

/-- `COMPRESS` (R191, R209): the issue, then one transaction or internal update of the reference sequencer a step. -/
def execCompress (s : State) : Result :=
  command .compress (fun s => .next (startWriting .cTree s)) compressStep s

end Sys2Proof.Machine
end

