-- ==== Sys2Proof/Machine/Dispatch.lean ====
section
/-! DEFINITION. One arm per instruction, each one call of its meaning. -/

namespace Sys2Proof.Machine

def exec (i : Instr) (s : State) : Host.Outcome State Fault Refusal :=
  match i with
  | .branch => Sys2Proof.Machine.execBranch s
  | .leaf v => Sys2Proof.Machine.execLeaf v s
  | .endLeaf => Sys2Proof.Machine.execEndLeaf s
  | .readTree => Sys2Proof.Machine.execReadTree s
  | .writeTree => Sys2Proof.Machine.execWriteTree s
  | .decompress => Sys2Proof.Machine.execDecompress s
  | .compress => Sys2Proof.Machine.execCompress s

end Sys2Proof.Machine
end

