-- ==== Sys2Proof/Machine/Fetch.lean ====
section
/-! DEFINITION. What the next step is: an action of the host, a step spent waiting, or an instruction (10_state.md R33,
20_memory.md R69, 70_reset_and_hazards.md R270). -/

namespace Sys2Proof.Machine

/-- What the next step does: run an instruction at a state, or go to a state without one. -/
inductive Turn where
  | run (i : Instr) (s : State)
  | go (s : State)

/-- The host's log takes an event (log 17). -/
def tell (e : HostEvent) (s : State) : State := { s with hostLog := s.hostLog ++ [e] }

/-- A device's own error indication (R70). -/
def errorOf (s : State) : Device → Option Nat
  | .bitsrc => s.src.error
  | .bitsnk => s.snk.error
  | .bytesrc => s.ysrc.error
  | .bytesnk => s.ysnk.error

/-- The registers the host may read at any time (R33 (e)). -/
def regsRead (s : State) : HostEvent := .regs s.status.word s.cause s.info

/-- `ISSUE(c)` outside `BUSY`: `c` goes to `CMD` and the command it codes runs (R32, R102); in `FAULTED` it is refused
without any change (R229). -/
def issue (c : BitVec 2) (s : State) : Turn :=
  if s.status = .faulted then .go (tell (.refused (.issue c)) s)
  else .run (decodeCmd c) { s with cmd := c }

/-- `LOAD_TREE(T)`: only in `READY` (R33 (b), R229). -/
def loadTree (t : Tree) (s : State) : State :=
  if s.status = .ready then { s with tree := some t } else tell (.refused (.loadTree t)) s

/-- The read of `TREE`: only in `READY` and with `TREE.valid = 1` (R33 (c)). -/
def readTreeReg (s : State) : State :=
  match s.status, s.tree with
  | .ready, some t => tell (.treeReg t) s
  | .ready, none => tell (.refused .readTreeReg) s
  | .busy, _ => tell (.refused .readTreeReg) s
  | .faulted, _ => tell (.refused .readTreeReg) s

/-- An action of the host that is not `BUSY`'s (R33); the action has left the queue. A cursor is positioned within its data
(log 21). That the host's own operations of a device, its `Flush` among them, succeed at once, without a device error and
without blocking, is the model's choice: R69 and R70 speak of CORE's transactions (log 29). -/
def hostTurn (a : HostAction) (s : State) : Turn :=
  match a with
  | .reset => .go { applyReset s with waits := waitsAfterReset s }
  | .tick => .go s
  | .await => .go s
  | .readRegs => .go (tell (regsRead s) s)
  | .loadTree t => .go (loadTree t s)
  | .readTreeReg => .go (readTreeReg s)
  | .issue c => issue c s
  | .setSrc bits => .go { s with src := { data := bits, pos := 0, error := none } }
  | .seekSrc pos => .go { s with src := { s.src with pos := min pos s.src.data.length } }
  | .initSnk => .go { s with snk := BitSink.initial }
  | .flushSnk => .go { s with snk := s.snk.flushed }
  | .setYsrc bytes => .go { s with ysrc := { data := bytes, pos := 0, error := none } }
  | .seekYsrc pos => .go { s with ysrc := { s.ysrc with pos := min pos s.ysrc.data.length } }
  | .initYsnk => .go { s with ysnk := ByteSink.initial }
  | .readSnk => .go (tell (.snk s.snk.off s.snk.stream) s)
  | .readYsnk => .go (tell (.ysnk s.ysnk.data) s)
  | .readError d => .go (tell (.deviceError d (errorOf s d)) s)

/-- CORE's own turn: idle unless `BUSY` (R252); a transaction, the one of its step, may block first (R69, log 7). -/
def coreTurn (s : State) : Turn :=
  match s.status, s.phase.command with
  | .ready, _ => .go s
  | .faulted, _ => .go s
  | .busy, none => .go s
  | .busy, some i =>
    if transacts s then
      match s.waits with
      | [] => .run i s
      | some 0 :: w => .run i { s with waits := w }
      | some (n + 1) :: w => .go { s with waits := some n :: w }
      | none :: _ => .go s
    else .run i s

/-- Whether an action may be taken while `BUSY` (R33, R263): `RESET` and the register read. -/
def HostAction.anyTime : HostAction → Bool
  | .reset => true
  | .readRegs => true
  | .tick => false
  | .await => false
  | .loadTree _ => false
  | .readTreeReg => false
  | .issue _ => false
  | .setSrc _ => false
  | .seekSrc _ => false
  | .initSnk => false
  | .flushSnk => false
  | .setYsrc _ => false
  | .seekYsrc _ => false
  | .initYsnk => false
  | .readSnk => false
  | .readYsnk => false
  | .readError _ => false

/-- The next step. A `tick` lets CORE take a step (log 26); while `BUSY` every action but `RESET` and the register read
waits (R263). -/
def turn (s : State) : Turn :=
  match s.host with
  | [] => coreTurn s
  | a :: h =>
    if a = .tick then coreTurn { s with host := h }
    else if s.status = .busy ∧ ¬ a.anyTime then coreTurn s
    else hostTurn a { s with host := h }

/-- A state in which the next step issues the command coded by `c` (log 25). -/
def withCommand (c : BitVec 2) (s : State) : State :=
  { s with host := [.issue c], status := .ready, phase := .idle }

/-- How far a token's bits go before its last transaction. -/
def lastPart : List Bit → TokenPart
  | false :: true :: _ => .zeroOne
  | false :: false :: _ => .zero
  | [] => .start
  | [_] => .start
  | true :: _ :: _ => .start

/-- A state in which the next step completes and runs the token made of `bits`, in a `READ_TREE` that has just started: the
token's discriminant has been read but for its last transaction (log 25). -/
def withToken (bits : List Bit) (s : State) : State :=
  { s with
    host := [], waits := [], answers := [], status := .busy, phase := .rt, tree := none, rstack := [],
    token := lastPart bits, src := { data := bits, pos := (lastPart bits).moved.length, error := none } }

/-- The state of `withFetchWord`, by the numbering of `decodeTableWord` (log 4). -/
def placeWord (s : State) (nbits w : Nat) : State :=
  if nbits = 1 then withToken (patternBits 1 w) s
  else if nbits ≤ 8 then withCommand (BitVec.ofNat 2 w) s
  else withToken (patternBits 10 w) s

end Sys2Proof.Machine
end

