-- ==== Sys2Proof/Machine/Step.lean ====
section
/-! DEFINITION. One step of the machine: the host's action, a step spent waiting, or one transaction or internal update of the
running command (00_scope.md R6, 10_state.md R29). -/

namespace Sys2Proof.Machine

/-- One step. -/
def step (s : State) : Host.Outcome State Fault Refusal :=
  match turn s with
  | .run i s' => exec i s'
  | .go s' => .next s'

/-- The state with a table word placed where the next step takes its instruction: a command in the host's queue, a token
at the cursor of `BITSRC` in a running `READ_TREE` (log 4, log 25). -/
def State.withFetchWord (s : State) (nbits w : Nat) : State := placeWord s nbits w

end Sys2Proof.Machine
end

