-- ==== Sys2Proof/Safety.lean ====
section
/-! DEFINITION. The terms claims are made in: runs, premises about the devices, the invariant of a run, and the functions the
spec defines beside the machine (30_encoding.md R99, 44_compressor.md R199, 40_tree_reader.md R129). -/

namespace Sys2Proof.Machine

/-! ## Runs -/

/-- `k` steps of the machine. -/
def runSteps (k : Nat) (s : State) : Result := Host.Core.run Sys2Proof.core k s

/-- Some number of steps leads to a state with the property. -/
def Reaches (s : State) (P : State → Prop) : Prop := ∃ k t, runSteps k s = .next t ∧ P t

/-- The named premise of 20_memory.md R70, "no device error occurs", with no `RESET` in the middle of a transaction: every
answer to come is a plain one, whatever the device's choice in it. -/
def Undisturbed (s : State) : Prop := ∀ a ∈ s.answers, ∃ choice, a = .ok choice

/-- Nobody acts but CORE, and no transaction blocks. -/
def Alone (s : State) : Prop := s.host = [] ∧ s.waits = []

/-- The premise of 70_reset_and_hazards.md R268: every transaction is answered at last, and the host does not act. -/
def Answering (s : State) : Prop := s.host = [] ∧ none ∉ s.waits

/-- A tree within `MAX_DEPTH` (R7, R223). -/
def FitsDepth (s : State) (t : Tree) : Prop := withinLimit s.par.maxDepth (treeDepth t) = true

/-- A number of decoded bytes within `OBUF_MAX` (R7, R223). -/
def FitsOutput (s : State) (n : Nat) : Prop := withinLimit s.par.obufMax n = true

/-! ## Trees and codes -/

/-- A leaf of the tree carries the symbol (R155). -/
def carries : Tree → Sym → Prop
  | .branch l r, s => carries l s ∨ carries r s
  | .leaf v, s => s = .byte v
  | .endLeaf, s => s = .eom

/-- The node a path leads to from the root: left on 0, right on 1 (R157, R173). -/
def follow : Tree → Code → Option Tree
  | t, [] => some t
  | .branch l r, b :: p => if b then follow r p else follow l p
  | .leaf _, _ :: _ => none
  | .endLeaf, _ :: _ => none

/-- The leaf that carries a symbol. -/
def leafFor : Sym → Tree
  | .byte v => .leaf v
  | .eom => .endLeaf

/-- `n` is the tree or one of its subtrees (R28). -/
def subtreeOf (n : Tree) : Tree → Prop
  | .branch l r => n = .branch l r ∨ subtreeOf n l ∨ subtreeOf n r
  | .leaf v => n = .leaf v
  | .endLeaf => n = .endLeaf

/-- The numbers of Branch and Leaf nodes (R94); `Tree.endLeaves` counts the EndLeaf nodes. -/
def branches : Tree → Nat
  | .branch l r => branches l + branches r + 1
  | .leaf _ => 0
  | .endLeaf => 0

/-- The number of Leaf nodes (R94). -/
def leaves : Tree → Nat
  | .branch l r => leaves l + leaves r
  | .leaf _ => 1
  | .endLeaf => 0

/-- The bits of a symbol's code; none if it has no code. -/
def codeBits (t : Tree) (s : Sym) : List Bit := (codeOf t s).getD []

/-- The code words of an input, in order, with nothing between them (R99). -/
def codedBytes (t : Tree) (input : List Byte) : List Bit := input.flatMap fun x => codeBits t (.byte x)

/-- `body` of R199: the description, the code words of the input, the end-of-message code. -/
def encBody (t : Tree) (input : List Byte) : List Bit := ser t ++ codedBytes t input ++ codeBits t .eom

/-- The padding of R199 after `n` bits written from offset `o`. -/
def padBits (o n : Nat) : List Bit := List.replicate ((8 - (o + n) % 8) % 8) false

/-- `enc(T, S, o)` of R199: what `COMPRESS` appends from offset `o`; `enc(T, S, 0)` is `stream(T, S)` of R99. -/
def enc (t : Tree) (input : List Byte) (o : Nat) : List Bit :=
  encBody t input ++ padBits o (encBody t input).length

/-- Every byte of the input has a leaf. -/
def Covers (t : Tree) (input : List Byte) : Prop := ∀ x ∈ input, carries t (.byte x)

/-! ## Transactions of whole commands -/

/-- The device that a step of this phase performs its transaction on, if it performs one (R121, R145, R186, R209). -/
def Phase.device : Phase → Device
  | .idle => .bitsrc
  | .rt => .bitsrc
  | .dTree => .bitsrc
  | .dWalk => .bitsrc
  | .wt => .bitsnk
  | .cTree => .bitsnk
  | .cTable => .bitsnk
  | .cEmit => .bitsnk
  | .cEom => .bitsnk
  | .cPad => .bitsnk
  | .cFlush => .bitsnk
  | .cRead => .bytesrc
  | .dOut => .bytesnk

/-- The reads of one token (R129). -/
def readTxns : Instr → List Txn
  | .branch => [{ call := .readBit, reply := .bit true }]
  | .leaf v =>
    [{ call := .readBit, reply := .bit false }, { call := .readBit, reply := .bit true },
     { call := .readBits8, reply := .byte v }]
  | .endLeaf => [{ call := .readBit, reply := .bit false }, { call := .readBit, reply := .bit false }]
  | .readTree => []
  | .writeTree => []
  | .decompress => []
  | .compress => []

/-- The writes of these bits, one `WriteBit` each (R194, R196). -/
def bitTxns (bits : List Bit) : List Txn := bits.map fun b => { call := .writeBit b, reply := .done }

/-- The writes of one token (R146). -/
def writeTxns : Instr → List Txn
  | .branch => [{ call := .writeBit true, reply := .done }]
  | .leaf v =>
    [{ call := .writeBit false, reply := .done }, { call := .writeBit true, reply := .done },
     { call := .writeBits8 v, reply := .done }]
  | .endLeaf => [{ call := .writeBit false, reply := .done }, { call := .writeBit false, reply := .done }]
  | .readTree => []
  | .writeTree => []
  | .decompress => []
  | .compress => []

/-- One transaction list per token, in pre-order of the nodes (R129, R146). -/
def preorder (f : Instr → List Txn) : Tree → List Txn
  | .branch l r => f .branch ++ preorder f l ++ preorder f r
  | .leaf v => f (.leaf v)
  | .endLeaf => f .endLeaf

/-- The reads of the walk over these bits, one `ReadBit` each (R183). -/
def walkTxns (bits : List Bit) : List Txn := bits.map fun b => { call := .readBit, reply := .bit b }

/-- The transactions of `COMPRESS` on a tree when the input comes in these chunks and `n` bits of padding follow (R206): the
description, each read with the code bits of what it returned, the empty read, the end-of-message code, the padding, one
flush. -/
def compressTxns (t : Tree) (max : Nat) (chunks : List (List Byte)) (n : Nat) : List Txn :=
  preorder writeTxns t ++
  chunks.flatMap (fun r => { call := .readBytes max, reply := .bytes r } :: bitTxns (codedBytes t r)) ++
  { call := .readBytes max, reply := .bytes [] } :: bitTxns (codeBits t .eom) ++
  bitTxns (List.replicate n false) ++
  [{ call := .flush, reply := .done }]

/-! ## The invariant of every run -/

/-- The phases of `COMPRESS` in which `CT` is valid (R24, R191). -/
def Phase.hasTable : Phase → Bool
  | .cRead => true
  | .cEmit => true
  | .cEom => true
  | .cPad => true
  | .cFlush => true
  | .idle => false
  | .rt => false
  | .wt => false
  | .dTree => false
  | .dWalk => false
  | .dOut => false
  | .cTree => false
  | .cTable => false

/-- What holds of every state of a run: the devices' cursors and counter are in range, `CAUSE` and `STATUS` agree, and each
piece of working state is live only in the phases that use it (R36). -/
structure RunInvariant (s : State) : Prop where
  /-- R51. -/
  src_cursor : s.src.pos ≤ s.src.data.length
  /-- R59. -/
  ysrc_cursor : s.ysrc.pos ≤ s.ysrc.data.length
  /-- R54: `OFF = len(SNK.bits) mod 8`. -/
  off_counts : s.snk.off.toNat = s.snk.bits.length % 8
  /-- R72: only whole bytes reach the byte stream. -/
  delivered_whole : s.snk.delivered ≤ s.snk.bits.length / 8
  /-- R29, R30: a command runs exactly in `BUSY`. -/
  busy_iff_running : s.status = .busy ↔ s.phase ≠ .idle
  /-- R31: `CAUSE` is 0 exactly outside `FAULTED`. -/
  faulted_iff_cause : s.status = .faulted ↔ s.cause ≠ 0
  /-- R216, V13: 6 and 7 are never produced. -/
  cause_range : s.cause.toNat ≤ 5
  /-- R31. -/
  info_zero : s.cause = 0 → s.info = 0
  /-- R37: a parse has no tree yet. -/
  no_tree_in_parse : s.phase.reads = true → s.tree = none
  /-- R37, R220: every other phase of a command has one. -/
  tree_in_command : s.phase ≠ .idle → s.phase.reads = false → s.tree ≠ none
  /-- R28: `NODE` is valid only in the walk, and always a subtree of `TREE`. -/
  node_in_tree : ∀ n, s.node = some n → s.phase = .dWalk ∧ ∃ t, s.tree = some t ∧ subtreeOf n t
  /-- R29. -/
  rstack_live : s.rstack ≠ [] → s.phase.reads = true
  /-- R29. -/
  wstack_live : s.wstack ≠ [] → s.phase.writes = true
  /-- R25. -/
  obuf_live : s.obuf ≠ [] → s.phase = .dWalk ∨ s.phase = .dOut
  /-- R40. -/
  cbuf_live : s.cbuf ≠ [] → s.phase = .cEmit
  /-- R24: `CT` is valid exactly from its derivation to the end of `COMPRESS`. -/
  ct_live : s.ct ≠ none ↔ s.phase.hasTable = true
  /-- R162: and it is the table of `TREE`. -/
  ct_of_tree : ∀ table, s.ct = some table → ∃ t, s.tree = some t ∧ table = tableOf t
  /-- Log 13. -/
  code_live : s.code ≠ none → s.phase = .cEmit ∨ s.phase = .cEom
  /-- R198: the flush is issued at `OFF = 0`. -/
  flush_aligned : s.phase = .cFlush → s.snk.off = 0
  /-- R223: `RSTACK` stays within `MAX_DEPTH`. -/
  rstack_fits : withinLimit s.par.maxDepth s.rstack.length = true
  /-- R223: `OBUF` stays within `OBUF_MAX`. -/
  obuf_fits : withinLimit s.par.obufMax s.obuf.length = true
  /-- Log 30: a token is under way only in a description. -/
  token_live : s.token ≠ .start → s.phase.reads = true ∨ s.phase.writes = true
  /-- Log 30, R145: what has been written of a token is a part of the next subtree's. -/
  token_of_next : s.phase.writes = true → s.token ≠ .start →
    ∃ f w, s.wstack = f :: w ∧ s.token.moved <+: tokenBits (tokenOf f.sub)

/-- A safe run has no fault recorded (R30). -/
def Safe (s : State) : Prop := s.status ≠ .faulted

end Sys2Proof.Machine
end

