-- ==== Sys2Proof/Certificates/Slice0/Obligations.lean ====
section
/-! DEFINITION. The statements for the provers, from the numbered rules of spec/. -/

open Sys2Proof Sys2Proof.Machine

/-! ## Encoding -/

/-- R91, R92, R93, R102: one word of each row, written out from its encoding. -/
def Obligations.TableWordsDecode : Prop :=
  decodeToken [true] = .ok (.branch, []) ∧
  decodeToken [false, true, false, true, false, false, false, false, false, true] = .ok (.leaf 0x41, []) ∧
  decodeToken [false, true, true, false, false, false, false, false, false, false] = .ok (.leaf 0x80, []) ∧
  decodeToken [false, false] = .ok (.endLeaf, []) ∧
  decodeCmd 0b00#2 = .readTree ∧ decodeCmd 0b01#2 = .writeTree ∧
  decodeCmd 0b10#2 = .decompress ∧ decodeCmd 0b11#2 = .compress

/-- R91 to R93, R95, R102, R103: decoding what the encoder writes gives the instruction back, whatever bits follow it in the
stream; and whatever the decoder reads is the encoding of the instruction it answers. -/
def Obligations.DecodeAndEncodeAgree : Prop :=
  (∀ i c, i.wf = true → encode i = .cmd c → decode (.cmd c) = .ok (i, [])) ∧
  (∀ i bits rest, i.wf = true → encode i = .token bits → decode (.token (bits ++ rest)) = .ok (i, rest)) ∧
  (∀ c i rest, decode (.cmd c) = .ok (i, rest) → encode i = .cmd c ∧ rest = []) ∧
  (∀ bits i rest, decode (.token bits) = .ok (i, rest) → ∃ tok, encode i = .token tok ∧ bits = tok ++ rest)

/-- R94, R127: `ser` by its three equations, its length, at least `3 d + 2` bits at depth `d`, and that it is
injective and prefix-free. R94 and R127 mark the length, the bound and the prefix property as derived. -/
def Obligations.SerializationIsPrefixFree : Prop :=
  (∀ l r, ser (.branch l r) = [true] ++ ser l ++ ser r) ∧
  (∀ v, ser (.leaf v) = [false, true] ++ bits8 v) ∧
  ser .endLeaf = [false, false] ∧
  (∀ t, (ser t).length = branches t + 10 * leaves t + 2 * t.endLeaves ∧
    branches t + 1 = leaves t + t.endLeaves ∧ 3 * treeDepth t + 2 ≤ (ser t).length) ∧
  (∀ t u x y, ser t ++ x = ser u ++ y → t = u ∧ x = y)

/-- R96: every bit string is either a description followed by anything or a proper prefix of a description, never
both, and the recursive descent fails exactly on the second kind. R96 marks this as derived from R90 and R95. -/
def Obligations.BitStringsDescribeOrRunOut : Prop :=
  ∀ bits,
    ((∃ t rest, bits = ser t ++ rest ∧ parse bits = .ok (t, rest)) ∧
      ¬ ∃ t more, more ≠ [] ∧ bits ++ more = ser t) ∨
    ((∃ e, parse bits = .error e) ∧ (∃ t more, more ≠ [] ∧ bits ++ more = ser t) ∧
      ¬ ∃ t rest, bits = ser t ++ rest)

/-- R124, R147: the recursive descent gives back the tree of a description and stops at its last bit; conversely the
bits it consumed are the description of the tree it answers. The bits before the cursor, x in R124, are no part of the
function here. -/
def Obligations.ParseInvertsSerialization : Prop :=
  (∀ t y, parse (ser t ++ y) = .ok (t, y)) ∧
  (∀ bits t rest, parse bits = .ok (t, rest) → bits = ser t ++ rest)

/-- R58: byte `j` of `pack(s)` is the value of bits `8j` to `8j + 7`, and `unpack` is the inverse of `pack`. R58 marks
the packing as the spec's decision D6. -/
def Obligations.PackAndUnpackAreInverse : Prop :=
  (∀ s, (pack s).length = s.length / 8) ∧
  (∀ s j, j < s.length / 8 → (pack s)[j]? = some (byteOf ((s.drop (8 * j)).take 8))) ∧
  (∀ bytes, unpack bytes = bytes.flatMap bits8) ∧
  (∀ bytes, pack (unpack bytes) = bytes) ∧
  (∀ s, s.length % 8 = 0 → unpack (pack s) = s)

/-- R13: `bits8` and `val` are most significant bit first and inverse to each other. -/
def Obligations.ByteBitsMostSignificantFirst : Prop :=
  (∀ v : Byte, (bits8 v).length = 8 ∧ ∀ k, k < 8 → (bits8 v)[k]? = some (v.getLsbD (7 - k))) ∧
  val [] = 0 ∧
  (∀ b s, val (b :: s) = b.toNat * 2 ^ s.length + val s) ∧
  (∀ v : Byte, val (bits8 v) = v.toNat) ∧
  (∀ s, s.length = 8 → bits8 (BitVec.ofNat 8 (val s)) = s)

/-! ## Code table -/

/-- R155, R156, R161: `paths` by its equations; the table has an entry for a symbol exactly when a leaf carries it; the entry
is the path of such a leaf, and the only one when there is only one. Which of several it is, `DUP_CHOICE`, is a free value
(log 8). -/
def Obligations.CodeTableHoldsPathsOfLeaves : Prop :=
  (∀ l r p, paths (.branch l r) p = paths l (p ++ [false]) ++ paths r (p ++ [true])) ∧
  (∀ v p, paths (.leaf v) p = [(.byte v, p)]) ∧
  (∀ p, paths .endLeaf p = [(.eom, p)]) ∧
  (∀ t s, lookup (some (tableOf t)) s = codeOf t s) ∧
  (∀ t s, (codeOf t s).isSome = true ↔ carries t s) ∧
  (∀ t s, codeOf t s = none ↔ ∀ p, (s, p) ∉ paths t []) ∧
  (∀ t s c, codeOf t s = some c → (s, c) ∈ paths t []) ∧
  (∀ t s c, pathsOf s (paths t []) = [c] → codeOf t s = some c)

/-- R156, R157: the pairs of `paths(T, [])` are exactly the symbols with the paths that lead to their leaves, left on 0 and
right on 1. -/
def Obligations.PathsLeadToTheirLeaves : Prop :=
  ∀ t s p, (s, p) ∈ paths t [] ↔ follow t p = some (leafFor s)

/-- R159: the paths of two different leaves are never one a prefix of the other, and so are the codes of two different
symbols. R159 marks this as derived from R156. -/
def Obligations.CodesArePrefixFree : Prop :=
  (∀ t, (paths t []).Pairwise fun a b => ¬ a.2 <+: b.2 ∧ ¬ b.2 <+: a.2) ∧
  (∀ t s s' c c', s ≠ s' → codeOf t s = some c → codeOf t s' = some c' → ¬ c <+: c')

/-! ## Stream primitives -/

/-- R52: `ReadBit` returns the bit at the cursor and moves it by one, or fails with the cursor where it was. -/
def Obligations.ReadBitReturnsBitAtCursor : Prop :=
  ∀ info s choice, answer s = .ok choice →
    (∀ b, s.src.data[s.src.pos]? = some b →
      ∃ t, readBit info s = .done b t ∧ t.src = { s.src with pos := s.src.pos + 1 } ∧
        t.snk = s.snk ∧ t.ysrc = s.ysrc ∧ t.ysnk = s.ysnk) ∧
    (s.src.data.length ≤ s.src.pos →
      ∃ t, readBit info s = .ended t ∧ t.src = s.src ∧ t.status = .faulted ∧ t.cause = 1 ∧ t.info = info)

/-- R53: `ReadBits(8)` returns the next eight bits, most significant first, or fails, and then the cursor is somewhere
from where it was to the end of the data. R53 marks the cursor after a failure as the spec's decision D22: any value
in range (log 6). -/
def Obligations.ReadBits8ReturnsNextByte : Prop :=
  ∀ info s choice, answer s = .ok choice → s.src.pos ≤ s.src.data.length →
    (s.src.pos + 8 ≤ s.src.data.length →
      ∃ t, readBits8 info s = .done (BitVec.ofNat 8 (val ((s.src.data.drop s.src.pos).take 8))) t ∧
        t.src = { s.src with pos := s.src.pos + 8 }) ∧
    (s.src.data.length < s.src.pos + 8 →
      ∃ t, readBits8 info s = .ended t ∧ t.status = .faulted ∧ t.cause = 1 ∧ t.info = info ∧
        t.src.data = s.src.data ∧ s.src.pos ≤ t.src.pos ∧ t.src.pos ≤ s.src.data.length)

/-- R55, R56: `WriteBit` appends its bit and `WriteBits(v, 8)` the eight bits of `v`, most significant first; `OFF` counts
them modulo 8. -/
def Obligations.WritesAppendToTheSink : Prop :=
  ∀ s choice, answer s = .ok choice →
    (∀ b, ∃ t, writeBit b s = .done () t ∧ t.snk.bits = s.snk.bits ++ [b] ∧
      t.snk.off.toNat = (s.snk.off.toNat + 1) % 8 ∧ t.src = s.src ∧ t.ysrc = s.ysrc ∧ t.ysnk = s.ysnk) ∧
    (∀ v : Byte, ∃ t, writeBits8 v s = .done () t ∧
      t.snk.bits = s.snk.bits ++
        [v.getLsbD 7, v.getLsbD 6, v.getLsbD 5, v.getLsbD 4, v.getLsbD 3, v.getLsbD 2, v.getLsbD 1, v.getLsbD 0] ∧
      t.snk.off = s.snk.off)

/-- R57: `Flush` appends `(8 - OFF) mod 8` zero bits, none at `OFF = 0`, leaves `OFF = 0`, and every byte written has
then reached the byte stream. R57 marks the flush at OFF = 0 as the spec's decision D15. -/
def Obligations.FlushPadsAndDelivers : Prop :=
  ∀ s choice, answer s = .ok choice → s.snk.off.toNat = s.snk.bits.length % 8 →
    ∃ t, flush s = .done () t ∧
      t.snk.bits = s.snk.bits ++ List.replicate ((8 - s.snk.off.toNat) % 8) false ∧
      (s.snk.off = 0 → t.snk.bits = s.snk.bits) ∧
      t.snk.off = 0 ∧ t.snk.stream = pack t.snk.bits

/-- R60: the count is 0 exactly when no byte remains, and otherwise from 1 to `min(max, rem)`, every one of which some
device returns; what is returned is the next bytes, and the cursor moves by their count. R60 marks the free count as
the spec's decision D21 (log 6). -/
def Obligations.ReadBytesReturnsSomeOfTheNext : Prop :=
  ∀ max s choice, 1 ≤ max → answer s = .ok choice →
    (∃ r t, readBytes max s = .done r t ∧
      r = (s.ysrc.data.drop s.ysrc.pos).take r.length ∧
      t.ysrc = { s.ysrc with pos := s.ysrc.pos + r.length } ∧
      (r.length = 0 ↔ s.ysrc.data.length ≤ s.ysrc.pos) ∧
      r.length ≤ max) ∧
    (∀ c, 1 ≤ c → c ≤ min max (s.ysrc.data.length - s.ysrc.pos) →
      ∃ choice', (s.ysrc.chunk max choice').length = c)

/-! ## Steps and instructions -/

/-- R32, R33 (d), R102: outside a fault and a running command, a step with `ISSUE(c)` pending puts `c` in `CMD` and
runs the command it codes. That the host acts from a queue (log 1), and that executing a command in `READY` is its issue
(log 3), is the model's choice. -/
def Obligations.StepRunsIssuedCommand : Prop :=
  ∀ s c h, s.status = .ready → s.host = .issue c :: h →
    step s = exec (decodeCmd c) { s with host := h, cmd := c }

/-- R15, R29: while a command runs and the host does not act, a step is that command's own, once the wait of its
transaction is over. The waits (log 7), that executing a running command is its next step (log 3), and that an action of the
host waits meanwhile (log 18), are the model's form. -/
def Obligations.StepContinuesRunningCommand : Prop :=
  ∀ s i, s.status = .busy → s.phase.command = some i →
    (∀ a h, s.host = a :: h → a ≠ .tick ∧ a.anyTime = false) →
    (transacts s = false → step s = exec i s) ∧
    (s.waits = [] → step s = exec i s) ∧
    (∀ w, transacts s = true → s.waits = some 0 :: w → step s = exec i { s with waits := w })

/-- R95, R121, R128: in a parse, when the discriminant bits already read and the bits at the cursor together decode to a
token, the reads that remain of it, one a step, are followed by that token's execution at the state after them; and a step
that performs the last of them is the execution of the token. That executing a token is its effect after its reads (log 3), and
that the bits read of it stand in a field of State (log 30), is the model's form. -/
def Obligations.StepRunsDecodedToken : Prop :=
  ∀ s i rest n u, s.status = .busy → s.phase.reads = true → Alone s → Undisturbed s →
    decodeToken (s.token.moved ++ s.src.left) = .ok (i, rest) →
    n = (readTxns i).length - s.token.moved.length →
    u =
      { s with
        token := .start
        src := { s.src with pos := s.src.pos + ((tokenBits i).length - s.token.moved.length) }
        answers := s.answers.drop n
        asked := s.asked + n
        trace := s.trace ++ (readTxns i).drop s.token.moved.length } →
    1 ≤ n ∧ runSteps n s = exec i u ∧ (n = 1 → step s = exec i u)

/-- R145: in an emission a step is the execution of the token of the subtree at the head of `WSTACK`, also when part of that
token has already been written. R145 says which token comes next; that executing it is only its next transaction (log 3), and
that its subtree stays at the head until the last one, where R145 removes it first (log 30), is the model's form. -/
def Obligations.StepEmitsNextToken : Prop :=
  ∀ s f w, s.status = .busy → s.phase.writes = true → Alone s → s.wstack = f :: w →
    step s = exec (tokenOf f.sub) s

/-- No state stops the machine: every step answers a next state (the four codes are all assigned, R103; every fault is
a state, R226; a refused action of the host changes nothing, R229; no bit pattern is rejected, R96). Derived from R96,
R103, R226 and R229. That a refused action of the host is a next state (log 17), that an action waits while `BUSY` and CORE
takes its step (log 18), and that states no run reaches go on (log 19), is the model's choice. -/
def Obligations.EveryStateHasANextStep : Prop :=
  ∀ s, ∃ t, step s = .next t

/-- R252: with no command running and no action of the host pending, nothing happens. -/
def Obligations.IdleCoreDoesNothing : Prop :=
  ∀ s, s.status ≠ .busy → s.host = [] → step s = .next s

/-- R69, R239: a transaction that is never answered holds the command, and CORE, in `BUSY` for ever. The list of waits is the
model's form (log 7). -/
def Obligations.UnansweredTransactionHangs : Prop :=
  ∀ s w k, s.status = .busy → s.host = [] → transacts s = true → s.waits = none :: w → runSteps k s = .next s

/-- R33 (d), R145, R263: a command handed to `exec` while another one runs has no move, and neither has a token where
no description is read or written, or where the writer's next subtree calls for another token. The stops are the
model's form of "the model gives it no move" (log 3, log 18). -/
def Obligations.ForeignInstructionsHaveNoMove : Prop :=
  (∀ s c, s.status = .busy → s.phase.command ≠ some (decodeCmd c) →
    exec (decodeCmd c) s = .refused .issueWhileBusy) ∧
  (∀ s t, s.phase.reads = false → s.phase.writes = false → exec (tokenOf t) s = .fault .tokenOutsideTree) ∧
  (∀ s t, s.phase.writes = true → (∀ f w, s.wstack = f :: w → tokenOf f.sub ≠ tokenOf t) →
    exec (tokenOf t) s = .fault .tokenMismatch)

/-- R33, R263: while `BUSY` every action of the host but `RESET`, the register read and `tick` stays in its queue.
That the action waits is the model's choice (log 18). -/
def Obligations.HostWaitsWhileBusy : Prop :=
  ∀ s t a h, s.status = .busy → s.host = a :: h → a ≠ .tick → a.anyTime = false → step s = .next t →
    t.host = a :: h

/-! ## Tokens -/

/-- R121, R128: reading `BRANCH` opens a Branch, within `MAX_DEPTH`; reading `LEAF` or `END` completes a subtree, which closes
the Branches it completes and becomes the left subtree of the innermost one still open, or, if none is, the tree: `READ_TREE`
is then complete and `DECOMPRESS` at the root of the walk. That executing a token in a parse is its effect after its bits have
been read, and so changes no stream, no cursor and no trace, is the model's choice (log 3). -/
def Obligations.ReadTokensBuildTheTree : Prop :=
  ∀ s, s.phase.reads = true →
    (withinLimit s.par.maxDepth (s.rstack.length + 1) = true →
      exec .branch s = .next { s with rstack := .needLeft :: s.rstack }) ∧
    (∀ t i (ls : List Tree), i = tokenOf t → i ≠ .branch →
      (∀ r, s.rstack = ls.map RFrame.needRight ++ .needLeft :: r →
        exec i s = .next { s with rstack := .needRight (ls.foldl (fun t l => .branch l t) t) :: r }) ∧
      (s.rstack = ls.map RFrame.needRight → s.phase = .rt →
        exec i s = .next
          { s with
            tree := some (ls.foldl (fun t l => .branch l t) t), status := .ready, phase := .idle
            rstack := [], wstack := [], node := none, obuf := [], cbuf := [], ct := none, code := none, token := .start }) ∧
      (s.rstack = ls.map RFrame.needRight → s.phase = .dTree →
        exec i s = .next
          { s with
            tree := some (ls.foldl (fun t l => .branch l t) t)
            node := some (ls.foldl (fun t l => .branch l t) t)
            rstack := [], phase := .dWalk }))

/-- R91 to R93, R141, R145, R146: the token of the subtree at the head of `WSTACK` goes out one transaction at a time, bits in
order and a value most significant first; a Branch leaves its left subtree and then its right one to emit; after the last
transaction of the last token `WRITE_TREE` is complete and `COMPRESS` goes on to the code table. Nothing else changes. How
many whole bytes have then reached the byte stream is the device's choice (R72). That executing a token is only its next
transaction (log 3), that the bits written of it stand in a field of State, and that its subtree stays in `WSTACK` until the
last (log 30), is the model's form. -/
def Obligations.WriteTokensAppendTheirBits : Prop :=
  ∀ s sub d w, s.phase.writes = true → s.wstack = { sub := sub, depth := d } :: w → Undisturbed s →
    withinLimit s.par.maxDepth (d + treeDepth sub) = true →
    ∃ delivered, ∀ (sent : List Bit) (c : Call) (u : State), u =
        { s with
          snk :=
            { s.snk with
              bits := s.snk.bits ++ sent, off := s.snk.off + BitVec.ofNat 3 sent.length, delivered := delivered }
          answers := s.answers.drop 1, asked := s.asked + 1, trace := s.trace ++ [{ call := c, reply := .done }] } →
      (∀ l r, sub = .branch l r → sent = [true] → c = .writeBit true →
        exec .branch s =
          .next
            { u with
              token := .start
              wstack := { sub := l, depth := d + 1 } :: { sub := r, depth := d + 1 } :: w }) ∧
      (∀ i, i = tokenOf sub → i ≠ .branch → s.token = .start → sent = [false] → c = .writeBit false →
        exec i s = .next { u with token := .zero }) ∧
      (∀ v, sub = .leaf v → s.token = .zero → sent = [true] → c = .writeBit true →
        exec (.leaf v) s = .next { u with token := .zeroOne }) ∧
      (∀ i, i = tokenOf sub →
        (i = .endLeaf ∧ s.token = .zero ∧ sent = [false] ∧ c = .writeBit false) ∨
          (∃ v, i = .leaf v ∧ s.token = .zeroOne ∧ sent = bits8 v ∧ c = .writeBits8 v) →
        (w ≠ [] → exec i s = .next { u with token := .start, wstack := w }) ∧
        (w = [] → s.phase = .wt →
          exec i s =
            .next
              { u with
                status := .ready, phase := .idle
                rstack := [], wstack := [], node := none, obuf := [], cbuf := [], ct := none, code := none
                token := .start }) ∧
        (w = [] → s.phase = .cTree →
          exec i s = .next { u with wstack := [], token := .start, phase := .cTable }))

/-! ## Issue of the commands -/

/-- R37, R121, R171: in `READY`, `READ_TREE` and `DECOMPRESS` drop `TREE` at once and start to parse; nothing else changes
and no transaction is performed. That the issue is a step of its own is the model's choice (log 3). -/
def Obligations.ParsingCommandsStart : Prop :=
  ∀ s, s.status = .ready →
    exec .readTree s =
      .next { s with status := .busy, phase := .rt, tree := none, rstack := [], obuf := [], token := .start } ∧
    exec .decompress s =
      .next { s with status := .busy, phase := .dTree, tree := none, rstack := [], obuf := [], token := .start }

/-- R141, R144, R191, R203, R220: in `READY`, `WRITE_TREE` and `COMPRESS` start to emit `TREE`; without a tree they raise
`E_NO_TREE` with `INFO = 0`, before any transaction and with every stream as it was. That the issue is a step of its own is the
model's choice (log 3). -/
def Obligations.WritingCommandsStartOrHaveNoTree : Prop :=
  ∀ s, s.status = .ready →
    (∀ t, s.tree = some t →
      exec .writeTree s =
        .next { s with
          status := .busy, phase := .wt, wstack := [{ sub := t, depth := 0 }], cbuf := [], code := none,
          token := .start } ∧
      exec .compress s =
        .next { s with
          status := .busy, phase := .cTree, wstack := [{ sub := t, depth := 0 }], cbuf := [], code := none,
          token := .start }) ∧
    (s.tree = none → ∀ i, i = .writeTree ∨ i = .compress →
      ∃ t, exec i s = .next t ∧ t.status = .faulted ∧ t.cause = 3 ∧ t.info = 0 ∧ t.tree = none ∧
        t.src = s.src ∧ t.snk = s.snk ∧ t.ysrc = s.ysrc ∧ t.ysnk = s.ysnk ∧ t.trace = s.trace)

/-! ## The steps of a running command -/

/-- R171, R173 to R176, R182, R186: the steps of the walk and of the output. At a Branch one bit is read, 0 goes left
and 1 goes right; at a Leaf its byte is appended to `OBUF`, nothing is written, and the walk restarts at the root; at
`EndLeaf` the walk ends; then `OBUF` is written at once and the command ends with `TREE` invalid. Nothing else
changes. (That `NODE` is invalid between the walk and the end is the model's reading, log 15; that executing a running command
is its next step is the model's form, log 3.) The Leaf clause holds within OBUF_MAX, R223 says what happens beyond it. -/
def Obligations.DecompressWalksAndDelivers : Prop :=
  ∀ s, s.status = .busy →
    (∀ l r b choice, s.phase = .dWalk → s.node = some (.branch l r) → answer s = .ok choice →
      s.src.data[s.src.pos]? = some b →
      exec .decompress s =
        .next
          { s with
            node := some (if b then r else l), src := { s.src with pos := s.src.pos + 1 }
            answers := s.answers.drop 1, asked := s.asked + 1
            trace := s.trace ++ [{ call := .readBit, reply := .bit b }] }) ∧
    (∀ v, s.phase = .dWalk → s.node = some (.leaf v) → FitsOutput s (s.obuf.length + 1) →
      exec .decompress s = .next { s with obuf := s.obuf ++ [v], node := s.tree }) ∧
    (s.phase = .dWalk → s.node = some .endLeaf →
      exec .decompress s = .next { s with phase := .dOut, node := none }) ∧
    (∀ choice, s.phase = .dOut → answer s = .ok choice →
      exec .decompress s =
        .next
          { s with
            tree := none, status := .ready, phase := .idle
            rstack := [], wstack := [], node := none, obuf := [], cbuf := [], ct := none, code := none, token := .start
            ysnk := { s.ysnk with data := s.ysnk.data ++ s.obuf }
            answers := s.answers.drop 1, asked := s.asked + 1
            trace := s.trace ++ [{ call := .writeBytes s.obuf, reply := .done }] })

/-- R191, R193 to R196, R198, R209: the steps of `COMPRESS` after the description. The table of `TREE` is derived
without a transaction; one `ReadBytes(CHUNK)` fills `CBUF`, and an empty one ends the input; the code of the next
byte, or at last of the end-of-message marker, is looked up and goes out bit by bit; the padding ends at `OFF = 0`;
the flush ends the command. Nothing else changes. The internal steps of lookup and end of a code word (log 13), and that
executing a running command is its next step (log 3), are the model's form. -/
def Obligations.CompressEncodesStepByStep : Prop :=
  ∀ s, s.status = .busy →
    (∀ t, s.phase = .cTable → s.tree = some t → FitsDepth s t →
      exec .compress s = .next { s with ct := some (tableOf t), phase := .cRead }) ∧
    (∀ choice, s.phase = .cRead → answer s = .ok choice → ∃ r,
      r = (s.ysrc.data.drop s.ysrc.pos).take r.length ∧ r.length ≤ s.par.chunk ∧
      (r = [] ↔ s.ysrc.data.length ≤ s.ysrc.pos) ∧
      exec .compress s =
        .next
          { s with
            cbuf := r, phase := (if r = [] then .cEom else .cEmit)
            ysrc := { s.ysrc with pos := s.ysrc.pos + r.length }
            answers := s.answers.drop 1, asked := s.asked + 1
            trace := s.trace ++ [{ call := .readBytes s.par.chunk, reply := .bytes r }] }) ∧
    (∀ x xs c, s.phase = .cEmit → s.code = none → s.cbuf = x :: xs → lookup s.ct (.byte x) = some c →
      exec .compress s = .next { s with cbuf := xs, code := some c }) ∧
    (∀ b c choice, s.phase = .cEmit ∨ s.phase = .cEom → s.code = some (b :: c) → answer s = .ok choice →
      ∃ delivered, exec .compress s =
        .next
          { s with
            code := some c
            snk :=
              { s.snk with
                bits := s.snk.bits ++ [b], off := s.snk.off + 1, delivered := delivered }
            answers := s.answers.drop 1, asked := s.asked + 1
            trace := s.trace ++ [{ call := .writeBit b, reply := .done }] }) ∧
    (s.phase = .cEmit → s.code = some [] → exec .compress s = .next { s with code := none }) ∧
    (s.phase = .cEmit → s.code = none → s.cbuf = [] → exec .compress s = .next { s with phase := .cRead }) ∧
    (∀ c, s.phase = .cEom → s.code = none → lookup s.ct .eom = some c →
      exec .compress s = .next { s with code := some c }) ∧
    (s.phase = .cEom → s.code = some [] → exec .compress s = .next { s with code := none, phase := .cPad }) ∧
    (s.phase = .cPad → s.snk.off = 0 → exec .compress s = .next { s with phase := .cFlush }) ∧
    (∀ choice, s.phase = .cFlush → s.snk.off = 0 → answer s = .ok choice →
      exec .compress s =
        .next
          { s with
            status := .ready, phase := .idle
            rstack := [], wstack := [], node := none, obuf := [], cbuf := [], ct := none, code := none, token := .start
            snk := { s.snk with delivered := s.snk.bits.length / 8 }
            answers := s.answers.drop 1, asked := s.asked + 1
            trace := s.trace ++ [{ call := .flush, reply := .done }] })

/-- R197: padding. From `C_PAD`, exactly `(8 - OFF) mod 8` zero bits are written, `OFF` measured on the sink's own counter, and
then `OFF = 0`. -/
def Obligations.CompressPadsToByteBoundary : Prop :=
  ∀ s, s.status = .busy → s.phase = .cPad → Alone s → Undisturbed s →
    Reaches s fun u =>
      u.status = .busy ∧ u.phase = .cFlush ∧ u.snk.off = 0 ∧
      u.snk.bits = s.snk.bits ++ List.replicate ((8 - s.snk.off.toNat) % 8) false ∧
      u.trace =
        s.trace ++ List.replicate ((8 - s.snk.off.toNat) % 8) { call := .writeBit false, reply := .done } ∧
      u.tree = s.tree ∧ u.src = s.src ∧ u.ysrc = s.ysrc ∧ u.ysnk = s.ysnk

/-! ## Whole commands -/

/-- R120 to R123, R128, R129, R37: from `READY`, with the description of a tree within `MAX_DEPTH` at the cursor, `READ_TREE` runs to
completion: `TREE` holds the tree, the cursor is just past its description, the transactions are those of R129, the working
state is clear, and nothing else has changed. -/
def Obligations.ReadTreeReadsTheDescribedTree : Prop :=
  ∀ s T y, s.status = .ready → Alone s → Undisturbed s → FitsDepth s T → s.src.left = ser T ++ y →
    ∃ t, exec .readTree s = .next t ∧ Reaches t fun u =>
      u =
        { s with
          tree := some T, status := .ready, phase := .idle
          rstack := [], wstack := [], node := none, obuf := [], cbuf := [], ct := none, code := none, token := .start
          src := { s.src with pos := s.src.pos + (ser T).length }
          answers := s.answers.drop (preorder readTxns T).length
          asked := s.asked + (preorder readTxns T).length
          trace := s.trace ++ preorder readTxns T }

/-- R121, R124, R125, R128: whatever the bits, `READ_TREE` over its stack agrees with the recursive descent: it ends with the
tree and cursor of `parse`, or, when the bits run out, in `E_STREAM_EXHAUSTED` with `INFO = 0` and no tree. -/
def Obligations.ReadTreeAgreesWithRecursiveDescent : Prop :=
  ∀ s, s.status = .ready → Alone s → Undisturbed s → s.par.maxDepth = none →
    ∃ t, exec .readTree s = .next t ∧ Reaches t fun u =>
      u.snk = s.snk ∧ u.ysrc = s.ysrc ∧ u.ysnk = s.ysnk ∧ u.phase = .idle ∧ u.rstack = [] ∧
      match parse s.src.left with
      | .ok (T, rest) => u.status = .ready ∧ u.tree = some T ∧ u.src.left = rest
      | .error _ => u.status = .faulted ∧ u.cause = 1 ∧ u.info = 0 ∧ u.tree = none

/-- R125, R217, R218: a description cut short never gives a tree: `READ_TREE` and `DECOMPRESS` end in `E_STREAM_EXHAUSTED`
with `INFO = 0`, `TREE` invalid, and nothing written. -/
def Obligations.TruncatedDescriptionFaults : Prop :=
  ∀ s T more i, s.status = .ready → Alone s → Undisturbed s → FitsDepth s T →
    more ≠ [] → s.src.left ++ more = ser T → i = .readTree ∨ i = .decompress →
    ∃ t, exec i s = .next t ∧ Reaches t fun u =>
      u.status = .faulted ∧ u.cause = 1 ∧ u.info = 0 ∧ u.tree = none ∧ u.phase = .idle ∧ u.rstack = [] ∧
      u.snk = s.snk ∧ u.ysrc = s.ysrc ∧ u.ysnk = s.ysnk

/-- R140 to R142, R145, R146: from `READY`, with a tree within `MAX_DEPTH`, `WRITE_TREE` runs to completion: `ser(TREE)` is
appended to the sink, by the transactions of R146, with no flush and no padding; `TREE` and the other streams are as before. -/
def Obligations.WriteTreeAppendsSerialization : Prop :=
  ∀ s T, s.status = .ready → Alone s → Undisturbed s → FitsDepth s T → s.tree = some T →
    ∃ t, exec .writeTree s = .next t ∧ Reaches t fun u =>
      ∃ delivered, u =
        { s with
          status := .ready, phase := .idle
          rstack := [], wstack := [], node := none, obuf := [], cbuf := [], ct := none, code := none, token := .start
          snk :=
            { s.snk with
              bits := s.snk.bits ++ ser T
              off := s.snk.off + BitVec.ofNat 3 (ser T).length
              delivered := delivered }
          answers := s.answers.drop (preorder writeTxns T).length
          asked := s.asked + (preorder writeTxns T).length
          trace := s.trace ++ preorder writeTxns T }

/-- R184, R171, R174 to R176, R178, R182, R183: from `READY`, with `stream(T, S)` at the cursor and anything after it,
`DECOMPRESS` runs to completion: the sink has the bytes `S` by one `WriteBytes`, the cursor is just past the end-of-message
code, the transactions are those of R183, `TREE` is invalid and nothing else has changed. -/
def Obligations.DecompressDecodesStream : Prop :=
  ∀ s T S y, s.status = .ready → Alone s → Undisturbed s → FitsDepth s T → FitsOutput s S.length →
    carries T .eom → Covers T S → s.src.left = enc T S 0 ++ y →
    ∃ t, exec .decompress s = .next t ∧ Reaches t fun u =>
      ∃ l, l = preorder readTxns T ++ walkTxns (codedBytes T S ++ codeBits T .eom) ++
          [{ call := .writeBytes S, reply := .done }] ∧
        u =
          { s with
            tree := none, status := .ready, phase := .idle
            rstack := [], wstack := [], node := none, obuf := [], cbuf := [], ct := none, code := none, token := .start
            src := { s.src with pos := s.src.pos + (encBody T S).length }
            ysnk := { s.ysnk with data := s.ysnk.data ++ S }
            answers := s.answers.drop l.length
            asked := s.asked + l.length
            trace := s.trace ++ l }

/-- R177, R218: coded data that ends without an end-of-message code: after the description and the code words of `S`, `DECOMPRESS`
ends in `E_STREAM_EXHAUSTED`, with `INFO = 1` at a code-word boundary and 2 inside a code word, and delivers nothing. -/
def Obligations.TruncatedCodedDataFaults : Prop :=
  ∀ s T S p more sym, s.status = .ready → Alone s → Undisturbed s → FitsDepth s T → FitsOutput s S.length →
    Covers T S → more ≠ [] → (sym, p ++ more) ∈ paths T [] → s.src.left = ser T ++ codedBytes T S ++ p →
    ∃ t, exec .decompress s = .next t ∧ Reaches t fun u =>
      u.status = .faulted ∧ u.cause = 1 ∧ u.info = (if p = [] then 1 else 2) ∧
      u.tree = none ∧ u.node = none ∧ u.obuf = [] ∧ u.phase = .idle ∧
      u.ysnk = s.ysnk ∧ u.snk = s.snk ∧ u.ysrc = s.ysrc ∧
      u.src.pos = s.src.pos + s.src.left.length

/-- R179 (b), R239: at the root of a tree that is a single Leaf the walk never ends: after any number of steps `STATUS` is still
`BUSY`, no bit has been read, and `OBUF` has grown by one byte a step. -/
def Obligations.LoneLeafWalkNeverEnds : Prop :=
  ∀ s v k, s.status = .busy → s.phase = .dWalk → s.host = [] → s.par.obufMax = none →
    s.tree = some (.leaf v) → s.node = some (.leaf v) →
    runSteps k s = .next { s with obuf := s.obuf ++ List.replicate k v }

/-- R191 to R199, R205, R206: from `READY`, with a tree that carries the end-of-message marker and every byte of the input left
in `BYTESRC`, `COMPRESS` runs to completion: it appends `enc(T, S, OFF)`, whatever the chunk size and the counts the device
returns (R195), ends byte-aligned with everything delivered, has consumed the input, and leaves `TREE` and the other streams as
they were. Its transactions are those of R206, in order: the description, each `ReadBytes` with the code bits of what it
returned, the one empty `ReadBytes`, the end-of-message code, the padding, and one `Flush` last. -/
def Obligations.CompressWritesStream : Prop :=
  ∀ s T, s.status = .ready → Alone s → Undisturbed s → FitsDepth s T → s.tree = some T →
    s.snk.off.toNat = s.snk.bits.length % 8 → s.ysrc.pos ≤ s.ysrc.data.length →
    carries T .eom → Covers T s.ysrc.left →
    ∃ t, exec .compress s = .next t ∧ Reaches t fun u =>
      ∃ chunks l, chunks.flatten = s.ysrc.left ∧ (∀ r ∈ chunks, r ≠ [] ∧ r.length ≤ s.par.chunk) ∧
        l =
          compressTxns T s.par.chunk chunks
            ((8 - (s.snk.off.toNat + (encBody T s.ysrc.left).length) % 8) % 8) ∧
        u =
          { s with
            status := .ready, phase := .idle
            rstack := [], wstack := [], node := none, obuf := [], cbuf := [], ct := none, code := none, token := .start
            snk :=
              { s.snk with
                bits := s.snk.bits ++ enc T s.ysrc.left s.snk.off.toNat
                off := 0
                delivered := (s.snk.bits ++ enc T s.ysrc.left s.snk.off.toNat).length / 8 }
            ysrc := { s.ysrc with pos := s.ysrc.data.length }
            answers := s.answers.drop l.length
            asked := s.asked + l.length
            trace := s.trace ++ l }

/-- R100, R197, R200, R208: the padding is at most seven bits, all zero; from offset `o` the output ends on a byte
boundary, and from offset 0 its length is a multiple of 8. R200 marks this as derived from R197. -/
def Obligations.CompressedStreamIsByteAligned : Prop :=
  ∀ T S o, o < 8 →
    (o + (enc T S o).length) % 8 = 0 ∧
    (∃ n, n ≤ 7 ∧ enc T S o = encBody T S ++ List.replicate n false) ∧
    (o = 0 → (enc T S o).length % 8 = 0)

/-- R201: an input byte without a code stops `COMPRESS` in `E_MISSING_CODE` with `INFO` the byte, before any bit of it: the sink
holds the description and the codes of the bytes before it, without end-of-message code or padding, and `TREE` is unchanged. -/
def Obligations.CompressFaultsOnUncoveredByte : Prop :=
  ∀ s T S x S', s.status = .ready → Alone s → Undisturbed s → FitsDepth s T → s.tree = some T →
    s.ysrc.left = S ++ x :: S' → Covers T S → ¬ carries T (.byte x) →
    ∃ t, exec .compress s = .next t ∧ Reaches t fun u =>
      u.status = .faulted ∧ u.cause = 2 ∧ u.info.toNat = x.toNat ∧ u.tree = some T ∧
      u.ct = none ∧ u.cbuf = [] ∧ u.phase = .idle ∧
      u.snk.bits = s.snk.bits ++ ser T ++ codedBytes T S ∧
      s.ysrc.pos + S.length + 1 ≤ u.ysrc.pos ∧ u.ysrc.data = s.ysrc.data ∧
      u.src = s.src ∧ u.ysnk = s.ysnk

/-- R202: a tree without `EndLeaf` stops `COMPRESS` in `E_MISSING_CODE` with `INFO = 256`, after the whole input has been
encoded. -/
def Obligations.CompressFaultsWithoutEndLeaf : Prop :=
  ∀ s T, s.status = .ready → Alone s → Undisturbed s → FitsDepth s T → s.tree = some T →
    s.ysrc.pos ≤ s.ysrc.data.length → Covers T s.ysrc.left → ¬ carries T .eom →
    ∃ t, exec .compress s = .next t ∧ Reaches t fun u =>
      u.status = .faulted ∧ u.cause = 2 ∧ u.info = 256 ∧ u.tree = some T ∧ u.ct = none ∧ u.cbuf = [] ∧
      u.snk.bits = s.snk.bits ++ ser T ++ codedBytes T s.ysrc.left ∧
      u.ysrc = { s.ysrc with pos := s.ysrc.data.length } ∧ u.src = s.src ∧ u.ysnk = s.ysnk

/-- R184: what `COMPRESS` writes to a fresh sink, taken as bytes, `DECOMPRESS` turns back into the input. -/
def Obligations.DecompressInvertsCompress : Prop :=
  ∀ s T S v y, s.status = .ready → Alone s → Undisturbed s → FitsDepth s T → s.tree = some T →
    s.snk = BitSink.initial → s.ysrc.left = S → s.ysrc.pos ≤ s.ysrc.data.length → carries T .eom → Covers T S →
    v.status = .ready → Alone v → Undisturbed v → FitsDepth v T → FitsOutput v S.length →
    ∃ t, exec .compress s = .next t ∧ Reaches t fun u =>
      u.status = .ready ∧
      (v.src.left = unpack u.snk.stream ++ y →
        ∃ t', exec .decompress v = .next t' ∧ Reaches t' fun w =>
          w.status = .ready ∧ w.ysnk.data = v.ysnk.data ++ S)

/-- R181, R268: when every transaction is answered, whatever the answers, each command ends, in `READY` or `FAULTED`,
but for `DECOMPRESS` of a stream that describes a single Leaf. R181 and R268 mark this as derived. -/
def Obligations.CommandsEnd : Prop :=
  ∀ s c, s.status = .ready → Answering s →
    (decodeCmd c = .decompress → ∀ v y, s.src.left ≠ ser (.leaf v) ++ y) →
    ∃ t, exec (decodeCmd c) s = .next t ∧ Reaches t fun u => u.status ≠ .busy

/-! ## Frames -/

/-- R50, R71: which command reaches which stream. A step of `READ_TREE` changes no stream but `BITSRC`, of `WRITE_TREE` none but
`BITSNK`, of `DECOMPRESS` none but `BITSRC` and `BYTESNK`, of `COMPRESS` none but `BITSNK` and `BYTESRC`; no command changes
`CMD`, the parameters, or anything of the host's. That a token executed in a parse changes no stream at all is the model's
choice (log 3): its bits have been read before. -/
def Obligations.CommandsTouchOnlyTheirStreams : Prop :=
  ∀ s t,
    (exec .readTree s = .next t → t.snk = s.snk ∧ t.ysrc = s.ysrc ∧ t.ysnk = s.ysnk) ∧
    (exec .writeTree s = .next t → t.src = s.src ∧ t.ysrc = s.ysrc ∧ t.ysnk = s.ysnk) ∧
    (exec .decompress s = .next t → t.snk = s.snk ∧ t.ysrc = s.ysrc) ∧
    (exec .compress s = .next t → t.src = s.src ∧ t.ysnk = s.ysnk) ∧
    (∀ i, exec i s = .next t →
      t.cmd = s.cmd ∧ t.par = s.par ∧ t.host = s.host ∧ t.hostLog = s.hostLog ∧ t.waits = s.waits) ∧
    (∀ T, s.phase.reads = true → exec (tokenOf T) s = .next t →
      t.src = s.src ∧ t.snk = s.snk ∧ t.ysrc = s.ysrc ∧ t.ysnk = s.ysnk ∧ t.trace = s.trace ∧
      t.answers = s.answers) ∧
    (∀ T, s.phase.writes = true → exec (tokenOf T) s = .next t →
      t.src = s.src ∧ t.ysrc = s.ysrc ∧ t.ysnk = s.ysnk)

/-- R27, R64, R66: while a command runs, cursors only move forward over data that does not change, sinks only grow at their end,
and no transaction performed is undone. -/
def Obligations.StreamsOnlyAdvance : Prop :=
  ∀ s t, s.status = .busy → step s = .next t →
    t.src.data = s.src.data ∧ s.src.pos ≤ t.src.pos ∧
    t.ysrc.data = s.ysrc.data ∧ s.ysrc.pos ≤ t.ysrc.pos ∧
    s.snk.bits <+: t.snk.bits ∧ s.ysnk.data <+: t.ysnk.data ∧
    s.trace <+: t.trace

/-- R23, R68: while a command runs, a valid `TREE` does not change. -/
def Obligations.TreeIsImmutableDuringCommand : Prop :=
  ∀ s t T, s.status = .busy → s.phase.reads = false → s.tree = some T → step s = .next t → t.status = .busy →
    t.tree = some T

/-! ## Faults and reset -/

/-- R12, R226, R216: `raise` in full: the status, cause and information word of the fault, the working state cleared, `TREE`
dropped by `READ_TREE` and `DECOMPRESS` and kept by the others, and no stream touched. -/
def Obligations.RaiseClearsWorkingState : Prop :=
  ∀ f info s,
    (raise f info s).status = .faulted ∧ (raise f info s).info = info ∧
    (raise f info s).cause =
      (match f with | .streamExhausted => 1 | .missingCode => 2 | .noTree => 3 | .io => 4 | .resource => 5) ∧
    (raise f info s).phase = .idle ∧ (raise f info s).rstack = [] ∧ (raise f info s).wstack = [] ∧
    (raise f info s).node = none ∧ (raise f info s).obuf = [] ∧ (raise f info s).cbuf = [] ∧
    (raise f info s).ct = none ∧ (raise f info s).token = .start ∧
    (s.phase.command = some .readTree ∨ s.phase.command = some .decompress → (raise f info s).tree = none) ∧
    (s.phase.command = some .writeTree ∨ s.phase.command = some .compress → (raise f info s).tree = s.tree) ∧
    (raise f info s).src = s.src ∧ (raise f info s).snk = s.snk ∧ (raise f info s).ysrc = s.ysrc ∧
    (raise f info s).ysnk = s.ysnk ∧ (raise f info s).trace = s.trace

/-- R226, R227, R177: a step that faults a running command leaves the working state clear, `TREE` as R37 says for the command,
the output sink as it was, and a cause that R216 lists for it. -/
def Obligations.FaultingStepsLeaveACause : Prop :=
  ∀ s t, RunInvariant s → s.status = .busy → step s = .next t → t.status = .faulted →
    t.phase = .idle ∧ t.rstack = [] ∧ t.wstack = [] ∧ t.node = none ∧ t.obuf = [] ∧ t.cbuf = [] ∧ t.ct = none ∧
    t.token = .start ∧ t.ysnk.data = s.ysnk.data ∧
    (s.phase.command = some .readTree → t.tree = none ∧ (t.cause = 1 ∨ t.cause = 4 ∨ t.cause = 5)) ∧
    (s.phase.command = some .decompress → t.tree = none ∧ (t.cause = 1 ∨ t.cause = 4 ∨ t.cause = 5)) ∧
    (s.phase.command = some .writeTree → t.tree = s.tree ∧ (t.cause = 4 ∨ t.cause = 5)) ∧
    (s.phase.command = some .compress → t.tree = s.tree ∧ (t.cause = 2 ∨ t.cause = 4 ∨ t.cause = 5)) ∧
    (s.par.maxDepth = none → s.par.obufMax = none → t.cause ≠ 5)

/-- R221, R70, R227: a device error in any transaction, of any step of any command, ends the command in `E_IO` with `INFO` the
device's number: 0 `BITSRC`, 1 `BITSNK`, 2 `BYTESRC`, 3 `BYTESNK`; that device keeps its error and the others theirs. What the
streams hold stays as the completed transactions left it, but for the cursor after a failed `ReadBits(8)`, which is anywhere
from where it was to the end of the data. That the failed transaction leaves the rest of its stream as it was is the model's
reading (log 16), and the freedom of the cursor there too (log 28). That executing a running command is its next step is the
model's form (log 3). -/
def Obligations.DeviceErrorsRaiseIo : Prop :=
  ∀ s i e choice as, s.status = .busy → s.phase.command = some i → transacts s = true →
    s.answers = .error e choice :: as →
    ∃ t c, exec i s = .next t ∧ t.status = .faulted ∧ t.cause = 4 ∧
      t.info = (match s.phase.device with | .bitsrc => 0 | .bitsnk => 1 | .bytesrc => 2 | .bytesnk => 3) ∧
      t.trace = s.trace ++ [{ call := c, reply := .deviceError e }] ∧ t.answers = as ∧
      t.src.error = (if s.phase.device = .bitsrc then some e else s.src.error) ∧
      t.snk.error = (if s.phase.device = .bitsnk then some e else s.snk.error) ∧
      t.ysrc.error = (if s.phase.device = .bytesrc then some e else s.ysrc.error) ∧
      t.ysnk.error = (if s.phase.device = .bytesnk then some e else s.ysnk.error) ∧
      t.src.data = s.src.data ∧
      (s.phase.reads = false ∨ s.token ≠ .zeroOne → t.src.pos = s.src.pos) ∧
      s.src.pos ≤ t.src.pos ∧ (s.src.pos ≤ s.src.data.length → t.src.pos ≤ s.src.data.length) ∧
      t.snk.bits = s.snk.bits ∧ t.snk.off = s.snk.off ∧ t.snk.delivered = s.snk.delivered ∧
      t.ysrc.data = s.ysrc.data ∧ t.ysrc.pos = s.ysrc.pos ∧ t.ysnk.data = s.ysnk.data

/-- R223, R127: under a finite `MAX_DEPTH` a Branch that would go deeper, read or to be written, raises `E_RESOURCE`
with `INFO = 0`, and under a finite `OBUF_MAX` a byte too many raises it with `INFO = 1`. Where the writer meets
MAX_DEPTH is the model's reading (log 10), and what executing a token or a running command is, the model's form (log 3). -/
def Obligations.LimitsRaiseResource : Prop :=
  ∀ s,
    (∀ m, s.par.maxDepth = some m → s.phase.reads = true → m ≤ s.rstack.length →
      ∃ t, exec .branch s = .next t ∧ t.status = .faulted ∧ t.cause = 5 ∧ t.info = 0 ∧ t.tree = none) ∧
    (∀ m l r d w, s.par.maxDepth = some m → s.phase.writes = true →
      s.wstack = { sub := .branch l r, depth := d } :: w → m ≤ d →
      ∃ t, exec .branch s = .next t ∧ t.status = .faulted ∧ t.cause = 5 ∧ t.info = 0 ∧ t.snk = s.snk) ∧
    (∀ m v, s.par.obufMax = some m → s.status = .busy → s.phase = .dWalk → s.node = some (.leaf v) →
      m ≤ s.obuf.length →
      ∃ t, exec .decompress s = .next t ∧ t.status = .faulted ∧ t.cause = 5 ∧ t.info = 1 ∧ t.ysnk = s.ysnk)

/-- R228, R229: `FAULTED` is sticky: whatever the host does but `RESET`, `STATUS`, `CAUSE`, `INFO`, `TREE` and the working state
keep their values and no transaction is performed. -/
def Obligations.FaultedStaysUntilReset : Prop :=
  ∀ s t, s.status = .faulted → (∀ h, s.host ≠ .reset :: h) → step s = .next t →
    t.status = .faulted ∧ t.cause = s.cause ∧ t.info = s.info ∧ t.tree = s.tree ∧ t.cmd = s.cmd ∧
    t.phase = s.phase ∧ t.ct = s.ct ∧ t.obuf = s.obuf ∧ t.cbuf = s.cbuf ∧ t.node = s.node ∧
    t.rstack = s.rstack ∧ t.wstack = s.wstack ∧ t.token = s.token ∧ t.trace = s.trace

/-- R229: in `FAULTED`, `ISSUE` and `LOAD_TREE` are refused without any change of CORE or of a stream; the host learns
of it. That the host is told by a log (log 17), and that a command handed to `exec` there is a next state (log 3), is the
model's form. -/
def Obligations.FaultedRefusesIssueAndLoad : Prop :=
  ∀ s h, s.status = .faulted →
    (∀ c, s.host = .issue c :: h →
      step s = .next { s with host := h, hostLog := s.hostLog ++ [.refused (.issue c)] }) ∧
    (∀ T, s.host = .loadTree T :: h →
      step s = .next { s with host := h, hostLog := s.hostLog ++ [.refused (.loadTree T)] }) ∧
    (∀ c, exec (decodeCmd c) s = .next s)

/-- R250, R251, R38: `RESET`, in any state, gives every item of CORE its reset value and changes no stream device. -/
def Obligations.ResetClearsCoreOnly : Prop :=
  ∀ s h, s.host = .reset :: h →
    ∃ t, step s = .next t ∧
      t.tree = none ∧ t.ct = none ∧ t.node = none ∧ t.obuf = [] ∧ t.cbuf = [] ∧ t.rstack = [] ∧ t.wstack = [] ∧
      t.phase = .idle ∧ t.token = .start ∧ t.status = .ready ∧ t.cause = 0 ∧ t.info = 0 ∧
      t.src = s.src ∧ t.snk = s.snk ∧ t.ysrc = s.ysrc ∧ t.ysnk = s.ysnk ∧ t.trace = s.trace ∧ t.host = h

/-- R250, R227: a `RESET` in place of a transaction abandons the command there: CORE is at its reset values, what was
written and read before stays, and the transaction has no effect. That the transaction has no effect is the choice
R251 gives a model (log 2). -/
def Obligations.ResetAbandonsTransaction : Prop :=
  ∀ s as, s.answers = .reset :: as → ∀ info b v max seq,
    ∃ t, readBit info s = .ended t ∧ readBits8 info s = .ended t ∧ writeBit b s = .ended t ∧
      writeBits8 v s = .ended t ∧ flush s = .ended t ∧ readBytes max s = .ended t ∧ writeBytes seq s = .ended t ∧
      t.status = .ready ∧ t.phase = .idle ∧ t.tree = none ∧ t.cause = 0 ∧ t.info = 0 ∧
      t.rstack = [] ∧ t.wstack = [] ∧ t.node = none ∧ t.obuf = [] ∧ t.cbuf = [] ∧ t.ct = none ∧
      t.token = .start ∧ t.src = s.src ∧ t.snk = s.snk ∧ t.ysrc = s.ysrc ∧ t.ysnk = s.ysnk ∧ t.trace = s.trace

/-! ## The host -/

/-- R33 (b), (c), (e), R30: in `READY`, `LOAD_TREE` puts any tree in `TREE`, and a read of `TREE` returns its value if
it is valid and nothing otherwise; `STATUS`, `CAUSE` and `INFO` are read in any state without a change. What the host
is told stands in a log of the model (log 17). -/
def Obligations.HostLoadsAndReadsRegisters : Prop :=
  ∀ s h,
    (∀ T, s.status = .ready → s.host = .loadTree T :: h → step s = .next { s with host := h, tree := some T }) ∧
    (∀ T, s.status = .ready → s.tree = some T → s.host = .readTreeReg :: h →
      step s = .next { s with host := h, hostLog := s.hostLog ++ [.treeReg T] }) ∧
    (s.status = .ready → s.tree = none → s.host = .readTreeReg :: h →
      step s = .next { s with host := h, hostLog := s.hostLog ++ [.refused .readTreeReg] }) ∧
    (s.host = .readRegs :: h →
      step s = .next
        { s with
          host := h
          hostLog := s.hostLog ++
            [.regs (match s.status with | .ready => 0 | .busy => 1 | .faulted => 2) s.cause s.info] })

/-- R105, R57, R251: the host's device actions, outside `BUSY`: a source is set with its cursor at 0, a sink is
emptied with `OFF = 0`, a flush pads to the byte boundary. That the first four clear the device's error (log 20), and that
all of them succeed at once (log 29), is the model's choice. -/
def Obligations.HostOperatesDevices : Prop :=
  ∀ s h, s.status ≠ .busy →
    (∀ bits, s.host = .setSrc bits :: h →
      step s = .next { s with host := h, src := { data := bits, pos := 0, error := none } }) ∧
    (s.host = .initSnk :: h →
      step s = .next { s with host := h, snk := { bits := [], off := 0, delivered := 0, error := none } }) ∧
    (∀ bytes, s.host = .setYsrc bytes :: h →
      step s = .next { s with host := h, ysrc := { data := bytes, pos := 0, error := none } }) ∧
    (s.host = .initYsnk :: h → step s = .next { s with host := h, ysnk := { data := [], error := none } }) ∧
    (s.host = .flushSnk :: h → ∃ t, step s = .next t ∧
      t.snk.bits = s.snk.bits ++ List.replicate ((8 - s.snk.off.toNat) % 8) false ∧ t.snk.off = 0)

/-! ## The invariant of every run -/

/-- R38: the state right after reset meets the invariant. The devices' initial contents are the model's (log 11). -/
def Obligations.ResetMeetsInvariant : Prop := RunInvariant State.reset

/-- R36, R54, R28 to R31, R37, R24, R25, R40, R198, R216, R223: every step keeps the invariant, from every state that
meets it. Its clauses on code, token and delivered are the model's (log 13, log 14, log 30). -/
def Obligations.StepKeepsInvariant : Prop :=
  ∀ s t, RunInvariant s → step s = .next t → RunInvariant t

/-- R38: every item of the reset table at the value it gives. R38 marks the values as the spec's decision D14. -/
def Obligations.ResetValues : Prop :=
  State.reset.tree = none ∧ State.reset.ct = none ∧ State.reset.obuf = [] ∧ State.reset.cbuf = [] ∧
  State.reset.node = none ∧ State.reset.rstack = [] ∧ State.reset.wstack = [] ∧ State.reset.phase = .idle ∧
  State.reset.status = .ready ∧ State.reset.cause = 0 ∧ State.reset.info = 0
end

