-- ==== Sys2Proof/Laws/State.lean ====
section
/-! SUPPORT. One lemma per field of State and per named update, all by `rfl`. -/

namespace Sys2Proof.Machine

/-! ### `raise` -/

@[simp] theorem raise_tree (f : FaultCause) (i : BitVec 9) (s : State) : (raise f i s).tree = if s.phase.dropsTree then none else s.tree := rfl
@[simp] theorem raise_ct (f : FaultCause) (i : BitVec 9) (s : State) : (raise f i s).ct = none := rfl
@[simp] theorem raise_obuf (f : FaultCause) (i : BitVec 9) (s : State) : (raise f i s).obuf = [] := rfl
@[simp] theorem raise_cbuf (f : FaultCause) (i : BitVec 9) (s : State) : (raise f i s).cbuf = [] := rfl
@[simp] theorem raise_phase (f : FaultCause) (i : BitVec 9) (s : State) : (raise f i s).phase = .idle := rfl
@[simp] theorem raise_node (f : FaultCause) (i : BitVec 9) (s : State) : (raise f i s).node = none := rfl
@[simp] theorem raise_rstack (f : FaultCause) (i : BitVec 9) (s : State) : (raise f i s).rstack = [] := rfl
@[simp] theorem raise_wstack (f : FaultCause) (i : BitVec 9) (s : State) : (raise f i s).wstack = [] := rfl
@[simp] theorem raise_cmd (f : FaultCause) (i : BitVec 9) (s : State) : (raise f i s).cmd = s.cmd := rfl
@[simp] theorem raise_status (f : FaultCause) (i : BitVec 9) (s : State) : (raise f i s).status = .faulted := rfl
@[simp] theorem raise_cause (f : FaultCause) (i : BitVec 9) (s : State) : (raise f i s).cause = f.code := rfl
@[simp] theorem raise_info (f : FaultCause) (i : BitVec 9) (s : State) : (raise f i s).info = i := rfl
@[simp] theorem raise_src (f : FaultCause) (i : BitVec 9) (s : State) : (raise f i s).src = s.src := rfl
@[simp] theorem raise_snk (f : FaultCause) (i : BitVec 9) (s : State) : (raise f i s).snk = s.snk := rfl
@[simp] theorem raise_ysrc (f : FaultCause) (i : BitVec 9) (s : State) : (raise f i s).ysrc = s.ysrc := rfl
@[simp] theorem raise_ysnk (f : FaultCause) (i : BitVec 9) (s : State) : (raise f i s).ysnk = s.ysnk := rfl
@[simp] theorem raise_code (f : FaultCause) (i : BitVec 9) (s : State) : (raise f i s).code = none := rfl
@[simp] theorem raise_token (f : FaultCause) (i : BitVec 9) (s : State) : (raise f i s).token = .start := rfl
@[simp] theorem raise_par (f : FaultCause) (i : BitVec 9) (s : State) : (raise f i s).par = s.par := rfl
@[simp] theorem raise_host (f : FaultCause) (i : BitVec 9) (s : State) : (raise f i s).host = s.host := rfl
@[simp] theorem raise_answers (f : FaultCause) (i : BitVec 9) (s : State) : (raise f i s).answers = s.answers := rfl
@[simp] theorem raise_waits (f : FaultCause) (i : BitVec 9) (s : State) : (raise f i s).waits = s.waits := rfl
@[simp] theorem raise_asked (f : FaultCause) (i : BitVec 9) (s : State) : (raise f i s).asked = s.asked := rfl
@[simp] theorem raise_trace (f : FaultCause) (i : BitVec 9) (s : State) : (raise f i s).trace = s.trace := rfl
@[simp] theorem raise_hostLog (f : FaultCause) (i : BitVec 9) (s : State) : (raise f i s).hostLog = s.hostLog := rfl

/-! ### `finish` -/

@[simp] theorem finish_tree (s : State) : (finish s).tree = s.tree := rfl
@[simp] theorem finish_ct (s : State) : (finish s).ct = none := rfl
@[simp] theorem finish_obuf (s : State) : (finish s).obuf = [] := rfl
@[simp] theorem finish_cbuf (s : State) : (finish s).cbuf = [] := rfl
@[simp] theorem finish_phase (s : State) : (finish s).phase = .idle := rfl
@[simp] theorem finish_node (s : State) : (finish s).node = none := rfl
@[simp] theorem finish_rstack (s : State) : (finish s).rstack = [] := rfl
@[simp] theorem finish_wstack (s : State) : (finish s).wstack = [] := rfl
@[simp] theorem finish_cmd (s : State) : (finish s).cmd = s.cmd := rfl
@[simp] theorem finish_status (s : State) : (finish s).status = .ready := rfl
@[simp] theorem finish_cause (s : State) : (finish s).cause = s.cause := rfl
@[simp] theorem finish_info (s : State) : (finish s).info = s.info := rfl
@[simp] theorem finish_src (s : State) : (finish s).src = s.src := rfl
@[simp] theorem finish_snk (s : State) : (finish s).snk = s.snk := rfl
@[simp] theorem finish_ysrc (s : State) : (finish s).ysrc = s.ysrc := rfl
@[simp] theorem finish_ysnk (s : State) : (finish s).ysnk = s.ysnk := rfl
@[simp] theorem finish_code (s : State) : (finish s).code = none := rfl
@[simp] theorem finish_token (s : State) : (finish s).token = .start := rfl
@[simp] theorem finish_par (s : State) : (finish s).par = s.par := rfl
@[simp] theorem finish_host (s : State) : (finish s).host = s.host := rfl
@[simp] theorem finish_answers (s : State) : (finish s).answers = s.answers := rfl
@[simp] theorem finish_waits (s : State) : (finish s).waits = s.waits := rfl
@[simp] theorem finish_asked (s : State) : (finish s).asked = s.asked := rfl
@[simp] theorem finish_trace (s : State) : (finish s).trace = s.trace := rfl
@[simp] theorem finish_hostLog (s : State) : (finish s).hostLog = s.hostLog := rfl

/-! ### `applyReset` -/

@[simp] theorem applyReset_tree (s : State) : (applyReset s).tree = none := rfl
@[simp] theorem applyReset_ct (s : State) : (applyReset s).ct = none := rfl
@[simp] theorem applyReset_obuf (s : State) : (applyReset s).obuf = [] := rfl
@[simp] theorem applyReset_cbuf (s : State) : (applyReset s).cbuf = [] := rfl
@[simp] theorem applyReset_phase (s : State) : (applyReset s).phase = .idle := rfl
@[simp] theorem applyReset_node (s : State) : (applyReset s).node = none := rfl
@[simp] theorem applyReset_rstack (s : State) : (applyReset s).rstack = [] := rfl
@[simp] theorem applyReset_wstack (s : State) : (applyReset s).wstack = [] := rfl
@[simp] theorem applyReset_cmd (s : State) : (applyReset s).cmd = s.cmd := rfl
@[simp] theorem applyReset_status (s : State) : (applyReset s).status = .ready := rfl
@[simp] theorem applyReset_cause (s : State) : (applyReset s).cause = 0 := rfl
@[simp] theorem applyReset_info (s : State) : (applyReset s).info = 0 := rfl
@[simp] theorem applyReset_src (s : State) : (applyReset s).src = s.src := rfl
@[simp] theorem applyReset_snk (s : State) : (applyReset s).snk = s.snk := rfl
@[simp] theorem applyReset_ysrc (s : State) : (applyReset s).ysrc = s.ysrc := rfl
@[simp] theorem applyReset_ysnk (s : State) : (applyReset s).ysnk = s.ysnk := rfl
@[simp] theorem applyReset_code (s : State) : (applyReset s).code = none := rfl
@[simp] theorem applyReset_token (s : State) : (applyReset s).token = .start := rfl
@[simp] theorem applyReset_par (s : State) : (applyReset s).par = s.par := rfl
@[simp] theorem applyReset_host (s : State) : (applyReset s).host = s.host := rfl
@[simp] theorem applyReset_answers (s : State) : (applyReset s).answers = s.answers := rfl
@[simp] theorem applyReset_waits (s : State) : (applyReset s).waits = s.waits := rfl
@[simp] theorem applyReset_asked (s : State) : (applyReset s).asked = s.asked := rfl
@[simp] theorem applyReset_trace (s : State) : (applyReset s).trace = s.trace := rfl
@[simp] theorem applyReset_hostLog (s : State) : (applyReset s).hostLog = s.hostLog := rfl

/-! ### `record` -/

@[simp] theorem record_tree (c : Call) (r : Reply) (s : State) : (record c r s).tree = s.tree := rfl
@[simp] theorem record_ct (c : Call) (r : Reply) (s : State) : (record c r s).ct = s.ct := rfl
@[simp] theorem record_obuf (c : Call) (r : Reply) (s : State) : (record c r s).obuf = s.obuf := rfl
@[simp] theorem record_cbuf (c : Call) (r : Reply) (s : State) : (record c r s).cbuf = s.cbuf := rfl
@[simp] theorem record_phase (c : Call) (r : Reply) (s : State) : (record c r s).phase = s.phase := rfl
@[simp] theorem record_node (c : Call) (r : Reply) (s : State) : (record c r s).node = s.node := rfl
@[simp] theorem record_rstack (c : Call) (r : Reply) (s : State) : (record c r s).rstack = s.rstack := rfl
@[simp] theorem record_wstack (c : Call) (r : Reply) (s : State) : (record c r s).wstack = s.wstack := rfl
@[simp] theorem record_cmd (c : Call) (r : Reply) (s : State) : (record c r s).cmd = s.cmd := rfl
@[simp] theorem record_status (c : Call) (r : Reply) (s : State) : (record c r s).status = s.status := rfl
@[simp] theorem record_cause (c : Call) (r : Reply) (s : State) : (record c r s).cause = s.cause := rfl
@[simp] theorem record_info (c : Call) (r : Reply) (s : State) : (record c r s).info = s.info := rfl
@[simp] theorem record_src (c : Call) (r : Reply) (s : State) : (record c r s).src = s.src := rfl
@[simp] theorem record_snk (c : Call) (r : Reply) (s : State) : (record c r s).snk = s.snk := rfl
@[simp] theorem record_ysrc (c : Call) (r : Reply) (s : State) : (record c r s).ysrc = s.ysrc := rfl
@[simp] theorem record_ysnk (c : Call) (r : Reply) (s : State) : (record c r s).ysnk = s.ysnk := rfl
@[simp] theorem record_code (c : Call) (r : Reply) (s : State) : (record c r s).code = s.code := rfl
@[simp] theorem record_token (c : Call) (r : Reply) (s : State) : (record c r s).token = s.token := rfl
@[simp] theorem record_par (c : Call) (r : Reply) (s : State) : (record c r s).par = s.par := rfl
@[simp] theorem record_host (c : Call) (r : Reply) (s : State) : (record c r s).host = s.host := rfl
@[simp] theorem record_answers (c : Call) (r : Reply) (s : State) : (record c r s).answers = s.answers.tail := rfl
@[simp] theorem record_waits (c : Call) (r : Reply) (s : State) : (record c r s).waits = s.waits := rfl
@[simp] theorem record_asked (c : Call) (r : Reply) (s : State) : (record c r s).asked = s.asked + 1 := rfl
@[simp] theorem record_trace (c : Call) (r : Reply) (s : State) : (record c r s).trace = s.trace ++ [{ call := c, reply := r }] := rfl
@[simp] theorem record_hostLog (c : Call) (r : Reply) (s : State) : (record c r s).hostLog = s.hostLog := rfl

/-! ### `srcError` -/

@[simp] theorem srcError_tree (e : Nat) (s : State) : (srcError e s).tree = s.tree := rfl
@[simp] theorem srcError_ct (e : Nat) (s : State) : (srcError e s).ct = s.ct := rfl
@[simp] theorem srcError_obuf (e : Nat) (s : State) : (srcError e s).obuf = s.obuf := rfl
@[simp] theorem srcError_cbuf (e : Nat) (s : State) : (srcError e s).cbuf = s.cbuf := rfl
@[simp] theorem srcError_phase (e : Nat) (s : State) : (srcError e s).phase = s.phase := rfl
@[simp] theorem srcError_node (e : Nat) (s : State) : (srcError e s).node = s.node := rfl
@[simp] theorem srcError_rstack (e : Nat) (s : State) : (srcError e s).rstack = s.rstack := rfl
@[simp] theorem srcError_wstack (e : Nat) (s : State) : (srcError e s).wstack = s.wstack := rfl
@[simp] theorem srcError_cmd (e : Nat) (s : State) : (srcError e s).cmd = s.cmd := rfl
@[simp] theorem srcError_status (e : Nat) (s : State) : (srcError e s).status = s.status := rfl
@[simp] theorem srcError_cause (e : Nat) (s : State) : (srcError e s).cause = s.cause := rfl
@[simp] theorem srcError_info (e : Nat) (s : State) : (srcError e s).info = s.info := rfl
@[simp] theorem srcError_src (e : Nat) (s : State) : (srcError e s).src = { s.src with error := some e } := rfl
@[simp] theorem srcError_snk (e : Nat) (s : State) : (srcError e s).snk = s.snk := rfl
@[simp] theorem srcError_ysrc (e : Nat) (s : State) : (srcError e s).ysrc = s.ysrc := rfl
@[simp] theorem srcError_ysnk (e : Nat) (s : State) : (srcError e s).ysnk = s.ysnk := rfl
@[simp] theorem srcError_code (e : Nat) (s : State) : (srcError e s).code = s.code := rfl
@[simp] theorem srcError_token (e : Nat) (s : State) : (srcError e s).token = s.token := rfl
@[simp] theorem srcError_par (e : Nat) (s : State) : (srcError e s).par = s.par := rfl
@[simp] theorem srcError_host (e : Nat) (s : State) : (srcError e s).host = s.host := rfl
@[simp] theorem srcError_answers (e : Nat) (s : State) : (srcError e s).answers = s.answers := rfl
@[simp] theorem srcError_waits (e : Nat) (s : State) : (srcError e s).waits = s.waits := rfl
@[simp] theorem srcError_asked (e : Nat) (s : State) : (srcError e s).asked = s.asked := rfl
@[simp] theorem srcError_trace (e : Nat) (s : State) : (srcError e s).trace = s.trace := rfl
@[simp] theorem srcError_hostLog (e : Nat) (s : State) : (srcError e s).hostLog = s.hostLog := rfl

/-! ### `startReading` -/

@[simp] theorem startReading_tree (p : Phase) (s : State) : (startReading p s).tree = none := rfl
@[simp] theorem startReading_ct (p : Phase) (s : State) : (startReading p s).ct = s.ct := rfl
@[simp] theorem startReading_obuf (p : Phase) (s : State) : (startReading p s).obuf = [] := rfl
@[simp] theorem startReading_cbuf (p : Phase) (s : State) : (startReading p s).cbuf = s.cbuf := rfl
@[simp] theorem startReading_phase (p : Phase) (s : State) : (startReading p s).phase = p := rfl
@[simp] theorem startReading_node (p : Phase) (s : State) : (startReading p s).node = s.node := rfl
@[simp] theorem startReading_rstack (p : Phase) (s : State) : (startReading p s).rstack = [] := rfl
@[simp] theorem startReading_wstack (p : Phase) (s : State) : (startReading p s).wstack = s.wstack := rfl
@[simp] theorem startReading_cmd (p : Phase) (s : State) : (startReading p s).cmd = s.cmd := rfl
@[simp] theorem startReading_status (p : Phase) (s : State) : (startReading p s).status = .busy := rfl
@[simp] theorem startReading_cause (p : Phase) (s : State) : (startReading p s).cause = s.cause := rfl
@[simp] theorem startReading_info (p : Phase) (s : State) : (startReading p s).info = s.info := rfl
@[simp] theorem startReading_src (p : Phase) (s : State) : (startReading p s).src = s.src := rfl
@[simp] theorem startReading_snk (p : Phase) (s : State) : (startReading p s).snk = s.snk := rfl
@[simp] theorem startReading_ysrc (p : Phase) (s : State) : (startReading p s).ysrc = s.ysrc := rfl
@[simp] theorem startReading_ysnk (p : Phase) (s : State) : (startReading p s).ysnk = s.ysnk := rfl
@[simp] theorem startReading_code (p : Phase) (s : State) : (startReading p s).code = s.code := rfl
@[simp] theorem startReading_token (p : Phase) (s : State) : (startReading p s).token = .start := rfl
@[simp] theorem startReading_par (p : Phase) (s : State) : (startReading p s).par = s.par := rfl
@[simp] theorem startReading_host (p : Phase) (s : State) : (startReading p s).host = s.host := rfl
@[simp] theorem startReading_answers (p : Phase) (s : State) : (startReading p s).answers = s.answers := rfl
@[simp] theorem startReading_waits (p : Phase) (s : State) : (startReading p s).waits = s.waits := rfl
@[simp] theorem startReading_asked (p : Phase) (s : State) : (startReading p s).asked = s.asked := rfl
@[simp] theorem startReading_trace (p : Phase) (s : State) : (startReading p s).trace = s.trace := rfl
@[simp] theorem startReading_hostLog (p : Phase) (s : State) : (startReading p s).hostLog = s.hostLog := rfl

/-! ### `tell` -/

@[simp] theorem tell_tree (e : HostEvent) (s : State) : (tell e s).tree = s.tree := rfl
@[simp] theorem tell_ct (e : HostEvent) (s : State) : (tell e s).ct = s.ct := rfl
@[simp] theorem tell_obuf (e : HostEvent) (s : State) : (tell e s).obuf = s.obuf := rfl
@[simp] theorem tell_cbuf (e : HostEvent) (s : State) : (tell e s).cbuf = s.cbuf := rfl
@[simp] theorem tell_phase (e : HostEvent) (s : State) : (tell e s).phase = s.phase := rfl
@[simp] theorem tell_node (e : HostEvent) (s : State) : (tell e s).node = s.node := rfl
@[simp] theorem tell_rstack (e : HostEvent) (s : State) : (tell e s).rstack = s.rstack := rfl
@[simp] theorem tell_wstack (e : HostEvent) (s : State) : (tell e s).wstack = s.wstack := rfl
@[simp] theorem tell_cmd (e : HostEvent) (s : State) : (tell e s).cmd = s.cmd := rfl
@[simp] theorem tell_status (e : HostEvent) (s : State) : (tell e s).status = s.status := rfl
@[simp] theorem tell_cause (e : HostEvent) (s : State) : (tell e s).cause = s.cause := rfl
@[simp] theorem tell_info (e : HostEvent) (s : State) : (tell e s).info = s.info := rfl
@[simp] theorem tell_src (e : HostEvent) (s : State) : (tell e s).src = s.src := rfl
@[simp] theorem tell_snk (e : HostEvent) (s : State) : (tell e s).snk = s.snk := rfl
@[simp] theorem tell_ysrc (e : HostEvent) (s : State) : (tell e s).ysrc = s.ysrc := rfl
@[simp] theorem tell_ysnk (e : HostEvent) (s : State) : (tell e s).ysnk = s.ysnk := rfl
@[simp] theorem tell_code (e : HostEvent) (s : State) : (tell e s).code = s.code := rfl
@[simp] theorem tell_token (e : HostEvent) (s : State) : (tell e s).token = s.token := rfl
@[simp] theorem tell_par (e : HostEvent) (s : State) : (tell e s).par = s.par := rfl
@[simp] theorem tell_host (e : HostEvent) (s : State) : (tell e s).host = s.host := rfl
@[simp] theorem tell_answers (e : HostEvent) (s : State) : (tell e s).answers = s.answers := rfl
@[simp] theorem tell_waits (e : HostEvent) (s : State) : (tell e s).waits = s.waits := rfl
@[simp] theorem tell_asked (e : HostEvent) (s : State) : (tell e s).asked = s.asked := rfl
@[simp] theorem tell_trace (e : HostEvent) (s : State) : (tell e s).trace = s.trace := rfl
@[simp] theorem tell_hostLog (e : HostEvent) (s : State) : (tell e s).hostLog = s.hostLog ++ [e] := rfl

end Sys2Proof.Machine
end

