-- ==== Sys2Proof/Laws/Ops.lean ====
section
/-! SUPPORT. For each shared operation, once, everything it can do. -/

namespace Sys2Proof.Machine

/-! ## The outcomes of a transaction -/

theorem transaction_ok {α : Type} {d : Device} {c : Call} {onError : Nat → Nat → State → State}
    {onOk : Nat → State → Tx α} {s : State} {choice : Nat} (h : answer s = .ok choice) :
    transaction d c onError onOk s = onOk choice s := by
  simp [transaction, h]

theorem transaction_error {α : Type} {d : Device} {c : Call} {onError : Nat → Nat → State → State}
    {onOk : Nat → State → Tx α} {s : State} {e choice : Nat} (h : answer s = .error e choice) :
    transaction d c onError onOk s =
      .ended (raise .io d.number (onError e choice (record c (.deviceError e) s))) := by
  simp [transaction, h]

theorem transaction_reset {α : Type} {d : Device} {c : Call} {onError : Nat → Nat → State → State}
    {onOk : Nat → State → Tx α} {s : State} (h : answer s = .reset) :
    transaction d c onError onOk s = .ended (applyReset { s with answers := s.answers.tail }) := by
  simp [transaction, h]

theorem answer_cases (s : State) :
    (∃ choice, answer s = .ok choice) ∨ (∃ e choice, answer s = .error e choice) ∨ answer s = .reset := by
  cases h : answer s with
  | ok c => exact .inl ⟨c, rfl⟩
  | error e c => exact .inr (.inl ⟨e, c, rfl⟩)
  | reset => exact .inr (.inr rfl)

/-- A transaction the host resets away: nothing of it happens (R250). -/
abbrev abandoned (s : State) : State := applyReset { s with answers := s.answers.tail }

/-! ## Each primitive -/

theorem readBit_ok_some {s : State} {choice : Nat} {b : Bit} {r : List Bit} (info : BitVec 9)
    (h : answer s = .ok choice) (hb : s.src.left = b :: r) :
    readBit info s = .done b { record .readBit (.bit b) s with src := { s.src with pos := s.src.pos + 1 } } := by
  simp [readBit, transaction_ok h, hb]

theorem readBit_ok_none {s : State} {choice : Nat} (info : BitVec 9)
    (h : answer s = .ok choice) (hb : s.src.left = []) :
    readBit info s = .ended (raise .streamExhausted info (record .readBit .endOfStream s)) := by
  simp [readBit, transaction_ok h, hb]

/-- Everything `ReadBit` can do. -/
theorem readBit_cases (info : BitVec 9) (s : State) :
    (∃ choice b r, answer s = .ok choice ∧ s.src.left = b :: r ∧ readBit info s =
      .done b { record .readBit (.bit b) s with src := { s.src with pos := s.src.pos + 1 } }) ∨
    (∃ choice, answer s = .ok choice ∧ s.src.left = [] ∧
      readBit info s = .ended (raise .streamExhausted info (record .readBit .endOfStream s))) ∨
    (∃ e choice, answer s = .error e choice ∧
      readBit info s = .ended (raise .io 0 (srcError e (record .readBit (.deviceError e) s)))) ∨
    (answer s = .reset ∧ readBit info s = .ended (abandoned s)) := by
  rcases answer_cases s with ⟨c, h⟩ | ⟨e, c, h⟩ | h
  · cases hb : s.src.left with
    | nil => exact .inr (.inl ⟨c, h, rfl, readBit_ok_none info h hb⟩)
    | cons b r => exact .inl ⟨c, b, r, h, rfl, readBit_ok_some info h hb⟩
  · exact .inr (.inr (.inl ⟨e, c, h, by simp [readBit, transaction_error h, Device.number]⟩))
  · exact .inr (.inr (.inr ⟨h, by simp [readBit, transaction_reset h]⟩))

/-- Everything `ReadBits(8)` can do. -/
theorem readBits8_cases (info : BitVec 9) (s : State) :
    (∃ choice, answer s = .ok choice ∧ 8 ≤ s.src.left.length ∧ readBits8 info s =
      .done (byteOf (s.src.left.take 8))
        { record .readBits8 (.byte (byteOf (s.src.left.take 8))) s with
          src := { s.src with pos := s.src.pos + 8 } }) ∨
    (∃ choice, answer s = .ok choice ∧ s.src.left.length < 8 ∧ readBits8 info s =
      .ended (raise .streamExhausted info
        { record .readBits8 .endOfStream s with src := s.src.afterFailure choice })) ∨
    (∃ e choice, answer s = .error e choice ∧ readBits8 info s =
      .ended (raise .io 0
        (srcError e { record .readBits8 (.deviceError e) s with src := s.src.afterFailure choice }))) ∨
    (answer s = .reset ∧ readBits8 info s = .ended (abandoned s)) := by
  rcases answer_cases s with ⟨c, h⟩ | ⟨e, c, h⟩ | h
  · by_cases hl : s.src.left.length < 8
    · exact .inr (.inl ⟨c, h, hl, by simp [readBits8, transaction_ok h, hl]⟩)
    · exact .inl ⟨c, h, by omega, by simp [readBits8, transaction_ok h, hl]⟩
  · exact .inr (.inr (.inl ⟨e, c, h, by simp [readBits8, transaction_error h, Device.number]⟩))
  · exact .inr (.inr (.inr ⟨h, by simp [readBits8, transaction_reset h]⟩))

/-- Everything a transaction on `BITSNK` can do. -/
theorem sinkTransaction_cases (c : Call) (after : Nat → BitSink → BitSink) (s : State) :
    (∃ choice, answer s = .ok choice ∧
      sinkTransaction c after s = .done () { record c .done s with snk := after choice s.snk }) ∨
    (∃ e choice, answer s = .error e choice ∧ sinkTransaction c after s =
      .ended (raise .io 1 { record c (.deviceError e) s with snk := { s.snk with error := some e } })) ∨
    (answer s = .reset ∧ sinkTransaction c after s = .ended (abandoned s)) := by
  rcases answer_cases s with ⟨c, h⟩ | ⟨e, c, h⟩ | h
  · exact .inl ⟨c, h, by simp [sinkTransaction, transaction_ok h]⟩
  · exact .inr (.inl ⟨e, c, h, by simp [sinkTransaction, transaction_error h, Device.number]⟩)
  · exact .inr (.inr ⟨h, by simp [sinkTransaction, transaction_reset h]⟩)

/-- Everything `ReadBytes` can do. -/
theorem readBytes_cases (max : Nat) (s : State) :
    (∃ choice, answer s = .ok choice ∧ readBytes max s =
      .done (s.ysrc.chunk max choice)
        { record (.readBytes max) (.bytes (s.ysrc.chunk max choice)) s with
          ysrc := { s.ysrc with pos := s.ysrc.pos + (s.ysrc.chunk max choice).length } }) ∨
    (∃ e choice, answer s = .error e choice ∧ readBytes max s =
      .ended (raise .io 2
        { record (.readBytes max) (.deviceError e) s with ysrc := { s.ysrc with error := some e } })) ∨
    (answer s = .reset ∧ readBytes max s = .ended (abandoned s)) := by
  rcases answer_cases s with ⟨c, h⟩ | ⟨e, c, h⟩ | h
  · exact .inl ⟨c, h, by simp [readBytes, transaction_ok h]⟩
  · exact .inr (.inl ⟨e, c, h, by simp [readBytes, transaction_error h, Device.number]⟩)
  · exact .inr (.inr ⟨h, by simp [readBytes, transaction_reset h]⟩)

/-- Everything `WriteBytes` can do. -/
theorem writeBytes_cases (seq : List Byte) (s : State) :
    (∃ choice, answer s = .ok choice ∧ writeBytes seq s =
      .done () { record (.writeBytes seq) .done s with ysnk := { s.ysnk with data := s.ysnk.data ++ seq } }) ∨
    (∃ e choice, answer s = .error e choice ∧ writeBytes seq s =
      .ended (raise .io 3
        { record (.writeBytes seq) (.deviceError e) s with ysnk := { s.ysnk with error := some e } })) ∨
    (answer s = .reset ∧ writeBytes seq s = .ended (abandoned s)) := by
  rcases answer_cases s with ⟨c, h⟩ | ⟨e, c, h⟩ | h
  · exact .inl ⟨c, h, by simp [writeBytes, transaction_ok h]⟩
  · exact .inr (.inl ⟨e, c, h, by simp [writeBytes, transaction_error h, Device.number]⟩)
  · exact .inr (.inr ⟨h, by simp [writeBytes, transaction_reset h]⟩)

/-! ## Values -/

/-- A choice between bounds stays between them. -/
theorem pickBetween_bounds {lo hi : Nat} (choice : Nat) (h : lo ≤ hi) :
    lo ≤ pickBetween lo hi choice ∧ pickBetween lo hi choice ≤ hi := by
  unfold pickBetween
  split
  · omega
  · have := Nat.mod_lt choice (show 0 < hi - lo + 1 by omega)
    omega

/-- Every value between the bounds is some device's choice. -/
theorem pickBetween_onto {lo hi v : Nat} (h₁ : lo ≤ v) (h₂ : v ≤ hi) : ∃ choice, pickBetween lo hi choice = v := by
  refine ⟨v - lo, ?_⟩
  unfold pickBetween
  split
  · omega
  · rw [Nat.mod_eq_of_lt (by omega)]
    omega

/-- The count of a read is 0 exactly when nothing remains, and never more than was asked for or remains. -/
theorem readCount_bounds {max : Nat} (rem choice : Nat) (h : 1 ≤ max) :
    readCount max rem choice ≤ min max rem ∧ (readCount max rem choice = 0 ↔ rem = 0) := by
  unfold readCount
  split
  · simp [*]
  · have := pickBetween_bounds choice (show 1 ≤ min max rem by omega)
    omega

/-! ## Starting and running a command -/

@[simp] theorem startWriting_none {p : Phase} {s : State} (h : s.tree = none) :
    startWriting p s = raise .noTree 0 s := by
  simp [startWriting, h]

@[simp] theorem startWriting_some {p : Phase} {s : State} {t : Tree} (h : s.tree = some t) :
    startWriting p s =
      { s with
        status := .busy, phase := p, wstack := [{ sub := t, depth := 0 }], cbuf := [], code := none,
        token := .start } := by
  simp [startWriting, h]

/-- Everything a command handed to `exec` can do. -/
theorem command_cases (i : Instr) (start resume : State → Result) (s : State) :
    (s.status = .ready ∧ command i start resume s = start s) ∨
    (s.status = .faulted ∧ command i start resume s = .next s) ∨
    (s.status = .busy ∧ s.phase.command = some i ∧ command i start resume s = resume s) ∨
    (s.status = .busy ∧ s.phase.command ≠ some i ∧ command i start resume s = .refused .issueWhileBusy) := by
  cases h : s.status
  · exact .inl ⟨rfl, by simp [command, h]⟩
  · by_cases hp : s.phase.command = some i
    · exact .inr (.inr (.inl ⟨rfl, hp, by simp [command, h, hp]⟩))
    · exact .inr (.inr (.inr ⟨rfl, hp, by simp [command, h, hp]⟩))
  · exact .inr (.inl ⟨rfl, by simp [command, h]⟩)

/-- Closing the Branches that a completed subtree completes (R128). -/
def closeBranches (t : Tree) (ls : List Tree) : Tree := ls.foldl (fun t l => .branch l t) t

/-- Handing a subtree up closes every Branch whose right subtree it completes. -/
theorem handUp_closes (s : State) (ls : List Tree) (t : Tree) (r : List RFrame) :
    handUp s t (ls.map RFrame.needRight ++ r) = handUp s (closeBranches t ls) r := by
  induction ls generalizing t with
  | nil => rfl
  | cons l ls ih => simpa [handUp, closeBranches] using ih (.branch l t)

/-- The reader's stack is some closed-over right parts, then nothing or an open left part. -/
theorem rstack_shape (r : List RFrame) :
    ∃ ls : List Tree, r = ls.map RFrame.needRight ∨ ∃ r', r = ls.map RFrame.needRight ++ .needLeft :: r' := by
  induction r with
  | nil => exact ⟨[], .inl rfl⟩
  | cons f r ih =>
    cases f with
    | needLeft => exact ⟨[], .inr ⟨r, rfl⟩⟩
    | needRight l =>
      obtain ⟨ls, h | ⟨r', h⟩⟩ := ih
      · exact ⟨l :: ls, .inl (by simp [h])⟩
      · exact ⟨l :: ls, .inr ⟨r', by simp [h]⟩⟩

/-! ## The turn of a step -/

/-- A step is what its turn says. -/
theorem step_of_run {s s' : State} {i : Instr} (h : turn s = .run i s') : step s = exec i s' := by
  simp [step, h]

theorem step_of_go {s s' : State} (h : turn s = .go s') : step s = .next s' := by
  simp [step, h]

/-- Everything CORE's own turn can do. -/
theorem coreTurn_cases (s : State) :
    coreTurn s = .go s ∨
    (∃ i, s.status = .busy ∧ s.phase.command = some i ∧ coreTurn s = .run i s) ∨
    (∃ i w, s.status = .busy ∧ s.phase.command = some i ∧ transacts s = true ∧ s.waits = some 0 :: w ∧
      coreTurn s = .run i { s with waits := w }) ∨
    (∃ n w, s.status = .busy ∧ s.waits = some (n + 1) :: w ∧ coreTurn s = .go { s with waits := some n :: w }) := by
  cases hs : s.status
  · exact .inl (by simp [coreTurn, hs])
  · cases hc : s.phase.command with
    | none => exact .inl (by simp [coreTurn, hs, hc])
    | some i =>
      by_cases ht : transacts s = true
      · cases hw : s.waits with
        | nil => exact .inr (.inl ⟨i, rfl, rfl, by simp [coreTurn, hs, hc, hw]⟩)
        | cons a w =>
          cases a with
          | none => exact .inl (by simp [coreTurn, hs, hc, hw, ht])
          | some n =>
            cases n with
            | zero => exact .inr (.inr (.inl ⟨i, w, rfl, rfl, ht, rfl, by simp [coreTurn, hs, hc, hw, ht]⟩))
            | succ n => exact .inr (.inr (.inr ⟨n, w, rfl, rfl, by simp [coreTurn, hs, hc, hw, ht]⟩))
      · exact .inr (.inl ⟨i, rfl, rfl, by simp [coreTurn, hs, hc, ht]⟩)
  · exact .inl (by simp [coreTurn, hs])

end Sys2Proof.Machine
end

