-- ==== Sys2Proof/Laws/PerInstr.lean ====
section
/-! SUPPORT. The families of statements made per instruction: one lemma for each constructor of `Instr`. -/

namespace Sys2Proof.Laws

/-- The width of an instruction's encoding in spec/opcode_table.json (R91 to R93, R103). -/
def tableWidth : Instr → Nat
  | .branch => 1
  | .leaf _ => 10
  | .endLeaf => 2
  | .readTree => 2
  | .writeTree => 2
  | .decompress => 2
  | .compress => 2

/-- An instruction is well-formed, its encoding has the table's width, and whatever follows it, the decoder reads it back
and leaves what follows (R91 to R93, R95, R102). -/
def EncodingWidth.Statement (i : Instr) : Prop :=
  i.wf = true ∧ (encode i).width = tableWidth i ∧
  ∀ rest, decode ((encode i).followedBy rest) =
    .ok (i, match encode i with | .cmd _ => [] | .token _ => rest)

theorem EncodingWidth.branch : EncodingWidth.Statement .branch := ⟨rfl, rfl, fun _ => rfl⟩

theorem byteOf_bits8 (v : Byte) : byteOf (bits8 v) = v := by
  revert v
  decide

theorem EncodingWidth.leaf (v : Byte) : EncodingWidth.Statement (.leaf v) := by
  refine ⟨rfl, rfl, fun rest => ?_⟩
  have h := byteOf_bits8 v
  simp [bits8] at h
  simp [encode, Encoding.followedBy, tokenBits, decode, decodeToken, bits8, h]

theorem EncodingWidth.endLeaf : EncodingWidth.Statement .endLeaf := ⟨rfl, rfl, fun _ => rfl⟩

theorem EncodingWidth.readTree : EncodingWidth.Statement .readTree := ⟨rfl, rfl, fun _ => rfl⟩

theorem EncodingWidth.writeTree : EncodingWidth.Statement .writeTree := ⟨rfl, rfl, fun _ => rfl⟩

theorem EncodingWidth.decompress : EncodingWidth.Statement .decompress := ⟨rfl, rfl, fun _ => rfl⟩

theorem EncodingWidth.compress : EncodingWidth.Statement .compress := ⟨rfl, rfl, fun _ => rfl⟩

end Sys2Proof.Laws
end

