-- ==== Sys2Proof/Laws/Step.lean ====
section
/-! SUPPORT. Runs of the machine: composing steps, and what a step of an undisturbed command is. -/

namespace Sys2Proof.Machine

@[simp] theorem runSteps_zero (s : State) : runSteps 0 s = .next s := rfl

theorem runSteps_succ {s t : State} (k : Nat) (h : step s = .next t) : runSteps (k + 1) s = runSteps k t := by
  have h' : Sys2Proof.core.step s = .next t := h
  refine (Host.Core.run.eq_2 Sys2Proof.core s k).trans ?_
  rw [h']
  rfl

theorem runSteps_add {s t : State} {j : Nat} (k : Nat) (h : runSteps j s = .next t) :
    runSteps (j + k) s = runSteps k t := by
  induction j generalizing s with
  | zero => cases h; simp
  | succ j ih =>
    cases hs : step s with
    | next s' => rw [Nat.add_right_comm, runSteps_succ _ hs]; exact ih (by rwa [runSteps_succ _ hs] at h)
    | fault r =>
      have hs' : Sys2Proof.core.step s = .fault r := hs
      have h' := (Host.Core.run.eq_2 Sys2Proof.core s j).symm.trans h
      rw [hs'] at h'
      cases h'
    | refused r =>
      have hs' : Sys2Proof.core.step s = .refused r := hs
      have h' := (Host.Core.run.eq_2 Sys2Proof.core s j).symm.trans h
      rw [hs'] at h'
      cases h'

theorem Reaches.here {s : State} {P : State → Prop} (h : P s) : Reaches s P := ⟨0, s, rfl, h⟩

theorem Reaches.step {s t : State} {P : State → Prop} (h : Machine.step s = .next t) (r : Reaches t P) :
    Reaches s P := by
  obtain ⟨k, u, hk, hu⟩ := r
  exact ⟨k + 1, u, by rw [runSteps_succ k h]; exact hk, hu⟩

theorem Reaches.trans {s : State} {P Q : State → Prop} (h : Reaches s P) (hq : ∀ t, P t → Reaches t Q) :
    Reaches s Q := by
  obtain ⟨j, t, hj, ht⟩ := h
  obtain ⟨k, u, hk, hu⟩ := hq t ht
  exact ⟨j + k, u, by rw [runSteps_add k hj]; exact hk, hu⟩

theorem Reaches.mono {s : State} {P Q : State → Prop} (h : Reaches s P) (hq : ∀ t, P t → Q t) : Reaches s Q := by
  obtain ⟨k, t, hk, ht⟩ := h
  exact ⟨k, t, hk, hq t ht⟩

/-- While nobody else acts, a step of a running command is that command's. -/
theorem step_alone {s : State} {i : Instr} (ha : Alone s) (hs : s.status = .busy) (hc : s.phase.command = some i) :
    step s = exec i s := by
  obtain ⟨hh, hw⟩ := ha
  have : turn s = .run i s := by simp [turn, hh, coreTurn, hs, hc, hw]
  exact step_of_run this

/-- An undisturbed transaction is answered plainly. -/
theorem Undisturbed.answered {s : State} (h : Undisturbed s) : ∃ choice, answer s = .ok choice := by
  unfold answer
  cases ha : s.answers with
  | nil => exact ⟨_, rfl⟩
  | cons a as => exact h a (by simp [ha])

/-- And the rest of the answers are plain too. -/
theorem Undisturbed.tail {s t : State} (h : Undisturbed s) (ht : t.answers = s.answers.tail) : Undisturbed t := by
  intro a ha
  rw [ht] at ha
  exact h a (List.mem_of_mem_tail ha)

theorem Undisturbed.drop {s t : State} (n : Nat) (h : Undisturbed s) (ht : t.answers = s.answers.drop n) :
    Undisturbed t := by
  intro a ha
  rw [ht] at ha
  exact h a (List.mem_of_mem_drop ha)

end Sys2Proof.Machine
end

