-- ==== Sys2Proof/Laws/Tokens.lean ====
section
/-! SUPPORT. What reading and writing one token can do, whatever the devices answer. -/

namespace Sys2Proof.Machine

/-- `u` is `s` after some reads of `BITSRC`: nothing but the cursor, the error indication and the record of transactions
differs, and the cursor only moved forward (R27, R64). -/
structure SrcMoved (s u : State) : Prop where
  frame : u = { s with src := u.src, answers := u.answers, asked := u.asked, trace := u.trace }
  data : u.src.data = s.src.data
  forward : s.src.pos ≤ u.src.pos
  in_range : s.src.pos ≤ s.src.data.length → u.src.pos ≤ u.src.data.length
  recorded : s.trace <+: u.trace

/-- `u` is `s` after some writes to `BITSNK`: the sink's bits grew at their end, and its counters still count them. -/
structure SnkMoved (s u : State) : Prop where
  frame : u = { s with snk := u.snk, answers := u.answers, asked := u.asked, trace := u.trace }
  grown : s.snk.bits <+: u.snk.bits
  counted : s.snk.off.toNat = s.snk.bits.length % 8 → u.snk.off.toNat = u.snk.bits.length % 8
  whole : s.snk.delivered ≤ s.snk.bits.length / 8 → u.snk.delivered ≤ u.snk.bits.length / 8
  recorded : s.trace <+: u.trace

theorem SrcMoved.refl (s : State) : SrcMoved s s := ⟨rfl, rfl, le_refl _, id, List.prefix_refl _⟩

theorem SrcMoved.trans {s u v : State} (h : SrcMoved s u) (k : SrcMoved u v) : SrcMoved s v where
  frame := by rw [k.frame, h.frame]
  data := k.data.trans h.data
  forward := h.forward.trans k.forward
  in_range := fun p => k.in_range (h.in_range p)
  recorded := h.recorded.trans k.recorded

theorem SnkMoved.refl (s : State) : SnkMoved s s := ⟨rfl, List.prefix_refl _, id, id, List.prefix_refl _⟩

theorem SnkMoved.trans {s u v : State} (h : SnkMoved s u) (k : SnkMoved u v) : SnkMoved s v where
  frame := by rw [k.frame, h.frame]
  grown := h.grown.trans k.grown
  counted := fun p => k.counted (h.counted p)
  whole := fun p => k.whole (h.whole p)
  recorded := h.recorded.trans k.recorded

/-- A command that ended in a transaction of device `d` faulted by it, or was reset, in a state `u`. -/
def EndedAs (allowed : FaultCause → Prop) (u t : State) : Prop :=
  (∃ f i, allowed f ∧ t = raise f i u) ∨ t = applyReset u

theorem left_length (d : BitSource) : d.left.length = d.data.length - d.pos := by
  simp [BitSource.left]

/-- After a `ReadBit`. -/
theorem readBit_moves (info : BitVec 9) (s : State) :
    (∃ b u, readBit info s = .done b u ∧ SrcMoved s u) ∨
    (∃ t u, readBit info s = .ended t ∧ SrcMoved s u ∧
      EndedAs (fun f => f = .streamExhausted ∨ f = .io) u t) := by
  have hlen := left_length s.src
  rcases readBit_cases info s with ⟨c, b, r, ha, hl, h⟩ | ⟨c, ha, hl, h⟩ | ⟨e, c, ha, h⟩ | ⟨ha, h⟩
  · refine .inl ⟨_, _, h, rfl, rfl, by simp, fun _ => ?_, by simp⟩
    simp [hl] at hlen ⊢
    omega
  · refine .inr ⟨_, _, h, ?_, .inl ⟨.streamExhausted, _, .inl rfl, rfl⟩⟩
    exact ⟨rfl, rfl, by simp, by simp, by simp⟩
  · refine .inr ⟨_, _, h, ?_, .inl ⟨.io, _, .inr rfl, rfl⟩⟩
    exact ⟨rfl, rfl, by simp, by simp, by simp⟩
  · exact .inr ⟨_, { s with answers := s.answers.tail }, h, ⟨rfl, rfl, by simp, by simp, by simp⟩, .inr rfl⟩

/-- The cursor after a failed `ReadBits(8)` is in range. -/
theorem afterFailure_bounds (d : BitSource) (choice : Nat) :
    d.pos ≤ (d.afterFailure choice).pos ∧ (d.pos ≤ d.data.length → (d.afterFailure choice).pos ≤ d.data.length) := by
  refine ⟨?_, fun h => (pickBetween_bounds _ h).2⟩
  unfold BitSource.afterFailure pickBetween
  simp only
  split <;> omega

/-- After a `ReadBits(8)`. -/
theorem readBits8_moves (info : BitVec 9) (s : State) :
    (∃ v u, readBits8 info s = .done v u ∧ SrcMoved s u) ∨
    (∃ t u, readBits8 info s = .ended t ∧ SrcMoved s u ∧
      EndedAs (fun f => f = .streamExhausted ∨ f = .io) u t) := by
  have hlen := left_length s.src
  rcases readBits8_cases info s with ⟨c, ha, hl, h⟩ | ⟨c, ha, hl, h⟩ | ⟨e, c, ha, h⟩ | ⟨ha, h⟩
  · refine .inl ⟨_, _, h, rfl, rfl, by simp, fun _ => ?_, by simp⟩
    simp at hlen ⊢
    omega
  · refine .inr ⟨_, _, h, ?_, .inl ⟨.streamExhausted, _, .inl rfl, rfl⟩⟩
    exact ⟨rfl, rfl, (afterFailure_bounds _ c).1, (afterFailure_bounds _ c).2, by simp⟩
  · refine .inr ⟨_, _, h, ?_, .inl ⟨.io, _, .inr rfl, rfl⟩⟩
    exact ⟨rfl, rfl, (afterFailure_bounds _ c).1, (afterFailure_bounds _ c).2, by simp⟩
  · exact .inr ⟨_, { s with answers := s.answers.tail }, h, ⟨rfl, rfl, by simp, by simp, by simp⟩, .inr rfl⟩

/-- What one transaction of a token's reading may give, by how far the token has come. -/
def Fetched.follows (f : Fetched) : TokenPart → Prop
  | .start => f = .more .zero ∨ f = .token .branch
  | .zero => f = .more .zeroOne ∨ f = .token .endLeaf
  | .zeroOne => ∃ v, f = .token (.leaf v)

/-- Everything a transaction of a token's reading can do: the next part of the token, after one read; or the end of the
command. -/
theorem fetchToken_moves (s : State) :
    (∃ f u, fetchToken s = .done f u ∧ f.follows s.token ∧ SrcMoved s u) ∨
    (∃ t u, fetchToken s = .ended t ∧ SrcMoved s u ∧
      EndedAs (fun f => f = .streamExhausted ∨ f = .io) u t) := by
  cases hp : s.token with
  | start =>
    rcases readBit_moves 0 s with ⟨b, u, h, m⟩ | ⟨t, u, h, m, e⟩
    · refine .inl ⟨_, u, by simp only [fetchToken, hp, h]; rfl, ?_, m⟩
      cases b <;> simp [Fetched.follows]
    · exact .inr ⟨t, u, by simp only [fetchToken, hp, h], m, e⟩
  | zero =>
    rcases readBit_moves 0 s with ⟨b, u, h, m⟩ | ⟨t, u, h, m, e⟩
    · refine .inl ⟨_, u, by simp only [fetchToken, hp, h]; rfl, ?_, m⟩
      cases b <;> simp [Fetched.follows]
    · exact .inr ⟨t, u, by simp only [fetchToken, hp, h], m, e⟩
  | zeroOne =>
    rcases readBits8_moves 0 s with ⟨v, u, h, m⟩ | ⟨t, u, h, m, e⟩
    · exact .inl ⟨_, u, by simp only [fetchToken, hp, h], ⟨v, rfl⟩, m⟩
    · exact .inr ⟨t, u, by simp only [fetchToken, hp, h], m, e⟩

/-- `OFF` counts the bits modulo 8. -/
theorem offAfter_toNat (off : BitVec 3) (n : Nat) : (offAfter off n).toNat = (off.toNat + n) % 8 := by
  simp [offAfter, BitVec.toNat_add]

/-- A sink that accepts bits. -/
theorem accept_counts (d : BitSink) (bs : List Bit) (choice : Nat) :
    d.bits <+: (d.accept bs choice).bits ∧
    (d.off.toNat = d.bits.length % 8 → (d.accept bs choice).off.toNat = (d.accept bs choice).bits.length % 8) ∧
    (d.delivered ≤ d.bits.length / 8 → (d.accept bs choice).delivered ≤ (d.accept bs choice).bits.length / 8) := by
  refine ⟨⟨bs, rfl⟩, fun h => ?_, fun h => ?_⟩
  · simp [BitSink.accept, offAfter_toNat, h]
  · simp only [BitSink.accept, List.length_append]
    exact (pickBetween_bounds _ (by omega)).2

/-- A sink that is flushed. -/
theorem flushed_counts (d : BitSink) (h : d.off.toNat = d.bits.length % 8) :
    d.bits <+: d.flushed.bits ∧ d.flushed.off.toNat = d.flushed.bits.length % 8 ∧
    d.flushed.delivered ≤ d.flushed.bits.length / 8 := by
  have := d.off.isLt
  refine ⟨⟨_, rfl⟩, ?_, ?_⟩
  · simp [BitSink.flushed, pad]
    omega
  · simp [BitSink.flushed]

/-- After a write to the sink. -/
theorem accept_moves (c : Call) (bs : List Bit) (s : State) :
    (∃ u, sinkTransaction c (fun choice d => d.accept bs choice) s = .done () u ∧ SnkMoved s u) ∨
    (∃ t u, sinkTransaction c (fun choice d => d.accept bs choice) s = .ended t ∧ SnkMoved s u ∧
      u.snk.bits = s.snk.bits ∧ EndedAs (fun f => f = .io) u t) := by
  rcases sinkTransaction_cases c (fun choice d => d.accept bs choice) s with ⟨ch, ha, h⟩ | ⟨e, ch, ha, h⟩ | ⟨ha, h⟩
  · obtain ⟨h1, h2, h3⟩ := accept_counts s.snk bs ch
    exact .inl ⟨_, h, rfl, h1, h2, h3, by simp⟩
  · refine .inr ⟨_, _, h, ?_, ?_, .inl ⟨.io, _, rfl, rfl⟩⟩
    · exact ⟨rfl, by simp, by simp, by simp, by simp⟩
    · rfl
  · exact .inr ⟨_, { s with answers := s.answers.tail }, h, ⟨rfl, by simp, by simp, by simp, by simp⟩, rfl, .inr rfl⟩

/-! ## A step of the reader and of the writer -/

/-- Everything a step of the reader can do (R128): one read, which brings the token under way further, or completes a
token, which takes effect, or ends the command. -/
theorem readOneToken_cases {s : State} (hp : s.phase.reads = true) :
    ∃ t u, readOneToken s = .next t ∧ SrcMoved s u ∧
      ((∃ p, t = { u with token := p }) ∨ t = readBranch { u with token := .start } ∨
        (∃ tr, (tr = .endLeaf ∨ ∃ v, tr = .leaf v) ∧ t = handUp { u with token := .start } tr u.rstack) ∨
        EndedAs (fun f => f = .streamExhausted ∨ f = .io) u t) := by
  unfold readOneToken
  rcases fetchToken_moves s with ⟨f, u, h, hf, m⟩ | ⟨t, u, h, m, e⟩
  · have hu : u.phase.reads = true := by rw [m.frame]; exact hp
    rw [h]
    cases hp : s.token <;> rw [hp] at hf <;> simp only [Fetched.follows] at hf
    · rcases hf with rfl | rfl
      · exact ⟨_, u, rfl, m, .inl ⟨_, rfl⟩⟩
      · exact ⟨_, u, by simp [Tx.andThen, execToken, execBranch, hu], m, .inr (.inl rfl)⟩
    · rcases hf with rfl | rfl
      · exact ⟨_, u, rfl, m, .inl ⟨_, rfl⟩⟩
      · exact ⟨_, u, by simp [Tx.andThen, execToken, execEndLeaf, hu], m, .inr (.inr (.inl ⟨_, .inl rfl, rfl⟩))⟩
    · obtain ⟨v, rfl⟩ := hf
      exact ⟨_, u, by simp [Tx.andThen, execToken, execLeaf, hu], m, .inr (.inr (.inl ⟨_, .inr ⟨v, rfl⟩, rfl⟩))⟩
  · rw [h]
    exact ⟨t, u, rfl, m, .inr (.inr (.inr e))⟩

/-- A discriminant bit of a token goes out, or the command ends with what was written before. -/
theorem writePart_moves (b : Bit) (p : TokenPart) (s : State) :
    ∃ t u, writePart b p s = .next t ∧ SnkMoved s u ∧
      (t = { u with token := p } ∨ EndedAs (fun f => f = .io) u t) := by
  rcases accept_moves (.writeBit b) [b] s with ⟨u, h, m⟩ | ⟨t, u, h, m, -, e⟩
  · exact ⟨_, u, by simp [writePart, writeBit, h, Tx.andThen], m, .inl rfl⟩
  · exact ⟨t, u, by simp [writePart, writeBit, h, Tx.andThen], m, .inr e⟩

/-- Everything a step of the writer can do (R145): one transaction, which brings the token of the next subtree further or
completes it, or a Branch beyond `MAX_DEPTH`, or the end of the command by its device. -/
theorem writeOneToken_cases {s : State} {f : WFrame} {w : List WFrame} (hp : s.phase.writes = true)
    (hw : s.wstack = f :: w) :
    ∃ t u, writeOneToken s = .next t ∧ SnkMoved s u ∧
      ((∃ p, t = { u with token := p } ∧
          ((s.token = .start ∧ p = .zero ∧ ∀ l r, f.sub ≠ .branch l r) ∨
            (s.token = .zero ∧ p = .zeroOne ∧ ∃ v, f.sub = .leaf v))) ∨
        t = emitted (match f.sub with
          | .branch l r => { sub := l, depth := f.depth + 1 } :: { sub := r, depth := f.depth + 1 } :: w
          | .leaf _ => w
          | .endLeaf => w) u ∨
        EndedAs (fun c => c = .io ∨ c = .resource) u t) := by
  have hr : s.phase.reads = false := by
    cases h : s.phase <;> simp_all [Phase.reads, Phase.writes]
  have weaken : ∀ {u t}, EndedAs (fun c => c = FaultCause.io) u t →
      EndedAs (fun c => c = .io ∨ c = .resource) u t := by
    rintro u t (⟨f, i, h, k⟩ | h)
    · exact .inl ⟨f, i, .inl h, k⟩
    · exact .inr h
  obtain ⟨sub, d⟩ := f
  cases sub with
  | branch l r =>
    by_cases hd : withinLimit s.par.maxDepth (d + 1) = true
    · rcases accept_moves (.writeBit true) [true] s with ⟨u, h, m⟩ | ⟨t, u, h, m, -, e⟩
      · refine ⟨_, u, ?_, m, .inr (.inl rfl)⟩
        simp [writeOneToken, hw, tokenOf, execToken, execBranch, hr, hp, writeBranch, hd, writeBit, h, Tx.andThen]
      · refine ⟨t, u, ?_, m, .inr (.inr (weaken e))⟩
        simp [writeOneToken, hw, tokenOf, execToken, execBranch, hr, hp, writeBranch, hd, writeBit, h, Tx.andThen]
    · refine ⟨raise .resource 0 s, s, ?_, SnkMoved.refl s, .inr (.inr (.inl ⟨_, _, .inr rfl, rfl⟩))⟩
      simp [writeOneToken, hw, tokenOf, execToken, execBranch, hr, hp, writeBranch, hd]
  | leaf v =>
    have body : writeOneToken s = writeLeaf v s := by
      simp [writeOneToken, hw, tokenOf, execToken, execLeaf, hr, hp]
    rw [body]
    cases hk : s.token with
    | start =>
      obtain ⟨t, u, h, m, k | e⟩ := writePart_moves false .zero s
      · exact ⟨t, u, by simp [writeLeaf, hw, hk, h], m, .inl ⟨_, k, by simp⟩⟩
      · exact ⟨t, u, by simp [writeLeaf, hw, hk, h], m, .inr (.inr (weaken e))⟩
    | zero =>
      obtain ⟨t, u, h, m, k | e⟩ := writePart_moves true .zeroOne s
      · exact ⟨t, u, by simp [writeLeaf, hw, hk, h], m, .inl ⟨_, k, by simp⟩⟩
      · exact ⟨t, u, by simp [writeLeaf, hw, hk, h], m, .inr (.inr (weaken e))⟩
    | zeroOne =>
      rcases accept_moves (.writeBits8 v) (bits8 v) s with ⟨u, h, m⟩ | ⟨t, u, h, m, -, e⟩
      · exact ⟨_, u, by simp [writeLeaf, hw, hk, writeBits8, h, Tx.andThen], m, .inr (.inl rfl)⟩
      · exact ⟨t, u, by simp [writeLeaf, hw, hk, writeBits8, h, Tx.andThen], m, .inr (.inr (weaken e))⟩
  | endLeaf =>
    have body : writeOneToken s = writeEnd s := by
      simp [writeOneToken, hw, tokenOf, execToken, execEndLeaf, hr, hp]
    rw [body]
    have last : ((writeBit false s).andThen fun _ s => Host.Outcome.next (emitted w s)) = writeEnd s →
        ∃ t u, writeEnd s = .next t ∧ SnkMoved s u ∧
          (t = emitted w u ∨ EndedAs (fun c => c = .io ∨ c = .resource) u t) := by
      intro k
      rw [← k]
      rcases accept_moves (.writeBit false) [false] s with ⟨u, h, m⟩ | ⟨t, u, h, m, -, e⟩
      · exact ⟨_, u, by simp [writeBit, h, Tx.andThen], m, .inl rfl⟩
      · exact ⟨t, u, by simp [writeBit, h, Tx.andThen], m, .inr (weaken e)⟩
    cases hk : s.token with
    | start =>
      obtain ⟨t, u, h, m, k | e⟩ := writePart_moves false .zero s
      · exact ⟨t, u, by simp [writeEnd, hw, hk, h], m, .inl ⟨_, k, by simp⟩⟩
      · exact ⟨t, u, by simp [writeEnd, hw, hk, h], m, .inr (.inr (weaken e))⟩
    | zero =>
      obtain ⟨t, u, h, m, k⟩ := last (by simp [writeEnd, hw, hk])
      exact ⟨t, u, h, m, .inr k⟩
    | zeroOne =>
      obtain ⟨t, u, h, m, k⟩ := last (by simp [writeEnd, hw, hk])
      exact ⟨t, u, h, m, .inr k⟩

end Sys2Proof.Machine
end

