-- ==== Sys2Proof/Tests/Slice0.lean ====
section
/-! SUPPORT. The model's own tests, from 95_test_vectors.md and the encodings of 30_encoding.md, and a witness for the
hypotheses of every statement. -/

namespace Sys2Proof.Tests

open Sys2Proof.Machine

/-! ## The named trees and small states -/

/-- TA of 95_test_vectors.md. -/
def ta : Tree := .branch (.leaf 0x41) (.branch (.leaf 0x42) .endLeaf)

/-- T4 of 95_test_vectors.md: no EndLeaf. -/
def t4 : Tree := .branch (.leaf 0x41) (.leaf 0x42)

/-- TP of 95_test_vectors.md: a byte at two leaves. -/
def tp : Tree := .branch (.leaf 0x41) (.branch (.leaf 0x41) .endLeaf)

/-- TM of 95_test_vectors.md: two EndLeaf nodes. -/
def tm : Tree := .branch .endLeaf (.branch (.leaf 0x41) .endLeaf)

/-- `BITSRC` with these bits, cursor 0. -/
def source (bits : List Bit) : BitSource := { data := bits, pos := 0, error := none }

/-- `BITSNK` with these bits, none delivered. -/
def sink (bits : List Bit) : BitSink :=
  { bits := bits, off := BitVec.ofNat 3 bits.length, delivered := 0, error := none }

/-- `BYTESRC` with these bytes, cursor 0. -/
def input (bytes : List Byte) : ByteSource := { data := bytes, pos := 0, error := none }

/-- A running command in a phase, with everything else as after reset. -/
def running (p : Phase) : State := { State.reset with status := .busy, phase := p }

/-- A parse under way, with these bits to come. -/
def reading (p : Phase) (bits : List Bit) : State := { running p with src := source bits }

/-- A parse with the discriminant bits of a token already read. -/
def readingOn (p : Phase) (k : TokenPart) (bits : List Bit) : State :=
  { reading p bits with token := k, src := { source bits with pos := k.moved.length } }

/-- An emission under way, with this subtree next and nothing after it. -/
def writing (p : Phase) (t : Tree) : State :=
  { running p with tree := some t, wstack := [{ sub := t, depth := 0 }] }

/-- A walk of TA, at this node. -/
def walking (n : Tree) : State := { running .dWalk with tree := some ta, node := some n }

/-- `COMPRESS` with TA, after its description. -/
def encoding (p : Phase) : State := { running p with tree := some ta, ct := some (tableOf ta) }

/-- `READY` with a tree in `TREE` and an input. -/
def loaded (t : Tree) (bytes : List Byte) : State :=
  { State.reset with tree := some t, ysrc := input bytes }

/-- A fault recorded, as after V-CO-24. -/
def faulted : State := { State.reset with status := .faulted, cause := 3 }

theorem quiet (s : State) (h : s.answers = []) : Undisturbed s := by
  intro a ha
  simp [h] at ha

/-! ## Well-formedness -/

theorem test_wf_accepts_ta : ta.wf = true := by decide
theorem test_wf_refuses_no_end_leaf : t4.wf = false := by decide
theorem test_wf_refuses_two_end_leaves : tm.wf = false := by decide
theorem test_wf_refuses_repeated_byte : tp.wf = false := by decide

/-- R96, R103: no instruction is ill-formed. -/
theorem test_wf_all_values (v : Byte) : (Instr.leaf v).wf = true := rfl

/-! ## Decoding: words written out from the encodings -/

/-- R91: `1`. -/
theorem test_decode_branch : decodeToken [true] = .ok (.branch, []) := by decide
/-- R92, V-EN-11: `01 01000001`. -/
theorem test_decode_leaf :
    decodeToken [false, true, false, true, false, false, false, false, false, true] = .ok (.leaf 0x41, []) := by decide
/-- R92, V-EN-5: `01 00000001`, followed by another bit. -/
theorem test_decode_leaf_low_bit :
    decodeToken [false, true, false, false, false, false, false, false, false, true, true] =
      .ok (.leaf 0x01, [true]) := by decide
/-- R93: `00`. -/
theorem test_decode_end : decodeToken [false, false] = .ok (.endLeaf, []) := by decide
/-- R102: the four codes of `CMD`. -/
theorem test_decode_commands :
    [0b00#2, 0b01#2, 0b10#2, 0b11#2].map decodeCmd = [.readTree, .writeTree, .decompress, .compress] := by decide

/-- R96: bits run out. -/
theorem test_decode_no_bit : decodeToken [] = .error .noFirstBit := by decide
theorem test_decode_one_zero : decodeToken [false] = .error .noSecondBit := by decide
/-- V-RT-13: nine bits. -/
theorem test_decode_short_value :
    decodeToken [false, true, false, false, false, false, false, false, false] = .error .shortValue := by decide

/-- R58, V-EN-10: `A8` starts with the token `1`. -/
theorem test_decode_bytes :
    decodeBytes [0xA8, 0x35, 0x08] = .ok (.branch, (unpack [0xA8, 0x35, 0x08]).drop 1) := by decide

/-- V-EN-10 and V-WT-1: the byte image of `ser(TA)`. -/
theorem test_ser_ta : pack (ser ta) = [0xA8, 0x35, 0x08] := by decide
/-- V-RT-12: `100`. -/
theorem test_parse_truncated : parse [true, false, false] = .error .noFirstBit := by decide
/-- V-RT-4. -/
theorem test_parse_ta : parse (ser ta ++ [false, true]) = .ok (ta, [false, true]) := by decide

/-- The opcode table's rows, numbered as the table numbers them (log 4). -/
theorem test_table_words :
    decodeTableWord 1 1 = some .branch ∧ decodeTableWord 16 0b0101000001 = some (.leaf 0x41) ∧
    decodeTableWord 8 0 = some .readTree ∧ decodeTableWord 8 1 = some .writeTree ∧
    decodeTableWord 8 2 = some .decompress ∧ decodeTableWord 8 3 = some .compress ∧
    decodeTableWord 8 4 = none := by decide

/-- A placed command is the one the next step runs: `READ_TREE` starts. -/
theorem test_fetch_command :
    step (State.reset.withFetchWord 8 0) = exec .readTree (State.reset) := by rfl

/-- A placed token is the one the next step reads: the tree is complete. -/
theorem test_fetch_leaf :
    ∃ t, step (State.reset.withFetchWord 16 0b0101000001) = .next t ∧ t.tree = some (.leaf 0x41) ∧
      t.status = .ready := ⟨_, rfl, by decide, by decide⟩

/-! ## One step of each instruction -/

/-- R121: `1` opens a Branch. -/
theorem test_branch_read : ∃ t, step (reading .rt [true]) = .next t ∧ t.rstack = [.needLeft] ∧ t.src.pos = 1 :=
  ⟨_, rfl, by decide, by decide⟩

/-- R141, R145: `1` is written, the left subtree comes next. -/
theorem test_branch_written :
    ∃ t, exec .branch (writing .wt ta) = .next t ∧ t.snk.bits = [true] ∧
      t.wstack.map (fun f => f.sub) = [.leaf 0x41, .branch (.leaf 0x42) .endLeaf] :=
  ⟨_, rfl, by decide, by decide⟩

/-- R6, R121: a step reads one bit of a token, and no more. -/
theorem test_token_bit_by_bit :
    ∃ t, step (reading .rt [false, true, true, true, true, true, true, true, true, true]) = .next t ∧
      t.token = .zero ∧ t.src.pos = 1 ∧ t.trace = [{ call := .readBit, reply := .bit false }] :=
  ⟨_, rfl, by decide, by decide, by decide⟩

/-- R69, R239: the second transaction of a token may hang, with the first one done. -/
theorem test_hang_inside_a_token :
    step { readingOn .rt .zero [false, true] with waits := [none] } =
      .next { readingOn .rt .zero [false, true] with waits := [none] } := by rfl

/-- R239: a Branch beyond `MAX_DEPTH` needs no transaction, so nothing can keep it waiting. -/
theorem test_depth_fault_needs_no_answer :
    ∃ t, step { writing .wt ta with
        waits := [none], par := { chunkLessOne := 0, maxDepth := some 0, obufMax := none } } = .next t ∧
      t.status = .faulted ∧ t.cause = 5 := ⟨_, rfl, by decide, by decide⟩

/-- V-RT-2: a description of ten bits. -/
theorem test_leaf_read :
    ∃ t, step (readingOn .rt .zeroOne [false, true, true, true, true, true, true, true, true, true]) = .next t ∧
      t.tree = some (.leaf 0xFF) ∧ t.src.pos = 10 := ⟨_, rfl, by decide, by decide⟩

/-- V-WT-3: the value of a Leaf is written, most significant bit first. -/
theorem test_leaf_written :
    ∃ t, exec (.leaf 0x41) { writing .wt (.leaf 0x41) with token := .zeroOne, snk := sink [false, true] } = .next t ∧
      t.snk.bits = [false, true, false, true, false, false, false, false, false, true] ∧ t.snk.off = 2 :=
  ⟨_, rfl, by decide, by decide⟩

/-- V-RT-1. -/
theorem test_end_read :
    ∃ t, step (readingOn .rt .zero [false, false]) = .next t ∧ t.tree = some .endLeaf ∧ t.status = .ready :=
  ⟨_, rfl, by decide, by decide⟩

/-- V-WT-6: at the current position, without alignment, the second bit. -/
theorem test_end_written :
    ∃ t, exec .endLeaf { writing .wt .endLeaf with token := .zero, snk := sink [true, false, true, false] } = .next t ∧
      t.snk.bits = [true, false, true, false, false] ∧ t.snk.off = 5 := ⟨_, rfl, by decide, by decide⟩

/-- V-RT-8: the empty source. -/
theorem test_read_tree_empty_source :
    ∃ t, exec .readTree (reading .rt []) = .next t ∧ t.status = .faulted ∧ t.cause = 1 ∧ t.src.pos = 0 :=
  ⟨_, rfl, by decide, by decide, by decide⟩

/-- V-RT-14: the old tree is discarded at the start. -/
theorem test_read_tree_drops_tree :
    ∃ t, exec .readTree (loaded ta []) = .next t ∧ t.tree = none := ⟨_, rfl, rfl⟩

/-- V-WT-7. -/
theorem test_write_tree_no_tree :
    ∃ t, exec .writeTree State.reset = .next t ∧ t.cause = 3 ∧ t.snk.bits = [] ∧ t.trace = [] :=
  ⟨_, rfl, by decide, by decide, by decide⟩

/-- V-WT-2: END is the whole description; no flush, no padding. -/
theorem test_write_tree_end :
    ∃ t, exec .writeTree { writing .wt .endLeaf with token := .zero, snk := sink [false] } = .next t ∧
      t.snk.bits = [false, false] ∧ t.status = .ready :=
  ⟨_, rfl, by decide, by decide⟩

/-- R173: 1 goes right. -/
theorem test_decompress_walks_right :
    ∃ t, exec .decompress { walking ta with src := source [true] } = .next t ∧
      t.node = some (.branch (.leaf 0x42) .endLeaf) := ⟨_, rfl, by decide⟩

/-- V-DE-13, `n = 24`: the bits end at a code-word boundary. -/
theorem test_decompress_runs_out :
    ∃ t, exec .decompress (walking ta) = .next t ∧ t.cause = 1 ∧ t.info = 1 ∧ t.tree = none :=
  ⟨_, rfl, by decide, by decide, by decide⟩

/-- V-CO-20: no code for 0x43. -/
theorem test_compress_missing_code :
    ∃ t, exec .compress { encoding .cEmit with cbuf := [0x43] } = .next t ∧ t.cause = 2 ∧ t.info = 0x043 ∧
      t.tree = some ta := ⟨_, rfl, by decide, by decide, by decide⟩

/-- S2: the code of 0x42 is `10`. -/
theorem test_compress_looks_up :
    ∃ t, exec .compress { encoding .cEmit with cbuf := [0x42] } = .next t ∧ t.code = some [true, false] :=
  ⟨_, rfl, by decide⟩

/-! ## Witnesses: concrete states and operands that meet the hypotheses of each statement that has any -/

theorem witness_DecodeAndEncodeAgree :
    (Instr.compress.wf = true ∧ encode .compress = .cmd 0b11) ∧
    ((Instr.leaf 0xFF).wf = true ∧
      encode (.leaf 0xFF) = .token [false, true, true, true, true, true, true, true, true, true]) ∧
    decode (.cmd 0b00) = .ok (.readTree, []) ∧
    decode (.token [false, false, true]) = .ok (.endLeaf, [true]) := by decide

theorem witness_SerializationIsPrefixFree : ser ta ++ [true] = ser ta ++ [true] := rfl

theorem witness_ParseInvertsSerialization : parse [false, false, true] = .ok (.endLeaf, [true]) := by decide

theorem witness_PackAndUnpackAreInverse :
    (0 < (bits8 0xA5).length / 8 ∧ 1 < (unpack [0xA5, 0x5A]).length / 8) ∧ (bits8 0xA5).length % 8 = 0 := by decide

theorem witness_ByteBitsMostSignificantFirst : (0 < 8 ∧ 7 < 8) ∧ (bits8 0x80).length = 8 := by decide

theorem witness_CodeTableHoldsPathsOfLeaves :
    codeOf ta .eom = some [true, true] ∧ pathsOf (.byte 0x42) (paths ta []) = [[true, false]] := by decide

theorem witness_CodesArePrefixFree :
    Sym.byte 0x41 ≠ .eom ∧ codeOf ta (.byte 0x41) = some [false] ∧ codeOf ta .eom = some [true, true] := by decide

theorem witness_ReadBit_last_bit :
    answer (reading .rt [true]) = .ok (Config.deviceChoice 0) ∧
      (reading .rt [true]).src.data[(reading .rt [true]).src.pos]? = some true := ⟨rfl, rfl⟩

theorem witness_ReadBit_no_bit :
    answer (reading .rt []) = .ok (Config.deviceChoice 0) ∧
      (reading .rt []).src.data.length ≤ (reading .rt []).src.pos := ⟨rfl, by decide⟩

theorem witness_ReadBits8_last_byte :
    answer (reading .rt (bits8 0x41)) = .ok (Config.deviceChoice 0) ∧
      (reading .rt (bits8 0x41)).src.pos + 8 ≤ (reading .rt (bits8 0x41)).src.data.length := ⟨rfl, by decide⟩

theorem witness_ReadBits8_seven_bits :
    answer (reading .rt ((bits8 0x41).drop 1)) = .ok (Config.deviceChoice 0) ∧
      (reading .rt ((bits8 0x41).drop 1)).src.pos ≤ (reading .rt ((bits8 0x41).drop 1)).src.data.length ∧
      (reading .rt ((bits8 0x41).drop 1)).src.data.length < (reading .rt ((bits8 0x41).drop 1)).src.pos + 8 :=
  ⟨rfl, by decide, by decide⟩

theorem witness_WritesAppendToTheSink : answer State.reset = .ok (Config.deviceChoice 0) := rfl

theorem witness_FlushPadsAndDelivers_aligned :
    answer State.reset = .ok (Config.deviceChoice 0) ∧
      State.reset.snk.off.toNat = State.reset.snk.bits.length % 8 ∧ State.reset.snk.off = 0 :=
  ⟨rfl, by decide, rfl⟩

theorem witness_FlushPadsAndDelivers_seven_bits :
    answer { State.reset with snk := sink (List.replicate 7 true) } = .ok (Config.deviceChoice 0) ∧
      (sink (List.replicate 7 true)).off.toNat = (sink (List.replicate 7 true)).bits.length % 8 :=
  ⟨rfl, by decide⟩

theorem witness_ReadBytesReturnsSomeOfTheNext :
    1 ≤ 2 ∧ answer (loaded ta [1, 2, 3]) = .ok (Config.deviceChoice 0) ∧
      (1 ≤ 1 ∧ 1 ≤ min 2 ((loaded ta [1, 2, 3]).ysrc.data.length - (loaded ta [1, 2, 3]).ysrc.pos)) ∧
      (1 ≤ 2 ∧ 2 ≤ min 2 ((loaded ta [1, 2, 3]).ysrc.data.length - (loaded ta [1, 2, 3]).ysrc.pos)) :=
  ⟨by decide, rfl, by decide, by decide⟩

theorem witness_StepRunsIssuedCommand :
    ({ State.reset with host := [.issue 0b11] } : State).status = .ready ∧
      ({ State.reset with host := [.issue 0b11] } : State).host = .issue 0b11 :: [] := ⟨rfl, rfl⟩

/-- The three clauses: a step without a transaction, no wait, and a wait that is over. -/
theorem witness_StepContinuesRunningCommand :
    ((running .cTable).status = .busy ∧ (running .cTable).phase.command = some .compress ∧
      (∀ a h, (running .cTable).host = a :: h → a ≠ .tick ∧ a.anyTime = false) ∧
      transacts (running .cTable) = false) ∧
    (running .rt).waits = [] ∧
    (transacts { running .rt with waits := [some 0] } = true ∧
      ({ running .rt with waits := [some 0] } : State).waits = some 0 :: []) :=
  ⟨⟨rfl, rfl, nofun, rfl⟩, rfl, rfl, rfl⟩

/-- A token all to come, and one with only its last transaction to come. -/
theorem witness_StepRunsDecodedToken :
    ((reading .dTree [false, false, true]).status = .busy ∧ (reading .dTree [false, false, true]).phase.reads = true ∧
      Alone (reading .dTree [false, false, true]) ∧ Undisturbed (reading .dTree [false, false, true]) ∧
      decodeToken ((reading .dTree [false, false, true]).token.moved ++ (reading .dTree [false, false, true]).src.left) =
        .ok (.endLeaf, [true]) ∧ 2 = (readTxns .endLeaf).length - (reading .dTree []).token.moved.length) ∧
    (decodeToken ((readingOn .rt .zeroOne (false :: true :: bits8 7)).token.moved ++
        (readingOn .rt .zeroOne (false :: true :: bits8 7)).src.left) = .ok (.leaf 7, []) ∧
      1 = (readTxns (.leaf 7)).length - TokenPart.zeroOne.moved.length) :=
  ⟨⟨rfl, rfl, ⟨rfl, rfl⟩, quiet _ rfl, by decide, rfl⟩, by decide, rfl⟩

theorem witness_StepEmitsNextToken :
    (writing .cTree ta).status = .busy ∧ (writing .cTree ta).phase.writes = true ∧ Alone (writing .cTree ta) ∧
      (writing .cTree ta).wstack = { sub := ta, depth := 0 } :: [] := ⟨rfl, rfl, ⟨rfl, rfl⟩, rfl⟩

theorem witness_IdleCoreDoesNothing : faulted.status ≠ .busy ∧ faulted.host = [] := ⟨by decide, rfl⟩

theorem witness_UnansweredTransactionHangs :
    (running .rt).status = .busy ∧ ({ running .rt with waits := [none] } : State).host = [] ∧
      transacts { running .rt with waits := [none] } = true ∧
      ({ running .rt with waits := [none] } : State).waits = none :: [] := ⟨rfl, rfl, rfl, rfl⟩

theorem witness_ForeignInstructionsHaveNoMove :
    ((running .rt).status = .busy ∧ (running .rt).phase.command ≠ some (decodeCmd 0b11)) ∧
    (State.reset.phase.reads = false ∧ State.reset.phase.writes = false) ∧
    ((writing .wt (.leaf 1)).phase.writes = true ∧
      ∀ f w, (writing .wt (.leaf 1)).wstack = f :: w → tokenOf f.sub ≠ tokenOf (.leaf 2)) := by
  refine ⟨⟨rfl, by decide⟩, ⟨rfl, rfl⟩, rfl, ?_⟩
  intro f w h
  obtain ⟨rfl, -⟩ := List.cons.inj h
  decide

theorem witness_HostWaitsWhileBusy :
    ∃ t, ({ running .rt with host := [.initSnk] } : State).status = .busy ∧
      ({ running .rt with host := [.initSnk] } : State).host = .initSnk :: [] ∧ HostAction.initSnk ≠ .tick ∧
      HostAction.initSnk.anyTime = false ∧ step { running .rt with host := [.initSnk] } = .next t :=
  ⟨_, rfl, rfl, by decide, rfl, rfl⟩

/-- The four clauses, BRANCH at the last depth that `MAX_DEPTH` admits. -/
theorem witness_ReadTokensBuildTheTree :
    ((running .rt).phase.reads = true ∧
      withinLimit (some 1) (({ running .rt with par := { chunkLessOne := 0, maxDepth := some 1, obufMax := none } } :
        State).rstack.length + 1) = true) ∧
    (Instr.leaf 7 = tokenOf (.leaf 7) ∧ Instr.leaf 7 ≠ .branch ∧
      ({ running .rt with rstack := [.needRight .endLeaf, .needLeft] } : State).rstack =
        [Tree.endLeaf].map RFrame.needRight ++ .needLeft :: []) ∧
    ((running .rt).rstack = ([] : List Tree).map RFrame.needRight ∧ (running .rt).phase = .rt) ∧
    ((running .dTree).phase.reads = true ∧ (running .dTree).phase = .dTree) := by decide

/-- The clauses: a Branch, the parts of a token, and the last transaction with more to come and as the last of each
command. -/
theorem witness_WriteTokensAppendTheirBits :
    ((writing .wt ta).phase.writes = true ∧ (writing .wt ta).wstack = { sub := ta, depth := 0 } :: [] ∧
      Undisturbed (writing .wt ta) ∧ withinLimit (writing .wt ta).par.maxDepth (0 + treeDepth ta) = true) ∧
    ((writing .wt (.leaf 7)).token = .start ∧ ({ writing .wt (.leaf 7) with token := .zero } : State).token = .zero) ∧
    (({ running .wt with wstack := [{ sub := .endLeaf, depth := 1 }, { sub := ta, depth := 1 }], token := .zero } :
      State).wstack = { sub := .endLeaf, depth := 1 } :: [{ sub := ta, depth := 1 }]) ∧
    (({ writing .wt .endLeaf with token := .zero } : State).token = .zero ∧ (writing .wt .endLeaf).phase = .wt) ∧
    (({ writing .cTree (.leaf 0) with token := .zeroOne } : State).token = .zeroOne ∧
      (writing .cTree (.leaf 0)).phase = .cTree) :=
  ⟨⟨rfl, rfl, quiet _ rfl, rfl⟩, ⟨rfl, rfl⟩, rfl, ⟨rfl, rfl⟩, rfl, rfl⟩

theorem witness_ParsingCommandsStart : State.reset.status = .ready := rfl

theorem witness_WritingCommandsStartOrHaveNoTree :
    ((loaded ta []).status = .ready ∧ (loaded ta []).tree = some ta) ∧
    (State.reset.status = .ready ∧ State.reset.tree = none) := ⟨⟨rfl, rfl⟩, rfl, rfl⟩

theorem witness_DecompressWalksAndDelivers :
    ((walking ta).status = .busy ∧ (walking ta).phase = .dWalk ∧
      (walking ta).node = some (.branch (.leaf 0x41) (.branch (.leaf 0x42) .endLeaf)) ∧
      answer { walking ta with src := source [true] } = .ok (Config.deviceChoice 0) ∧
      (source [true]).data[(source [true]).pos]? = some true) ∧
    ((walking (.leaf 0x41)).phase = .dWalk ∧ (walking (.leaf 0x41)).node = some (.leaf 0x41) ∧
      FitsOutput (walking (.leaf 0x41)) ((walking (.leaf 0x41)).obuf.length + 1)) ∧
    ((walking .endLeaf).phase = .dWalk ∧ (walking .endLeaf).node = some .endLeaf) ∧
    ((running .dOut).phase = .dOut ∧ answer (running .dOut) = .ok (Config.deviceChoice 0)) :=
  ⟨⟨rfl, rfl, rfl, rfl, rfl⟩, ⟨rfl, rfl, rfl⟩, ⟨rfl, rfl⟩, rfl, rfl⟩

theorem witness_CompressEncodesStepByStep :
    ((running .cTable).status = .busy ∧ ({ running .cTable with tree := some ta } : State).tree = some ta ∧
      FitsDepth { running .cTable with tree := some ta } ta) ∧
    ((encoding .cRead).phase = .cRead ∧ answer (encoding .cRead) = .ok (Config.deviceChoice 0)) ∧
    (({ encoding .cEmit with cbuf := [0x42] } : State).cbuf = 0x42 :: [] ∧ (encoding .cEmit).code = none ∧
      lookup (encoding .cEmit).ct (.byte 0x42) = some [true, false]) ∧
    (({ encoding .cEmit with code := some [true, false] } : State).code = some (true :: [false]) ∧
      ({ encoding .cEom with code := some [true] } : State).code = some (true :: [])) ∧
    ({ encoding .cEmit with code := some [] } : State).code = some [] ∧
    ((encoding .cEmit).code = none ∧ (encoding .cEmit).cbuf = []) ∧
    ((encoding .cEom).code = none ∧ lookup (encoding .cEom).ct .eom = some [true, true]) ∧
    ({ encoding .cEom with code := some [] } : State).code = some [] ∧
    ((encoding .cPad).phase = .cPad ∧ (encoding .cPad).snk.off = 0) ∧
    ((encoding .cFlush).snk.off = 0 ∧ answer (encoding .cFlush) = .ok (Config.deviceChoice 0)) :=
  ⟨⟨rfl, rfl, rfl⟩, ⟨rfl, rfl⟩, ⟨rfl, rfl, by decide⟩, ⟨rfl, rfl⟩, rfl, ⟨rfl, rfl⟩, ⟨rfl, by decide⟩, rfl, ⟨rfl, rfl⟩,
    rfl, rfl⟩

theorem witness_CompressPadsToByteBoundary :
    ({ encoding .cPad with snk := sink [true] } : State).status = .busy ∧
      ({ encoding .cPad with snk := sink [true] } : State).phase = .cPad ∧
      Alone { encoding .cPad with snk := sink [true] } ∧ Undisturbed { encoding .cPad with snk := sink [true] } :=
  ⟨rfl, rfl, ⟨rfl, rfl⟩, quiet _ rfl⟩

/-- `READY`, with these bits in `BITSRC`. -/
def offered (bits : List Bit) : State := { State.reset with src := source bits }

theorem witness_ReadTreeReadsTheDescribedTree :
    (offered (ser ta ++ [false])).status = .ready ∧ Alone (offered (ser ta ++ [false])) ∧
      Undisturbed (offered (ser ta ++ [false])) ∧ FitsDepth (offered (ser ta ++ [false])) ta ∧
      (offered (ser ta ++ [false])).src.left = ser ta ++ [false] := ⟨rfl, ⟨rfl, rfl⟩, quiet _ rfl, rfl, rfl⟩

/-- Both outcomes of the descent. -/
theorem witness_ReadTreeAgreesWithRecursiveDescent :
    ((offered (ser ta)).status = .ready ∧ Alone (offered (ser ta)) ∧ Undisturbed (offered (ser ta)) ∧
      (offered (ser ta)).par.maxDepth = none ∧ parse (offered (ser ta)).src.left = .ok (ta, [])) ∧
    parse (offered [true]).src.left = .error .noFirstBit :=
  ⟨⟨rfl, ⟨rfl, rfl⟩, quiet _ rfl, rfl, by decide⟩, by decide⟩

theorem witness_TruncatedDescriptionFaults :
    (offered ((ser ta).take 20)).status = .ready ∧ Alone (offered ((ser ta).take 20)) ∧
      Undisturbed (offered ((ser ta).take 20)) ∧ FitsDepth (offered ((ser ta).take 20)) ta ∧
      (ser ta).drop 20 ≠ [] ∧ (offered ((ser ta).take 20)).src.left ++ (ser ta).drop 20 = ser ta :=
  ⟨rfl, ⟨rfl, rfl⟩, quiet _ rfl, rfl, by decide, by decide⟩

theorem witness_WriteTreeAppendsSerialization :
    (loaded ta []).status = .ready ∧ Alone (loaded ta []) ∧ Undisturbed (loaded ta []) ∧
      FitsDepth (loaded ta []) ta ∧ (loaded ta []).tree = some ta := ⟨rfl, ⟨rfl, rfl⟩, quiet _ rfl, rfl, rfl⟩

theorem witness_DecompressDecodesStream :
    (offered (enc ta [0x41, 0x42] 0 ++ [true])).status = .ready ∧
      Alone (offered (enc ta [0x41, 0x42] 0 ++ [true])) ∧ Undisturbed (offered (enc ta [0x41, 0x42] 0 ++ [true])) ∧
      FitsDepth (offered (enc ta [0x41, 0x42] 0 ++ [true])) ta ∧
      FitsOutput (offered (enc ta [0x41, 0x42] 0 ++ [true])) 2 ∧ carries ta .eom ∧ Covers ta [0x41, 0x42] ∧
      (offered (enc ta [0x41, 0x42] 0 ++ [true])).src.left = enc ta [0x41, 0x42] 0 ++ [true] :=
  ⟨rfl, ⟨rfl, rfl⟩, quiet _ rfl, rfl, rfl, by simp [carries, ta], by simp [Covers, carries, ta], rfl⟩

/-- `INFO` 1, with no bit of a code word, and `INFO` 2, with one. -/
theorem witness_TruncatedCodedDataFaults :
    ((offered (ser ta ++ codedBytes ta [0x41])).status = .ready ∧ Alone (offered (ser ta ++ codedBytes ta [0x41])) ∧
      Undisturbed (offered (ser ta ++ codedBytes ta [0x41])) ∧ FitsDepth (offered (ser ta ++ codedBytes ta [0x41])) ta ∧
      FitsOutput (offered (ser ta ++ codedBytes ta [0x41])) 1 ∧ Covers ta [0x41] ∧ [true, true] ≠ [] ∧
      (Sym.eom, [] ++ [true, true]) ∈ paths ta [] ∧
      (offered (ser ta ++ codedBytes ta [0x41])).src.left = ser ta ++ codedBytes ta [0x41] ++ []) ∧
    ([true] ≠ [] ∧ (Sym.eom, [true] ++ [true]) ∈ paths ta [] ∧
      (offered (ser ta ++ codedBytes ta [0x41] ++ [true])).src.left = ser ta ++ codedBytes ta [0x41] ++ [true]) :=
  ⟨⟨rfl, ⟨rfl, rfl⟩, quiet _ rfl, rfl, rfl, by simp [Covers, carries, ta], by decide, by decide, by decide⟩, by decide,
    by decide, rfl⟩

theorem witness_LoneLeafWalkNeverEnds :
    ({ running .dWalk with tree := some (.leaf 0x41), node := some (.leaf 0x41) } : State).status = .busy ∧
      ({ running .dWalk with tree := some (.leaf 0x41), node := some (.leaf 0x41) } : State).phase = .dWalk ∧
      (running .dWalk).host = [] ∧ (running .dWalk).par.obufMax = none := ⟨rfl, rfl, rfl, rfl⟩

theorem witness_CompressWritesStream :
    (loaded ta [0x41, 0x42]).status = .ready ∧ Alone (loaded ta [0x41, 0x42]) ∧
      Undisturbed (loaded ta [0x41, 0x42]) ∧ FitsDepth (loaded ta [0x41, 0x42]) ta ∧
      (loaded ta [0x41, 0x42]).tree = some ta ∧
      (loaded ta [0x41, 0x42]).snk.off.toNat = (loaded ta [0x41, 0x42]).snk.bits.length % 8 ∧
      (loaded ta [0x41, 0x42]).ysrc.pos ≤ (loaded ta [0x41, 0x42]).ysrc.data.length ∧ carries ta .eom ∧
      Covers ta (loaded ta [0x41, 0x42]).ysrc.left :=
  ⟨rfl, ⟨rfl, rfl⟩, quiet _ rfl, rfl, rfl, by decide, by decide, by simp [carries, ta],
    by simp [Covers, carries, ta, loaded, input, ByteSource.left]⟩

theorem witness_CompressedStreamIsByteAligned : 0 < 8 ∧ 7 < 8 ∧ (0 : Nat) = 0 := by decide

theorem witness_CompressFaultsOnUncoveredByte :
    (loaded ta [0x43]).status = .ready ∧ Alone (loaded ta [0x43]) ∧ Undisturbed (loaded ta [0x43]) ∧
      FitsDepth (loaded ta [0x43]) ta ∧ (loaded ta [0x43]).tree = some ta ∧
      (loaded ta [0x43]).ysrc.left = [] ++ 0x43 :: [] ∧ Covers ta [] ∧ ¬ carries ta (.byte 0x43) :=
  ⟨rfl, ⟨rfl, rfl⟩, quiet _ rfl, rfl, rfl, rfl, by simp [Covers], by simp [carries, ta]⟩

theorem witness_CompressFaultsWithoutEndLeaf :
    (loaded t4 [0x41]).status = .ready ∧ Alone (loaded t4 [0x41]) ∧ Undisturbed (loaded t4 [0x41]) ∧
      FitsDepth (loaded t4 [0x41]) t4 ∧ (loaded t4 [0x41]).tree = some t4 ∧
      (loaded t4 [0x41]).ysrc.pos ≤ (loaded t4 [0x41]).ysrc.data.length ∧ Covers t4 (loaded t4 [0x41]).ysrc.left ∧
      ¬ carries t4 .eom :=
  ⟨rfl, ⟨rfl, rfl⟩, quiet _ rfl, rfl, rfl, by decide,
    by simp [Covers, carries, t4, loaded, input, ByteSource.left], by simp [carries, t4]⟩

theorem witness_DecompressInvertsCompress :
    (loaded ta [0x41]).status = .ready ∧ Alone (loaded ta [0x41]) ∧ Undisturbed (loaded ta [0x41]) ∧
      FitsDepth (loaded ta [0x41]) ta ∧ (loaded ta [0x41]).tree = some ta ∧
      (loaded ta [0x41]).snk = BitSink.initial ∧ (loaded ta [0x41]).ysrc.left = [0x41] ∧
      (loaded ta [0x41]).ysrc.pos ≤ (loaded ta [0x41]).ysrc.data.length ∧ carries ta .eom ∧ Covers ta [0x41] ∧
      (offered (unpack [0xA8, 0x35, 0x08, 0x60])).status = .ready ∧
      Alone (offered (unpack [0xA8, 0x35, 0x08, 0x60])) ∧ Undisturbed (offered (unpack [0xA8, 0x35, 0x08, 0x60])) ∧
      FitsDepth (offered (unpack [0xA8, 0x35, 0x08, 0x60])) ta ∧
      FitsOutput (offered (unpack [0xA8, 0x35, 0x08, 0x60])) 1 ∧
      (offered (unpack [0xA8, 0x35, 0x08, 0x60])).src.left = unpack [0xA8, 0x35, 0x08, 0x60] ++ [] :=
  ⟨rfl, ⟨rfl, rfl⟩, quiet _ rfl, rfl, rfl, rfl, rfl, by decide, by simp [carries, ta], by simp [Covers, carries, ta], rfl,
    ⟨rfl, rfl⟩, quiet _ rfl, rfl, rfl, by decide⟩

/-- The exception to the walk's end is met by a description that is no single Leaf. -/
theorem witness_CommandsEnd :
    (offered (ser ta)).status = .ready ∧ Answering (offered (ser ta)) ∧
      (decodeCmd 0b10 = .decompress → ∀ v y, (offered (ser ta)).src.left ≠ ser (.leaf v) ++ y) := by
  refine ⟨rfl, ⟨rfl, by decide⟩, fun _ v y h => ?_⟩
  simp [offered, source, BitSource.left, ta, ser, tokenBits] at h

/-- Each clause's instruction has a next state there. -/
theorem witness_CommandsTouchOnlyTheirStreams :
    (∃ t, exec .readTree State.reset = .next t) ∧ (∃ t, exec .writeTree State.reset = .next t) ∧
    (∃ t, exec .decompress State.reset = .next t) ∧ (∃ t, exec .compress State.reset = .next t) ∧
    ((running .rt).phase.reads = true ∧ ∃ t, exec (tokenOf ta) (running .rt) = .next t) ∧
    ((writing .wt ta).phase.writes = true ∧ ∃ t, exec (tokenOf ta) (writing .wt ta) = .next t) :=
  ⟨⟨_, rfl⟩, ⟨_, rfl⟩, ⟨_, rfl⟩, ⟨_, rfl⟩, ⟨rfl, _, rfl⟩, rfl, _, rfl⟩

theorem witness_StreamsOnlyAdvance :
    ∃ t, (reading .rt [true]).status = .busy ∧ step (reading .rt [true]) = .next t := ⟨_, rfl, rfl⟩

theorem witness_TreeIsImmutableDuringCommand :
    ∃ t, (writing .wt ta).status = .busy ∧ (writing .wt ta).phase.reads = false ∧
      (writing .wt ta).tree = some ta ∧ step (writing .wt ta) = .next t ∧ t.status = .busy :=
  ⟨_, rfl, rfl, rfl, rfl, by decide⟩

theorem witness_RaiseClearsWorkingState :
    (running .rt).phase.command = some .readTree ∧ (running .dOut).phase.command = some .decompress ∧
      (running .wt).phase.command = some .writeTree ∧ (running .cFlush).phase.command = some .compress := by decide

/-- The invariant of a small state. -/
theorem reading_nothing_invariant : RunInvariant (reading .rt []) := by
  constructor <;> simp [reading, running, source, State.reset, BitSink.initial, ByteSource.initial, Phase.reads,
    Phase.hasTable, withinLimit]

theorem encoding_invariant : RunInvariant { encoding .cEmit with cbuf := [0x43] } := by
  constructor <;> simp [encoding, running, State.reset, BitSource.initial, BitSink.initial, ByteSource.initial,
    Phase.reads, Phase.hasTable, withinLimit]

theorem emitting_invariant : RunInvariant { writing .wt .endLeaf with answers := [.error 5 0] } := by
  constructor <;> simp [writing, running, State.reset, BitSource.initial, BitSink.initial, ByteSource.initial,
    Phase.reads, Phase.writes, Phase.hasTable, withinLimit]

theorem walking_invariant : RunInvariant (walking ta) := by
  constructor <;> simp [walking, ta, running, State.reset, BitSource.initial, BitSink.initial, ByteSource.initial,
    Phase.reads, Phase.hasTable, withinLimit, subtreeOf]

/-- A fault of each command, and no limits. -/
theorem witness_FaultingStepsLeaveACause :
    (∃ t, RunInvariant (reading .rt []) ∧ (reading .rt []).status = .busy ∧ step (reading .rt []) = .next t ∧
      t.status = .faulted ∧ (reading .rt []).phase.command = some .readTree) ∧
    (∃ t, RunInvariant (walking ta) ∧ step (walking ta) = .next t ∧ t.status = .faulted ∧
      (walking ta).phase.command = some .decompress) ∧
    (∃ t, RunInvariant { writing .wt .endLeaf with answers := [.error 5 0] } ∧
      step { writing .wt .endLeaf with answers := [.error 5 0] } = .next t ∧ t.status = .faulted) ∧
    (∃ t, RunInvariant { encoding .cEmit with cbuf := [0x43] } ∧
      step { encoding .cEmit with cbuf := [0x43] } = .next t ∧ t.status = .faulted) ∧
    ((running .rt).par.maxDepth = none ∧ (running .rt).par.obufMax = none) :=
  ⟨⟨_, reading_nothing_invariant, rfl, rfl, by decide, rfl⟩, ⟨_, walking_invariant, rfl, by decide, rfl⟩,
    ⟨_, emitting_invariant, rfl, by decide⟩, ⟨_, encoding_invariant, rfl, by decide⟩, rfl, rfl⟩

/-- A step on each of the four devices, and the `ReadBits(8)` of a Leaf. -/
theorem witness_DeviceErrorsRaiseIo :
    (({ running .rt with answers := [.error 5 0] } : State).status = .busy ∧
      (running .rt).phase.command = some .readTree ∧ transacts (running .rt) = true ∧
      ({ running .rt with answers := [.error 5 0] } : State).answers = .error 5 0 :: []) ∧
    ((writing .wt ta).phase.command = some .writeTree ∧ transacts (writing .wt ta) = true) ∧
    ((running .cRead).phase.command = some .compress ∧ transacts (running .cRead) = true) ∧
    ((running .dOut).phase.command = some .decompress ∧ transacts (running .dOut) = true) ∧
    (readingOn .rt .zeroOne [false, true]).token = .zeroOne := by decide

/-- At the limit 0, and at a limit of one byte. -/
theorem witness_LimitsRaiseResource :
    (({ running .rt with par := { chunkLessOne := 0, maxDepth := some 0, obufMax := none } } : State).par.maxDepth =
      some 0 ∧ (running .rt).phase.reads = true ∧ 0 ≤ (running .rt).rstack.length) ∧
    ((writing .wt ta).phase.writes = true ∧
      (writing .wt ta).wstack = { sub := .branch (.leaf 0x41) (.branch (.leaf 0x42) .endLeaf), depth := 0 } :: [] ∧
      0 ≤ 0) ∧
    (({ walking (.leaf 0x41) with par := { chunkLessOne := 0, maxDepth := none, obufMax := some 1 }, obuf := [7] } :
      State).par.obufMax = some 1 ∧ (walking (.leaf 0x41)).status = .busy ∧ (walking (.leaf 0x41)).phase = .dWalk ∧
      (walking (.leaf 0x41)).node = some (.leaf 0x41) ∧
      1 ≤ ({ walking (.leaf 0x41) with obuf := [7] } : State).obuf.length) := by decide

theorem witness_FaultedStaysUntilReset :
    ∃ t, ({ faulted with host := [.flushSnk] } : State).status = .faulted ∧
      (∀ h, ({ faulted with host := [.flushSnk] } : State).host ≠ .reset :: h) ∧
      step { faulted with host := [.flushSnk] } = .next t := ⟨_, rfl, by simp, rfl⟩

theorem witness_FaultedRefusesIssueAndLoad :
    faulted.status = .faulted ∧ ({ faulted with host := [.issue 0b01] } : State).host = .issue 0b01 :: [] ∧
      ({ faulted with host := [.loadTree ta] } : State).host = .loadTree ta :: [] := ⟨rfl, rfl, rfl⟩

theorem witness_ResetClearsCoreOnly :
    ({ walking ta with host := [.reset, .readRegs] } : State).host = .reset :: [.readRegs] := rfl

theorem witness_ResetAbandonsTransaction :
    ({ walking ta with answers := [.reset] } : State).answers = .reset :: [] := rfl

theorem witness_HostLoadsAndReadsRegisters :
    (State.reset.status = .ready ∧ ({ State.reset with host := [.loadTree tm] } : State).host = .loadTree tm :: []) ∧
    ((loaded ta []).status = .ready ∧ (loaded ta []).tree = some ta ∧
      ({ loaded ta [] with host := [.readTreeReg] } : State).host = .readTreeReg :: []) ∧
    (State.reset.tree = none ∧ ({ State.reset with host := [.readTreeReg] } : State).host = .readTreeReg :: []) ∧
    ({ faulted with host := [.readRegs] } : State).host = .readRegs :: [] :=
  ⟨⟨rfl, rfl⟩, ⟨rfl, rfl, rfl⟩, ⟨rfl, rfl⟩, rfl⟩

theorem witness_HostOperatesDevices :
    State.reset.status ≠ .busy ∧
      ({ State.reset with host := [.setSrc [true]] } : State).host = .setSrc [true] :: [] ∧
      ({ State.reset with host := [.initSnk] } : State).host = .initSnk :: [] ∧
      ({ State.reset with host := [.setYsrc [1]] } : State).host = .setYsrc [1] :: [] ∧
      ({ State.reset with host := [.initYsnk] } : State).host = .initYsnk :: [] ∧
      ({ State.reset with host := [.flushSnk] } : State).host = .flushSnk :: [] :=
  ⟨by decide, rfl, rfl, rfl, rfl, rfl⟩

theorem witness_StepKeepsInvariant :
    ∃ t, RunInvariant (walking ta) ∧ step (walking ta) = .next t := ⟨_, walking_invariant, rfl⟩

end Sys2Proof.Tests
end

section
/-! ## Bits and bytes (00_scope.md R13): `val` is most significant bit first, and `bits8` is its inverse. -/

namespace Sys2Proof

@[simp] theorem bits8_length (v : Byte) : (bits8 v).length = 8 := rfl

/-- Stream position `k` holds the bit of weight `7 - k`. -/
theorem bits8_getElem? (v : Byte) {k : Nat} (hk : k < 8) : (bits8 v)[k]? = some (v.getLsbD (7 - k)) := by
  interval_cases k <;> rfl

@[simp] theorem val_nil : val [] = 0 := rfl

/-- The loop of `val` started at `n` puts the bits of `s` below `n`. -/
theorem val_loop (s : List Bit) (n : Nat) :
    s.foldl (fun n b => 2 * n + b.toNat) n = n * 2 ^ s.length + val s := by
  induction s generalizing n with
  | nil => simp
  | cons b s ih =>
    have hval : val (b :: s) = (2 * 0 + b.toNat) * 2 ^ s.length + val s := ih _
    rw [List.foldl_cons, ih, hval, List.length_cons]
    ring

/-- The first bit is the most significant one. -/
theorem val_cons (b : Bit) (s : List Bit) : val (b :: s) = b.toNat * 2 ^ s.length + val s := by
  rw [val, List.foldl_cons, val_loop, Nat.mul_zero, Nat.zero_add]

theorem val_lt (s : List Bit) : val s < 2 ^ s.length := by
  induction s with
  | nil => simp
  | cons b s ih =>
    rw [val_cons, List.length_cons, Nat.pow_succ]
    cases b <;> simp <;> omega

/-- A bit sequence is known from its length and its value. -/
theorem eq_of_val_eq {s t : List Bit} (hlen : s.length = t.length) (hval : val s = val t) : s = t := by
  induction s generalizing t with
  | nil => exact (List.length_eq_zero_iff.mp hlen.symm).symm
  | cons b s ih =>
    cases t with
    | nil => cases hlen
    | cons c t =>
      have hlen' : s.length = t.length := Nat.succ.inj hlen
      have hs := val_lt s
      have ht := val_lt t
      rw [val_cons, val_cons, hlen'] at hval
      rw [hlen'] at hs
      -- A first bit 1 weighs more than all the bits after it.
      have hbc : b = c := by cases b <;> cases c <;> simp at hval ⊢ <;> omega
      subst hbc
      rw [ih hlen' (Nat.add_left_cancel hval)]

/-- Eight bits lose nothing when they are made a byte. -/
theorem byteOf_toNat {s : List Bit} (hlen : s.length = 8) : (byteOf s).toNat = val s := by
  have h := val_lt s
  rw [hlen] at h
  exact Nat.mod_eq_of_lt h

theorem val_bits8 (v : Byte) : val (bits8 v) = v.toNat := by
  rw [← byteOf_toNat (bits8_length v), Laws.byteOf_bits8]

theorem bits8_byteOf {s : List Bit} (hlen : s.length = 8) : bits8 (byteOf s) = s :=
  eq_of_val_eq hlen.symm (by rw [val_bits8, byteOf_toNat hlen])

/-- Settles O7: the order of the bits is read off `bits8` and `val_cons`; the two inverses come from each other, as the value
of a bit sequence determines it. -/
theorem byteBitsMostSignificantFirst : Obligations.ByteBitsMostSignificantFirst :=
  ⟨fun v => ⟨bits8_length v, fun _ hk => bits8_getElem? v hk⟩, val_nil, val_cons, val_bits8, fun _ => bits8_byteOf⟩

end Sys2Proof
end

section
/-! ## The turn of a running command (10_state.md R29, R33, 20_memory.md R69) -/

namespace Sys2Proof.Machine

/-- In `BUSY` the turn is CORE's own, unless the host lets a step pass or takes an action it may take at any time. -/
theorem turn_eq_coreTurn {s : State} (hs : s.status = .busy)
    (hhost : ∀ a h, s.host = a :: h → a ≠ .tick ∧ a.anyTime = false) : turn s = coreTurn s := by
  cases hq : s.host with
  | nil => simp [turn, hq]
  | cons a h =>
    obtain ⟨htick, hany⟩ := hhost a h hq
    simp [turn, hq, htick, hs, hany]

section
variable {s : State} {i : Instr} (hs : s.status = .busy) (hc : s.phase.command = some i)
include hs hc

/-- A step without a transaction never waits. -/
theorem coreTurn_of_not_transacts (ht : transacts s = false) : coreTurn s = .run i s := by
  simp [coreTurn, hs, hc, ht]

theorem coreTurn_of_waits_nil (hw : s.waits = []) : coreTurn s = .run i s := by
  simp [coreTurn, hs, hc, hw]

/-- A wait that is over is used up by the transaction it was for. -/
theorem coreTurn_of_wait_over {w : List (Option Nat)} (ht : transacts s = true) (hw : s.waits = some 0 :: w) :
    coreTurn s = .run i { s with waits := w } := by
  simp [coreTurn, hs, hc, ht, hw]

end

/-- Settles O17: the turn is CORE's own, and in each of the three cases it runs the command. -/
theorem stepContinuesRunningCommand : Obligations.StepContinuesRunningCommand := by
  intro s i hs hc hhost
  have hturn := turn_eq_coreTurn hs hhost
  exact ⟨fun ht => step_of_run (hturn.trans (coreTurn_of_not_transacts hs hc ht)),
    fun hw => step_of_run (hturn.trans (coreTurn_of_waits_nil hs hc hw)),
    fun _ ht hw => step_of_run (hturn.trans (coreTurn_of_wait_over hs hc ht hw))⟩

end Sys2Proof.Machine
end

section
/-! ## Raising a fault (60_exceptions.md R226) -/

namespace Sys2Proof.Machine

/-- The phases that drop `TREE` are those of the commands R37 names. -/
theorem Phase.dropsTree_iff (p : Phase) :
    p.dropsTree = true ↔ p.command = some .readTree ∨ p.command = some .decompress := by
  cases p <;> decide

/-- A fault of `READ_TREE` or `DECOMPRESS` leaves no tree (R37). -/
theorem raise_tree_of_reader (f : FaultCause) (info : BitVec 9) {s : State}
    (hc : s.phase.command = some .readTree ∨ s.phase.command = some .decompress) : (raise f info s).tree = none := by
  rw [raise_tree, if_pos ((Phase.dropsTree_iff _).mpr hc)]

/-- A fault of `WRITE_TREE` or `COMPRESS` keeps the tree (R37). -/
theorem raise_tree_of_writer (f : FaultCause) (info : BitVec 9) {s : State}
    (hc : s.phase.command = some .writeTree ∨ s.phase.command = some .compress) : (raise f info s).tree = s.tree := by
  have hkeep : ¬ s.phase.dropsTree = true := by
    rw [Phase.dropsTree_iff]
    rcases hc with hc | hc <;> simp [hc]
  rw [raise_tree, if_neg hkeep]

/-- Settles O48: field by field from the laws of `raise`; `TREE` by the command that runs. -/
theorem raiseClearsWorkingState : Obligations.RaiseClearsWorkingState := by
  intro f info s
  refine ⟨raise_status f info s, raise_info f info s, ?cause, raise_phase f info s, raise_rstack f info s,
    raise_wstack f info s, raise_node f info s, raise_obuf f info s, raise_cbuf f info s, raise_ct f info s,
    raise_token f info s, raise_tree_of_reader f info, raise_tree_of_writer f info, raise_src f info s,
    raise_snk f info s, raise_ysrc f info s, raise_ysnk f info s, raise_trace f info s⟩
  case cause => cases f <;> rfl

end Sys2Proof.Machine
end

section
/-! ## What one step can do to the state of CORE (00_scope.md R6, 10_state.md R29)

A step is taken apart in three layers. The host's queue, the waits and the logs move first (`QueueMoved`); then at most
one device moves (`DevicesMoved`); then CORE's own state changes by one `CoreMove`, or a fault is raised. -/

namespace Sys2Proof.Machine

/-- The devices' cursors and counters are in range (R51, R54, R59, R72). -/
structure DevicesInRange (src : BitSource) (snk : BitSink) (ysrc : ByteSource) : Prop where
  src_cursor : src.pos ≤ src.data.length
  ysrc_cursor : ysrc.pos ≤ ysrc.data.length
  off_counts : snk.off.toNat = snk.bits.length % 8
  delivered_whole : snk.delivered ≤ snk.bits.length / 8

/-- `u` is `s` with other actions, waits and logs of the host, and perhaps another `CMD`. -/
def QueueMoved (s u : State) : Prop :=
  u = { s with cmd := u.cmd, host := u.host, waits := u.waits, hostLog := u.hostLog }

/-- `u` is `s` after something happened to the devices only: they stay in range, and an aligned sink under a flush stays
aligned. -/
structure DevicesMoved (s u : State) : Prop where
  frame : u = { s with
    src := u.src, snk := u.snk, ysrc := u.ysrc, ysnk := u.ysnk, answers := u.answers, asked := u.asked, trace := u.trace }
  in_range : DevicesInRange s.src s.snk s.ysrc → DevicesInRange u.src u.snk u.ysrc
  aligned : s.phase = .cFlush → s.snk.off = 0 → u.snk.off = 0

/-- Every change of CORE's own state but a fault. -/
inductive CoreMove (u : State) : State → Prop where
  | stays : CoreMove u u
  | reset : CoreMove u (applyReset u)
  | treeLoaded (hs : u.status = .ready) (T : Tree) : CoreMove u { u with tree := some T }
  | readingStarts (hs : u.status = .ready) {p : Phase} (hp : p.reads = true) : CoreMove u (startReading p u)
  | writingStarts (hs : u.status = .ready) {p : Phase} (hp : p.writes = true) {T : Tree} (ht : u.tree = some T) :
      CoreMove u
        { u with
          status := .busy, phase := p, wstack := [{ sub := T, depth := 0 }], cbuf := [], code := none, token := .start }
  /-- The running command completes; only the commands that parse change `TREE` with it (R37). -/
  | finished (hs : u.status = .busy) (T : Option Tree) : CoreMove u (finish { u with tree := T })
  /-- A token of a parse comes further, or takes effect on `RSTACK`. -/
  | parsed (hp : u.phase.reads = true) (k : TokenPart) {r : List RFrame}
      (hr : withinLimit u.par.maxDepth u.rstack.length = true → withinLimit u.par.maxDepth r.length = true) :
      CoreMove u { u with token := k, rstack := r }
  | walkStarts (hp : u.phase = .dTree) (hs : u.status = .busy) (T : Tree) :
      CoreMove u { u with token := .start, tree := some T, node := some T, rstack := [], phase := .dWalk }
  /-- A token of an emission comes further, or gives way to what is left to emit. -/
  | emitted (hp : u.phase.writes = true) {k : TokenPart} {w : List WFrame}
      (hk : k ≠ .start → ∃ f v, w = f :: v ∧ k.moved <+: tokenBits (tokenOf f.sub)) :
      CoreMove u { u with token := k, wstack := w }
  | described (hp : u.phase = .cTree) (hs : u.status = .busy) :
      CoreMove u { u with wstack := [], token := .start, phase := .cTable }
  /-- `NODE` goes to the root or to a child, and a byte may go to `OBUF`. -/
  | walked (hp : u.phase = .dWalk) {n : Option Tree} {o : List Byte}
      (hn : n = u.tree ∨ ∃ l r, u.node = some (.branch l r) ∧ (n = some l ∨ n = some r))
      (ho : withinLimit u.par.obufMax u.obuf.length = true → withinLimit u.par.obufMax o.length = true) :
      CoreMove u { u with obuf := o, node := n }
  | walkEnds (hp : u.phase = .dWalk) (hs : u.status = .busy) : CoreMove u { u with phase := .dOut, node := none }
  | tableDerived (hp : u.phase = .cTable) (hs : u.status = .busy) {T : Tree} (ht : u.tree = some T) :
      CoreMove u { u with ct := some (tableOf T), phase := .cRead }
  /-- `COMPRESS` goes on with its table. -/
  | encoded (hs : u.status = .busy) (hp : u.phase.hasTable = true) {p : Phase} (hp' : p.hasTable = true)
      {c : Option Code} {b : List Byte}
      (hc : (u.code ≠ none → u.phase = .cEmit ∨ u.phase = .cEom) → c ≠ none → p = .cEmit ∨ p = .cEom)
      (hb : (u.cbuf ≠ [] → u.phase = .cEmit) → b ≠ [] → p = .cEmit) (hoff : p = .cFlush → u.snk.off = 0) :
      CoreMove u { u with code := c, cbuf := b, phase := p }

/-- The causes that R216 lists, with what each presupposes of the state that raises it. -/
def MayRaise (u : State) : FaultCause → Prop
  | .streamExhausted => u.phase.command = some .readTree ∨ u.phase.command = some .decompress
  | .missingCode => u.phase.command = some .compress
  | .noTree => u.tree = none ∧ (u.status = .busy → u.phase.reads = false)
  | .io => True
  | .resource => u.par.maxDepth ≠ none ∨ u.par.obufMax ≠ none

/-- Everything an instruction, or the host in its place, can do: the devices move, then CORE does, or a fault is raised
with the output sink as it was (R177, R227). -/
inductive ExecsTo (s : State) : State → Prop where
  | moved {u t : State} (m : DevicesMoved s u) (h : CoreMove u t) : ExecsTo s t
  | raised {u : State} (m : DevicesMoved s u) (hy : u.ysnk.data = s.ysnk.data) {f : FaultCause} (hf : MayRaise u f)
      (info : BitVec 9) : ExecsTo s (raise f info u)

/-! ### The layers' own rules -/

theorem QueueMoved.status {s u : State} (q : QueueMoved s u) : u.status = s.status := by rw [q]
theorem QueueMoved.phase {s u : State} (q : QueueMoved s u) : u.phase = s.phase := by rw [q]
theorem QueueMoved.tree {s u : State} (q : QueueMoved s u) : u.tree = s.tree := by rw [q]
theorem QueueMoved.par {s u : State} (q : QueueMoved s u) : u.par = s.par := by rw [q]
theorem QueueMoved.ysnk {s u : State} (q : QueueMoved s u) : u.ysnk = s.ysnk := by rw [q]

theorem DevicesMoved.status {s u : State} (m : DevicesMoved s u) : u.status = s.status := by rw [m.frame]
theorem DevicesMoved.phase {s u : State} (m : DevicesMoved s u) : u.phase = s.phase := by rw [m.frame]
theorem DevicesMoved.tree {s u : State} (m : DevicesMoved s u) : u.tree = s.tree := by rw [m.frame]
theorem DevicesMoved.node {s u : State} (m : DevicesMoved s u) : u.node = s.node := by rw [m.frame]
theorem DevicesMoved.par {s u : State} (m : DevicesMoved s u) : u.par = s.par := by rw [m.frame]
theorem DevicesMoved.wstack {s u : State} (m : DevicesMoved s u) : u.wstack = s.wstack := by rw [m.frame]
theorem DevicesMoved.host {s u : State} (m : DevicesMoved s u) : u.host = s.host := by rw [m.frame]

theorem DevicesMoved.refl (s : State) : DevicesMoved s s := ⟨rfl, id, fun _ h => h⟩

theorem SrcMoved.devicesMoved {s u : State} (m : SrcMoved s u) : DevicesMoved s u where
  frame := by rw [m.frame]
  in_range d := by
    rw [m.frame]
    exact { d with src_cursor := m.in_range d.src_cursor }
  aligned _ h := by
    rw [m.frame]
    exact h

theorem SnkMoved.devicesMoved {s u : State} (m : SnkMoved s u) (hp : s.phase ≠ .cFlush) : DevicesMoved s u where
  frame := by rw [m.frame]
  in_range d := by
    rw [m.frame]
    exact { d with off_counts := m.counted d.off_counts, delivered_whole := m.whole d.delivered_whole }
  aligned h := absurd h hp

theorem SrcMoved.ysnk {s u : State} (m : SrcMoved s u) : u.ysnk = s.ysnk := by rw [m.frame]
theorem SnkMoved.ysnk {s u : State} (m : SnkMoved s u) : u.ysnk = s.ysnk := by rw [m.frame]

/-- A command that its device ended was faulted by it or reset. -/
theorem ExecsTo.of_endedAs {allowed : FaultCause → Prop} {s u t : State} (m : DevicesMoved s u)
    (hy : u.ysnk = s.ysnk) (hf : ∀ f, allowed f → MayRaise u f) (e : EndedAs allowed u t) : ExecsTo s t := by
  obtain ⟨f, info, ha, rfl⟩ | rfl := e
  · exact .raised m (by rw [hy]) (hf f ha) info
  · exact .moved m .reset

/-! ### Transactions -/

/-- A transaction that the host resets away resets CORE (R250). -/
theorem abandoned_execsTo (s : State) : ExecsTo s (abandoned s) :=
  .moved (u := { s with answers := s.answers.tail }) ⟨rfl, id, fun _ h => h⟩ .reset

/-- A device error ends the command, with the output sink as it was (R221, R227). -/
theorem ioError_execsTo {s u : State} (m : DevicesMoved s u) (hy : u.ysnk.data = s.ysnk.data) (d : Device) :
    ExecsTo s (raise .io d.number u) :=
  .raised m hy (f := .io) trivial d.number

/-- Whatever next state a result holds, `s` comes to it by an execution. -/
def Runs (s : State) (x : Result) : Prop := ∀ t, x = .next t → ExecsTo s t

theorem Runs.next {s t : State} (h : ExecsTo s t) : Runs s (.next t) := by
  rintro _ ⟨⟩
  exact h

/-- A transaction moves the devices and returns, or ends the command. -/
def Tx.Runs {α : Type} (s : State) (x : Tx α) : Prop :=
  (∃ a u, x = .done a u ∧ DevicesMoved s u) ∨ (∃ t, x = .ended t ∧ ExecsTo s t)

theorem Tx.Runs.andThen {α : Type} {s : State} {x : Tx α} {k : α → State → Result} (h : x.Runs s)
    (hk : ∀ a u, DevicesMoved s u → Machine.Runs s (k a u)) : Machine.Runs s (x.andThen k) := by
  obtain ⟨a, u, rfl, m⟩ | ⟨t, rfl, ht⟩ := h
  · exact hk a u m
  · exact .next ht

/-- The two commands that read bits may run out of them (R216). -/
theorem mayRaise_of_reads_bits {u : State}
    (hc : u.phase.command = some .readTree ∨ u.phase.command = some .decompress) :
    ∀ f, f = .streamExhausted ∨ f = .io → MayRaise u f := by
  rintro f (rfl | rfl)
  · exact hc
  · trivial

theorem readBit_runs (info : BitVec 9) {s : State}
    (hc : s.phase.command = some .readTree ∨ s.phase.command = some .decompress) : (readBit info s).Runs s := by
  rcases readBit_moves info s with ⟨b, u, h, m⟩ | ⟨t, u, h, m, e⟩
  · exact .inl ⟨b, u, h, m.devicesMoved⟩
  · have d := m.devicesMoved
    exact .inr ⟨t, h, .of_endedAs d m.ysnk (mayRaise_of_reads_bits (by rwa [d.phase])) e⟩

theorem accept_runs (c : Call) (bs : List Bit) {s : State} (hp : s.phase ≠ .cFlush) :
    (sinkTransaction c (fun choice d => d.accept bs choice) s).Runs s := by
  rcases accept_moves c bs s with ⟨u, h, m⟩ | ⟨t, u, h, m, -, e⟩
  · exact .inl ⟨(), u, h, m.devicesMoved hp⟩
  · exact .inr ⟨t, h, .of_endedAs (m.devicesMoved hp) m.ysnk (by rintro f rfl; trivial) e⟩

theorem writeBit_runs (b : Bit) {s : State} (hp : s.phase ≠ .cFlush) : (writeBit b s).Runs s :=
  accept_runs (.writeBit b) [b] hp

theorem writeBits8_runs (v : Byte) {s : State} (hp : s.phase ≠ .cFlush) : (writeBits8 v s).Runs s :=
  accept_runs (.writeBits8 v) (bits8 v) hp

theorem flush_runs (s : State) : (flush s).Runs s := by
  rcases sinkTransaction_cases .flush (fun _ d => d.flushed) s with ⟨c, -, h⟩ | ⟨e, c, -, h⟩ | ⟨-, h⟩
  · refine .inl ⟨_, _, h, rfl, fun d => ?_, fun _ _ => rfl⟩
    obtain ⟨-, hoff, hdelivered⟩ := flushed_counts s.snk d.off_counts
    exact { d with off_counts := hoff, delivered_whole := hdelivered }
  · refine .inr ⟨_, h, ioError_execsTo ?_ ?_ .bitsnk⟩
    · exact ⟨rfl, fun d => { d with }, fun _ h => h⟩
    · rfl
  · exact .inr ⟨_, h, abandoned_execsTo s⟩

/-- What a `ReadBytes` returns was left in the source. -/
theorem chunk_length_le (d : ByteSource) (max choice : Nat) : (d.chunk max choice).length ≤ d.data.length - d.pos := by
  simp [ByteSource.chunk, ByteSource.left]

theorem readBytes_runs (max : Nat) (s : State) : (readBytes max s).Runs s := by
  rcases readBytes_cases max s with ⟨c, -, h⟩ | ⟨e, c, -, h⟩ | ⟨-, h⟩
  · refine .inl ⟨_, _, h, rfl, fun d => { d with ysrc_cursor := ?_ }, fun _ h => h⟩
    have hcursor := d.ysrc_cursor
    have hchunk := chunk_length_le s.ysrc max c
    simp only
    omega
  · refine .inr ⟨_, h, ioError_execsTo ?_ ?_ .bytesrc⟩
    · exact ⟨rfl, fun d => { d with }, fun _ h => h⟩
    · rfl
  · exact .inr ⟨_, h, abandoned_execsTo s⟩

theorem writeBytes_runs (seq : List Byte) (s : State) : (writeBytes seq s).Runs s := by
  rcases writeBytes_cases seq s with ⟨c, -, h⟩ | ⟨e, c, -, h⟩ | ⟨-, h⟩
  · exact .inl ⟨_, _, h, rfl, id, fun _ h => h⟩
  · refine .inr ⟨_, h, ioError_execsTo ?_ ?_ .bytesnk⟩
    · exact ⟨rfl, id, fun _ h => h⟩
    · rfl
  · exact .inr ⟨_, h, abandoned_execsTo s⟩

/-! ### Phases and limits -/

theorem Phase.reads_iff (p : Phase) : p.reads = true ↔ p = .rt ∨ p = .dTree := by cases p <;> decide

theorem Phase.writes_iff (p : Phase) : p.writes = true ↔ p = .wt ∨ p = .cTree := by cases p <;> decide

theorem Phase.command_of_reads {p : Phase} (hp : p.reads = true) :
    p.command = some .readTree ∨ p.command = some .decompress := by
  rcases p.reads_iff.mp hp with rfl | rfl
  · exact .inl rfl
  · exact .inr rfl

/-- No phase both parses and emits. -/
theorem Phase.reads_of_writes {p : Phase} (hp : p.writes = true) : p.reads = false := by
  rcases p.writes_iff.mp hp with rfl | rfl <;> rfl

theorem Phase.ne_cFlush_of_writes {p : Phase} (hp : p.writes = true) : p ≠ .cFlush := by
  rintro rfl
  cases hp

theorem withinLimit_mono {limit : Option Nat} {m n : Nat} (hmn : m ≤ n) (h : withinLimit limit n = true) :
    withinLimit limit m = true := by
  cases limit with
  | none => rfl
  | some k => exact decide_eq_true (hmn.trans (of_decide_eq_true h))

theorem limited_of_not_withinLimit {limit : Option Nat} {n : Nat} (h : ¬ withinLimit limit n = true) :
    limit ≠ none := by
  rintro rfl
  exact h rfl

/-- A size beyond `MAX_DEPTH` faults a step that has not moved the output sink (R223). -/
theorem depthFault_execsTo {s u : State} (m : DevicesMoved s u) (hy : u.ysnk = s.ysnk) {n : Nat}
    (hn : ¬ withinLimit u.par.maxDepth n = true) : ExecsTo s (raise .resource 0 u) :=
  .raised m (by rw [hy]) (f := .resource) (.inl (limited_of_not_withinLimit hn)) 0

/-! ### The reader -/

/-- A completed subtree completes the description, or leaves a shorter stack with its innermost Branch half done. -/
theorem handUp_cases (s : State) (t : Tree) (r : List RFrame) :
    (∃ T, handUp s t r = treeRead T s) ∨
    ∃ l r', r'.length < r.length ∧ handUp s t r = { s with rstack := .needRight l :: r' } := by
  obtain ⟨ls, rfl | ⟨r', rfl⟩⟩ := rstack_shape r
  · exact .inl ⟨closeBranches t ls, by simpa [handUp] using handUp_closes s ls t []⟩
  · refine .inr ⟨closeBranches t ls, r', ?_, by simpa [handUp] using handUp_closes s ls t (.needLeft :: r')⟩
    simp
    omega

theorem treeRead_moves {u : State} (hs : u.status = .busy) (T : Tree) :
    CoreMove u (treeRead T { u with token := .start }) := by
  by_cases hp : u.phase = .dTree
  · have h := CoreMove.walkStarts hp hs T
    simpa [treeRead, hp] using h
  · have h := CoreMove.finished hs (some T)
    simpa [treeRead, hp, finish] using h

theorem handUp_moves {u : State} (hs : u.status = .busy) (hp : u.phase.reads = true) (T : Tree) :
    CoreMove u (handUp { u with token := .start } T u.rstack) := by
  rcases handUp_cases { u with token := .start } T u.rstack with ⟨T', h⟩ | ⟨l, r, hlen, h⟩
  · rw [h]
    exact treeRead_moves hs T'
  · rw [h]
    exact .parsed hp .start (withinLimit_mono hlen)

theorem readOneToken_runs {s : State} (hs : s.status = .busy) (hp : s.phase.reads = true) :
    Runs s (readOneToken s) := by
  obtain ⟨t, u, ht, m, hcases⟩ := readOneToken_cases hp
  rw [ht]
  have d := m.devicesMoved
  have hus : u.status = .busy := d.status.trans hs
  have hup : u.phase.reads = true := by rw [d.phase]; exact hp
  refine .next ?_
  rcases hcases with ⟨k, rfl⟩ | rfl | ⟨T, -, rfl⟩ | e
  · exact .moved d (.parsed hup k id)
  · by_cases hfit : withinLimit u.par.maxDepth (u.rstack.length + 1) = true
    · have hbranch : readBranch { u with token := .start } =
          { u with token := .start, rstack := .needLeft :: u.rstack } := by simp [readBranch, hfit]
      rw [hbranch]
      exact .moved d (.parsed hup .start fun _ => hfit)
    · have hbranch : readBranch { u with token := .start } = raise .resource 0 u := by
        simp [readBranch, hfit, raise]
      rw [hbranch]
      exact depthFault_execsTo d m.ysnk hfit
  · exact .moved d (handUp_moves hus hup T)
  · exact .of_endedAs d m.ysnk (mayRaise_of_reads_bits (Phase.command_of_reads hup)) e

/-! ### The writer -/

theorem treeWritten_moves {u : State} (hs : u.status = .busy) : CoreMove u (treeWritten u) := by
  by_cases hp : u.phase = .cTree
  · have h := CoreMove.described hp hs
    simpa [treeWritten, hp] using h
  · have h := CoreMove.finished hs u.tree
    simpa [treeWritten, hp] using h

theorem emitted_moves {u : State} (hs : u.status = .busy) (hp : u.phase.writes = true) (w : List WFrame) :
    CoreMove u (emitted w u) := by
  cases w with
  | nil => exact treeWritten_moves hs
  | cons f r => exact .emitted hp (fun h => absurd rfl h)

section
variable {s : State} (hs : s.status = .busy) (hp : s.phase.writes = true)
include hp

/-- A discriminant bit of the next subtree's token goes out (log 30). -/
theorem writePart_runs (b : Bit) {k : TokenPart} {f : WFrame} {w : List WFrame} (hw : s.wstack = f :: w)
    (hk : k.moved <+: tokenBits (tokenOf f.sub)) : Runs s (writePart b k s) := by
  refine (writeBit_runs b (Phase.ne_cFlush_of_writes hp)).andThen fun _ u m => .next (.moved m ?_)
  exact .emitted (by rw [m.phase]; exact hp) fun _ => ⟨f, w, m.wstack.trans hw, hk⟩

include hs

/-- The last transaction of a token goes out, and its subtree gives way to what is left. -/
theorem lastWrite_runs {x : Tx Unit} (hx : x.Runs s) (w : List WFrame) :
    Runs s (x.andThen fun _ u => .next (emitted w u)) :=
  hx.andThen fun _ _ m => .next (.moved m (emitted_moves (m.status.trans hs) (by rw [m.phase]; exact hp) w))

theorem writeBranch_runs {l r : Tree} {d : Nat} {w : List WFrame}
    (hw : s.wstack = { sub := .branch l r, depth := d } :: w) : Runs s (writeBranch s) := by
  by_cases hfit : withinLimit s.par.maxDepth (d + 1) = true
  · simp only [writeBranch, hw, hfit, if_true]
    exact lastWrite_runs hs hp (writeBit_runs true (Phase.ne_cFlush_of_writes hp)) _
  · simp only [writeBranch, hw, hfit]
    exact .next (depthFault_execsTo (.refl s) rfl hfit)

theorem writeLeaf_runs {v : Byte} {d : Nat} {w : List WFrame}
    (hw : s.wstack = { sub := .leaf v, depth := d } :: w) : Runs s (writeLeaf v s) := by
  cases hk : s.token with
  | start =>
    simp only [writeLeaf, hw, hk, if_true]
    exact writePart_runs hp false hw ⟨true :: bits8 v, rfl⟩
  | zero =>
    simp only [writeLeaf, hw, hk, if_true]
    exact writePart_runs hp true hw ⟨bits8 v, rfl⟩
  | zeroOne =>
    simp only [writeLeaf, hw, hk, if_true]
    exact lastWrite_runs hs hp (writeBits8_runs v (Phase.ne_cFlush_of_writes hp)) w

theorem writeEnd_runs {d : Nat} {w : List WFrame} (hw : s.wstack = { sub := .endLeaf, depth := d } :: w) :
    Runs s (writeEnd s) := by
  have hlast := lastWrite_runs hs hp (writeBit_runs false (Phase.ne_cFlush_of_writes hp)) w
  cases hk : s.token with
  | start =>
    simp only [writeEnd, hw, hk]
    exact writePart_runs hp false hw ⟨[false], rfl⟩
  | zero => simpa only [writeEnd, hw, hk] using hlast
  | zeroOne => simpa only [writeEnd, hw, hk] using hlast

theorem writeOneToken_runs : Runs s (writeOneToken s) := by
  have hr : s.phase.reads = false := Phase.reads_of_writes hp
  cases hw : s.wstack with
  | nil =>
    simp only [writeOneToken, hw]
    exact .next (.moved (.refl s) (treeWritten_moves hs))
  | cons f w =>
    obtain ⟨sub, d⟩ := f
    cases sub with
    | branch l r => simpa [writeOneToken, hw, tokenOf, execToken, execBranch, hr, hp] using writeBranch_runs hs hp hw
    | leaf v => simpa [writeOneToken, hw, tokenOf, execToken, execLeaf, hr, hp] using writeLeaf_runs hs hp hw
    | endLeaf => simpa [writeOneToken, hw, tokenOf, execToken, execEndLeaf, hr, hp] using writeEnd_runs hs hp hw

end

/-! ### `DECOMPRESS` after the description -/

theorem walk_runs {s : State} (hs : s.status = .busy) (hp : s.phase = .dWalk) : Runs s (walk s) := by
  have hc : s.phase.command = some .decompress := by rw [hp]; rfl
  unfold walk
  split
  next hnode =>
    split
    next ht => exact .next (.raised (.refl s) rfl (f := .noTree) ⟨ht, fun _ => by rw [hp]; rfl⟩ 0)
    next T ht => exact .next (.moved (.refl s) (.walked hp (.inl ht.symm) id))
  next l r hnode =>
    refine (readBit_runs _ (.inr hc)).andThen fun b u m => .next (.moved m ?_)
    refine .walked (m.phase.trans hp) (.inr ⟨l, r, m.node.trans hnode, ?_⟩) id
    cases b
    · exact .inl rfl
    · exact .inr rfl
  next v hnode =>
    split
    next hfit =>
      refine .next (.moved (.refl s) (.walked hp (.inl rfl) fun _ => ?_))
      simpa using hfit
    next hfit =>
      exact .next (.raised (.refl s) rfl (f := .resource) (.inr (limited_of_not_withinLimit hfit)) 1)
  next hnode => exact .next (.moved (.refl s) (.walkEnds hp hs))

theorem deliver_runs {s : State} (hs : s.status = .busy) : Runs s (deliver s) :=
  (writeBytes_runs s.obuf s).andThen fun _ _ m => .next (.moved m (.finished (m.status.trans hs) none))

/-! ### `COMPRESS` after the description -/

theorem deriveTable_execsTo {s : State} (hs : s.status = .busy) (hp : s.phase = .cTable) :
    ExecsTo s (deriveTable s) := by
  unfold deriveTable
  split
  next ht => exact .raised (.refl s) rfl (f := .noTree) ⟨ht, fun _ => by rw [hp]; rfl⟩ 0
  next T ht =>
    split
    next => exact .moved (.refl s) (.tableDerived hp hs ht)
    next hfit => exact depthFault_execsTo (.refl s) rfl hfit

/-- A missing code is a fault of `COMPRESS`; the byte taken from `CBUF` for the lookup is then gone with it (R226). -/
theorem lookUp_execsTo {s : State} (hs : s.status = .busy) (hp : s.phase = .cEmit ∨ s.phase = .cEom) (sym : Sym)
    {b : List Byte} (hb : b = s.cbuf ∨ s.phase = .cEmit) : ExecsTo s (lookUp sym { s with cbuf := b }) := by
  have htable : s.phase.hasTable = true := by rcases hp with hp | hp <;> rw [hp] <;> rfl
  have hoff : s.phase = .cFlush → s.snk.off = 0 := by rcases hp with hp | hp <;> simp [hp]
  unfold lookUp
  split
  next =>
    have hc : s.phase.command = some .compress := by rcases hp with hp | hp <;> rw [hp] <;> rfl
    exact .raised (.refl s) rfl (f := .missingCode) hc _
  next c _ =>
    refine .moved (.refl s) (.encoded hs htable htable (fun _ _ => hp) (fun hold hne => ?_) hoff)
    rcases hb with rfl | hb
    · exact hold hne
    · exact hb

theorem emitBit_runs {s : State} (hs : s.status = .busy) (hp : s.phase = .cEmit ∨ s.phase = .cEom) (b : Bit)
    (rest : Code) : Runs s (emitBit b rest s) := by
  have hne : s.phase ≠ .cFlush := by rcases hp with hp | hp <;> simp [hp]
  have htable : s.phase.hasTable = true := by rcases hp with hp | hp <;> rw [hp] <;> rfl
  refine (writeBit_runs b hne).andThen fun _ u m => .next (.moved m ?_)
  rw [← m.phase] at hp hne htable
  exact .encoded (m.status.trans hs) htable htable (fun _ _ => hp) id fun h => absurd h hne

section
variable {s : State} (hs : s.status = .busy)
include hs

theorem readChunk_runs (hp : s.phase = .cRead) : Runs s (readChunk s) := by
  refine (readBytes_runs _ s).andThen fun r u m => ?_
  have hup : u.phase = .cRead := m.phase.trans hp
  have hus : u.status = .busy := m.status.trans hs
  have htable : u.phase.hasTable = true := by rw [hup]; rfl
  cases r with
  | nil => exact .next (.moved m (.encoded hus htable rfl (by simp [hup]) (by simp) (by simp)))
  | cons x xs => exact .next (.moved m (.encoded hus htable rfl (by simp [hup]) (by simp) (by simp)))

theorem emitChunk_runs (hp : s.phase = .cEmit) : Runs s (emitChunk s) := by
  have htable : s.phase.hasTable = true := by rw [hp]; rfl
  unfold emitChunk
  split
  next b rest _ => exact emitBit_runs hs (.inl hp) b rest
  next => exact .next (.moved (.refl s) (.encoded hs htable htable (by simp) (fun h => h) (by simp [hp])))
  next hcode =>
    split
    next hbuf => exact .next (.moved (.refl s) (.encoded hs htable rfl (by simp [hcode]) (by simp [hbuf]) (by simp)))
    next x xs _ => exact .next (lookUp_execsTo hs (.inl hp) (.byte x) (.inr hp))

theorem emitEom_runs (hp : s.phase = .cEom) : Runs s (emitEom s) := by
  have htable : s.phase.hasTable = true := by rw [hp]; rfl
  unfold emitEom
  split
  next b rest _ => exact emitBit_runs hs (.inr hp) b rest
  next => exact .next (.moved (.refl s) (.encoded hs htable rfl (by simp) (by simp [hp]) (by simp)))
  next => exact .next (lookUp_execsTo hs (.inr hp) .eom (.inl rfl))

theorem padStep_runs (hp : s.phase = .cPad) : Runs s (padStep s) := by
  have htable : s.phase.hasTable = true := by rw [hp]; rfl
  unfold padStep
  split
  next hoff =>
    exact .next (.moved (.refl s) (.encoded hs htable rfl (by simp [hp]) (by simp [hp]) fun _ => hoff))
  next => exact (writeBit_runs false (by simp [hp])).andThen fun _ _ m => .next (.moved m .stays)

theorem flushStep_runs : Runs s (flushStep s) :=
  (flush_runs s).andThen fun _ u m => .next (.moved m (.finished (m.status.trans hs) u.tree))

end

/-! ### Instructions, turns and steps -/

section
variable {s : State}

/-- The step of a running command, by its phase (R29). -/
def phaseStep (s : State) : Result :=
  match s.phase with
  | .idle => .refused .issueWhileBusy
  | .rt => readOneToken s
  | .wt => writeOneToken s
  | .dTree => readOneToken s
  | .dWalk => walk s
  | .dOut => deliver s
  | .cTree => writeOneToken s
  | .cTable => .next (deriveTable s)
  | .cRead => readChunk s
  | .cEmit => emitChunk s
  | .cEom => emitEom s
  | .cPad => padStep s
  | .cFlush => flushStep s

theorem phaseStep_runs (hs : s.status = .busy) : Runs s (phaseStep s) := by
  cases hp : s.phase <;> simp only [phaseStep, hp]
  case idle => rintro _ ⟨⟩
  case rt => exact readOneToken_runs hs (by rw [hp]; rfl)
  case wt => exact writeOneToken_runs hs (by rw [hp]; rfl)
  case dTree => exact readOneToken_runs hs (by rw [hp]; rfl)
  case dWalk => exact walk_runs hs hp
  case dOut => exact deliver_runs hs
  case cTree => exact writeOneToken_runs hs (by rw [hp]; rfl)
  case cTable => exact .next (deriveTable_execsTo hs hp)
  case cRead => exact readChunk_runs hs hp
  case cEmit => exact emitChunk_runs hs hp
  case cEom => exact emitEom_runs hs hp
  case cPad => exact padStep_runs hs hp
  case cFlush => exact flushStep_runs hs

/-- A command handed to `exec` while it runs goes on by the step of its phase. -/
theorem exec_eq_phaseStep {i : Instr} (hs : s.status = .busy) (hc : s.phase.command = some i) :
    exec i s = phaseStep s := by
  unfold phaseStep
  cases hp : s.phase <;> rw [hp] at hc <;> cases hc <;>
    simp [exec, execReadTree, execWriteTree, execDecompress, execCompress, command, decompressStep, compressStep,
      Phase.command, hs, hp]

theorem exec_runs_of_busy {i : Instr} (hs : s.status = .busy) (hc : s.phase.command = some i) : Runs s (exec i s) := by
  rw [exec_eq_phaseStep hs hc]
  exact phaseStep_runs hs

theorem startWriting_execsTo (hs : s.status = .ready) {p : Phase} (hp : p.writes = true) :
    ExecsTo s (startWriting p s) := by
  cases ht : s.tree with
  | none =>
    rw [startWriting_none ht]
    exact .raised (.refl s) rfl (f := .noTree) ⟨ht, fun hb => by simp [hs] at hb⟩ 0
  | some T =>
    rw [startWriting_some ht]
    exact .moved (.refl s) (.writingStarts hs hp ht)

theorem decodeCmd_cases (c : BitVec 2) :
    decodeCmd c = .readTree ∨ decodeCmd c = .writeTree ∨ decodeCmd c = .decompress ∨ decodeCmd c = .compress := by
  revert c
  decide

theorem exec_readTree_of_ready (hs : s.status = .ready) : exec .readTree s = .next (startReading .rt s) := by
  simp [exec, execReadTree, command, hs]

theorem exec_writeTree_of_ready (hs : s.status = .ready) : exec .writeTree s = .next (startWriting .wt s) := by
  simp [exec, execWriteTree, command, hs]

theorem exec_decompress_of_ready (hs : s.status = .ready) : exec .decompress s = .next (startReading .dTree s) := by
  simp [exec, execDecompress, command, hs]

theorem exec_compress_of_ready (hs : s.status = .ready) : exec .compress s = .next (startWriting .cTree s) := by
  simp [exec, execCompress, command, hs]

/-- A command handed to `exec` in `READY` starts. -/
theorem exec_decodeCmd_runs_of_ready (hs : s.status = .ready) (c : BitVec 2) : Runs s (exec (decodeCmd c) s) := by
  rcases decodeCmd_cases c with h | h | h | h <;> rw [h]
  · rw [exec_readTree_of_ready hs]
    exact .next (.moved (.refl s) (.readingStarts hs rfl))
  · rw [exec_writeTree_of_ready hs]
    exact .next (startWriting_execsTo hs rfl)
  · rw [exec_decompress_of_ready hs]
    exact .next (.moved (.refl s) (.readingStarts hs rfl))
  · rw [exec_compress_of_ready hs]
    exact .next (startWriting_execsTo hs rfl)

end

/-- What a turn comes to: the host's queue and the waits move, then an execution follows. -/
def TurnsTo (s t : State) : Prop := ∃ u, QueueMoved s u ∧ ExecsTo u t

/-- The next state of a turn. -/
def Turn.result : Turn → Result
  | .run i s => exec i s
  | .go s => .next s

theorem step_eq_result (s : State) : step s = (turn s).result := by
  unfold step
  cases turn s <;> rfl

/-- A turn that only moves the queue. -/
theorem QueueMoved.turnsTo {s u : State} (q : QueueMoved s u) : TurnsTo s u := ⟨u, q, .moved (.refl u) .stays⟩

/-- CORE's own turn uses up waits, and takes nothing from the host's queue. -/
theorem coreTurn_execsTo {s t : State} (h : (coreTurn s).result = .next t) :
    ∃ w, ExecsTo { s with waits := w } t := by
  rcases coreTurn_cases s with hturn | ⟨i, hs, hc, hturn⟩ | ⟨i, w, hs, hc, -, -, hturn⟩ | ⟨n, w, -, -, hturn⟩ <;>
    rw [hturn] at h
  · cases h
    exact ⟨s.waits, .moved (.refl s) .stays⟩
  · exact ⟨s.waits, exec_runs_of_busy hs hc t h⟩
  · exact ⟨w, exec_runs_of_busy (s := { s with waits := w }) hs hc t h⟩
  · cases h
    exact ⟨some n :: w, .moved (.refl _) .stays⟩

theorem coreTurn_turnsTo {s t : State} (h : (coreTurn s).result = .next t) : TurnsTo s t := by
  obtain ⟨w, e⟩ := coreTurn_execsTo h
  exact ⟨{ s with waits := w }, rfl, e⟩

/-- The host initialises, positions or flushes a device (R105). -/
theorem DevicesMoved.turnsTo {s u : State} (m : DevicesMoved s u) : TurnsTo s u := ⟨s, rfl, .moved m .stays⟩

theorem loadTree_turnsTo (T : Tree) (s : State) : TurnsTo s (loadTree T s) := by
  unfold loadTree
  split
  next hs => exact ⟨s, rfl, .moved (.refl s) (.treeLoaded hs T)⟩
  next => exact QueueMoved.turnsTo rfl

theorem readTreeReg_turnsTo (s : State) : TurnsTo s (readTreeReg s) := by
  unfold readTreeReg
  split <;> exact QueueMoved.turnsTo rfl

theorem issue_turnsTo {c : BitVec 2} {s t : State} (hs : s.status ≠ .busy) (h : (issue c s).result = .next t) :
    TurnsTo s t := by
  unfold issue at h
  split at h
  next => cases h; exact QueueMoved.turnsTo rfl
  next hf =>
    have hready : s.status = .ready := by
      cases hst : s.status with
      | ready => rfl
      | busy => exact absurd hst hs
      | faulted => exact absurd hst hf
    exact ⟨{ s with cmd := c }, rfl, exec_decodeCmd_runs_of_ready (s := { s with cmd := c }) hready c t h⟩

theorem hostTurn_turnsTo {a : HostAction} {s t : State} (hs : s.status = .busy → a.anyTime = true)
    (h : (hostTurn a s).result = .next t) : TurnsTo s t := by
  cases a
  case issue c =>
    refine issue_turnsTo (fun hb => ?_) h
    cases hs hb
  all_goals cases h
  case reset => exact ⟨{ s with waits := waitsAfterReset s }, rfl, .moved (.refl _) .reset⟩
  case loadTree T => exact loadTree_turnsTo T s
  case readTreeReg => exact readTreeReg_turnsTo s
  case setSrc bits => exact DevicesMoved.turnsTo ⟨rfl, fun d => { d with src_cursor := Nat.zero_le _ }, fun _ h => h⟩
  case seekSrc pos =>
    exact DevicesMoved.turnsTo ⟨rfl, fun d => { d with src_cursor := min_le_right _ _ }, fun _ h => h⟩
  case initSnk =>
    exact DevicesMoved.turnsTo
      ⟨rfl, fun d => { d with off_counts := rfl, delivered_whole := Nat.zero_le _ }, fun _ _ => rfl⟩
  case flushSnk =>
    refine DevicesMoved.turnsTo ⟨rfl, fun d => ?_, fun _ _ => rfl⟩
    obtain ⟨-, hoff, hdelivered⟩ := flushed_counts s.snk d.off_counts
    exact { d with off_counts := hoff, delivered_whole := hdelivered }
  case setYsrc bytes =>
    exact DevicesMoved.turnsTo ⟨rfl, fun d => { d with ysrc_cursor := Nat.zero_le _ }, fun _ h => h⟩
  case seekYsrc pos =>
    exact DevicesMoved.turnsTo ⟨rfl, fun d => { d with ysrc_cursor := min_le_right _ _ }, fun _ h => h⟩
  case initYsnk => exact DevicesMoved.turnsTo ⟨rfl, id, fun _ h => h⟩
  all_goals exact QueueMoved.turnsTo rfl

/-- Everything a step can do. -/
theorem step_turnsTo {s t : State} (h : step s = .next t) : TurnsTo s t := by
  rw [step_eq_result] at h
  unfold turn at h
  split at h
  next => exact coreTurn_turnsTo h
  next a hh hq =>
    have unqueued : TurnsTo { s with host := hh } t → TurnsTo s t := by
      rintro ⟨u, q, e⟩
      exact ⟨u, by rw [q]; rfl, e⟩
    split at h
    next => exact unqueued (coreTurn_turnsTo h)
    next =>
      split at h
      next => exact coreTurn_turnsTo h
      next hany => exact unqueued (hostTurn_turnsTo (fun hb => by_contra fun ha => hany ⟨hb, ha⟩) h)

end Sys2Proof.Machine
end

section
/-! ## The invariant of every run (10_state.md R36) -/

namespace Sys2Proof.Machine

/-! ### Nodes of the tree (R28) -/

theorem subtreeOf_refl (T : Tree) : subtreeOf T T := by
  cases T with
  | branch l r => exact .inl rfl
  | leaf v => rfl
  | endLeaf => rfl

/-- A child of a node of the tree is a node of the tree. -/
theorem subtreeOf_child {l r n T : Tree} (hn : n = l ∨ n = r) (h : subtreeOf (.branch l r) T) : subtreeOf n T := by
  induction T with
  | branch a b iha ihb =>
    rcases h with h | h | h
    · obtain ⟨rfl, rfl⟩ := Tree.branch.inj h
      rcases hn with rfl | rfl
      · exact .inr (.inl (subtreeOf_refl _))
      · exact .inr (.inr (subtreeOf_refl _))
    · exact .inr (.inl (iha h))
    · exact .inr (.inr (ihb h))
  | leaf v => cases h
  | endLeaf => cases h

/-! ### Between commands -/

theorem RunInvariant.devices {s : State} (h : RunInvariant s) : DevicesInRange s.src s.snk s.ysrc := { h with }

/-- No command runs, and its working state is at its reset values (R36, R38). -/
structure Clean (s : State) : Prop where
  phase : s.phase = .idle
  rstack : s.rstack = []
  wstack : s.wstack = []
  node : s.node = none
  obuf : s.obuf = []
  cbuf : s.cbuf = []
  ct : s.ct = none
  code : s.code = none
  token : s.token = .start

theorem raise_clean (f : FaultCause) (info : BitVec 9) (s : State) : Clean (raise f info s) := by constructor <;> rfl

theorem finish_clean (s : State) : Clean (finish s) := by constructor <;> rfl

theorem applyReset_clean (s : State) : Clean (applyReset s) := by constructor <;> rfl

theorem reset_clean : Clean State.reset := by constructor <;> rfl

theorem withinLimit_zero (limit : Option Nat) : withinLimit limit 0 = true := by
  cases limit with
  | none => rfl
  | some m => exact decide_eq_true (Nat.zero_le m)

/-- Between commands the invariant is about the devices, `STATUS` and `CAUSE` alone. -/
theorem Clean.invariant {s : State} (c : Clean s) (d : DevicesInRange s.src s.snk s.ysrc) (hs : s.status ≠ .busy)
    (hf : s.status = .faulted ↔ s.cause ≠ 0) (hr : s.cause.toNat ≤ 5) (hi : s.cause = 0 → s.info = 0) :
    RunInvariant s where
  src_cursor := d.src_cursor
  ysrc_cursor := d.ysrc_cursor
  off_counts := d.off_counts
  delivered_whole := d.delivered_whole
  busy_iff_running := iff_of_false hs (fun h => h c.phase)
  faulted_iff_cause := hf
  cause_range := hr
  info_zero := hi
  no_tree_in_parse := by simp [c.phase, Phase.reads]
  tree_in_command h := absurd c.phase h
  node_in_tree := by simp [c.node]
  rstack_live h := absurd c.rstack h
  wstack_live h := absurd c.wstack h
  obuf_live h := absurd c.obuf h
  cbuf_live h := absurd c.cbuf h
  ct_live := by simp [c.ct, c.phase, Phase.hasTable]
  ct_of_tree := by simp [c.ct]
  code_live h := absurd c.code h
  flush_aligned := by simp [c.phase]
  rstack_fits := by rw [c.rstack]; exact withinLimit_zero _
  obuf_fits := by rw [c.obuf]; exact withinLimit_zero _
  token_live h := absurd c.token h
  token_of_next _ h := absurd c.token h

/-- Settles O58: after reset no command runs, and the devices are empty. -/
theorem resetMeetsInvariant : Obligations.ResetMeetsInvariant :=
  reset_clean.invariant ⟨le_refl _, le_refl _, rfl, le_refl _⟩ nofun (by decide) (by decide) fun _ => rfl

theorem raise_invariant {u : State} (d : DevicesInRange u.src u.snk u.ysrc) (f : FaultCause) (info : BitVec 9) :
    RunInvariant (raise f info u) := by
  have hcode : f.code ≠ 0 ∧ f.code.toNat ≤ 5 := by cases f <;> decide
  exact (raise_clean f info u).invariant d nofun (iff_of_true rfl hcode.1) hcode.2 fun h => absurd h hcode.1

theorem applyReset_invariant {u : State} (d : DevicesInRange u.src u.snk u.ysrc) : RunInvariant (applyReset u) :=
  (applyReset_clean u).invariant d nofun (by simp) (by simp) fun _ => rfl

/-! ### Running past the description -/

/-- A command runs, and neither parses nor emits a description. -/
def Phase.afterDescription (p : Phase) : Prop := p ≠ .idle ∧ p.reads = false ∧ p.writes = false

/-- The phases with a code table lie after the description, in `COMPRESS`. -/
theorem Phase.afterDescription_of_hasTable {p : Phase} (hp : p.hasTable = true) :
    p ≠ .dWalk ∧ p ≠ .dOut ∧ p.afterDescription := by
  unfold Phase.afterDescription
  revert hp
  cases p <;> decide

/-- A command runs, and no description is under way: the clauses of the invariant that are then left. -/
structure NoDescription (s : State) : Prop where
  running : s.status = .busy
  cause : s.cause = 0
  info : s.info = 0
  rstack : s.rstack = []
  wstack : s.wstack = []
  token : s.token = .start
  node_in_tree : ∀ n, s.node = some n → s.phase = .dWalk ∧ ∃ t, s.tree = some t ∧ subtreeOf n t
  obuf_live : s.obuf ≠ [] → s.phase = .dWalk ∨ s.phase = .dOut
  obuf_fits : withinLimit s.par.obufMax s.obuf.length = true
  cbuf_live : s.cbuf ≠ [] → s.phase = .cEmit
  ct_live : s.ct ≠ none ↔ s.phase.hasTable = true
  ct_of_tree : ∀ table, s.ct = some table → ∃ t, s.tree = some t ∧ table = tableOf t
  code_live : s.code ≠ none → s.phase = .cEmit ∨ s.phase = .cEom
  flush_aligned : s.phase = .cFlush → s.snk.off = 0

theorem NoDescription.invariant {s : State} (l : NoDescription s) (d : DevicesInRange s.src s.snk s.ysrc)
    (hp : s.phase.afterDescription) (ht : s.tree ≠ none) : RunInvariant s := by
  obtain ⟨hidle, hreads, hwrites⟩ := hp
  exact { d, l with
    busy_iff_running := iff_of_true l.running hidle
    faulted_iff_cause := by simp [l.running, l.cause]
    cause_range := by simp [l.cause]
    info_zero := fun _ => l.info
    no_tree_in_parse := by simp [hreads]
    tree_in_command := fun _ _ => ht
    rstack_live := fun hne => absurd l.rstack hne
    wstack_live := fun hne => absurd l.wstack hne
    rstack_fits := by rw [l.rstack]; exact withinLimit_zero _
    token_live := fun hne => absurd l.token hne
    token_of_next := fun _ hne => absurd l.token hne }

namespace RunInvariant

variable {s u : State}

theorem cause_zero (h : RunInvariant s) (hs : s.status ≠ .faulted) : s.cause = 0 :=
  by_contra fun hc => hs (h.faulted_iff_cause.mpr hc)

theorem finished (h : RunInvariant u) (hs : u.status = .busy) (T : Option Tree) :
    RunInvariant (finish { u with tree := T }) := by
  have hc : u.cause = 0 := h.cause_zero (by simp [hs])
  exact (finish_clean _).invariant h.devices nofun (by simp [hc]) h.cause_range h.info_zero

/-! ### What is not live in a phase -/

theorem rstack_nil (h : RunInvariant s) (hp : s.phase.reads = false) : s.rstack = [] :=
  by_contra fun hne => by simp [h.rstack_live hne] at hp

theorem wstack_nil (h : RunInvariant s) (hp : s.phase.writes = false) : s.wstack = [] :=
  by_contra fun hne => by simp [h.wstack_live hne] at hp

theorem obuf_nil (h : RunInvariant s) (hp : s.phase ≠ .dWalk) (hp' : s.phase ≠ .dOut) : s.obuf = [] :=
  by_contra fun hne => (h.obuf_live hne).elim hp hp'

theorem cbuf_nil (h : RunInvariant s) (hp : s.phase ≠ .cEmit) : s.cbuf = [] :=
  by_contra fun hne => hp (h.cbuf_live hne)

theorem ct_none (h : RunInvariant s) (hp : s.phase.hasTable = false) : s.ct = none :=
  by_contra fun hne => by simp [h.ct_live.mp hne] at hp

theorem code_none (h : RunInvariant s) (hp : s.phase ≠ .cEmit) (hp' : s.phase ≠ .cEom) : s.code = none :=
  by_contra fun hne => (h.code_live hne).elim hp hp'

theorem token_start (h : RunInvariant s) (hp : s.phase.reads = false) (hp' : s.phase.writes = false) :
    s.token = .start :=
  by_contra fun hne => by rcases h.token_live hne with hl | hl <;> simp [hl] at hp hp'

theorem node_none (h : RunInvariant s) (hp : s.phase ≠ .dWalk) : s.node = none :=
  Option.eq_none_iff_forall_not_mem.mpr fun n hn => hp (h.node_in_tree n hn).1

theorem idle (h : RunInvariant s) (hs : s.status ≠ .busy) : s.phase = .idle :=
  by_contra fun hp => hs (h.busy_iff_running.mpr hp)

/-- Outside `BUSY` all working state is clear (R36). -/
theorem clean (h : RunInvariant s) (hs : s.status ≠ .busy) : Clean s := by
  have hp := h.idle hs
  have hr : s.phase.reads = false := by rw [hp]; rfl
  have hw : s.phase.writes = false := by rw [hp]; rfl
  exact
    { phase := hp, rstack := h.rstack_nil hr, wstack := h.wstack_nil hw, node := h.node_none (by simp [hp])
      obuf := h.obuf_nil (by simp [hp]) (by simp [hp]), cbuf := h.cbuf_nil (by simp [hp])
      ct := h.ct_none (by rw [hp]; rfl), code := h.code_none (by simp [hp]) (by simp [hp])
      token := h.token_start hr hw }

/-! ### What keeps the invariant -/

theorem queueMoved (h : RunInvariant s) (q : QueueMoved s u) : RunInvariant u := by
  rw [q]
  exact { h with }

theorem devicesMoved (h : RunInvariant s) (m : DevicesMoved s u) : RunInvariant u := by
  obtain ⟨hsrc, hysrc, hoff, hdelivered⟩ := m.in_range h.devices
  rw [m.frame]
  exact { h with
    src_cursor := hsrc
    ysrc_cursor := hysrc
    off_counts := hoff
    delivered_whole := hdelivered
    flush_aligned := fun hp => m.aligned hp (h.flush_aligned hp) }

theorem treeLoaded (h : RunInvariant u) (hs : u.status = .ready) (T : Tree) :
    RunInvariant { u with tree := some T } := by
  obtain ⟨hphase, hrstack, hwstack, hnode, hobuf, hcbuf, hct, hcode, htoken⟩ := h.clean (by simp [hs])
  have c : Clean { u with tree := some T } := ⟨hphase, hrstack, hwstack, hnode, hobuf, hcbuf, hct, hcode, htoken⟩
  exact c.invariant h.devices (by simp [hs]) h.faulted_iff_cause h.cause_range h.info_zero

theorem readingStarts (h : RunInvariant u) (hs : u.status = .ready) {p : Phase} (hp : p.reads = true) :
    RunInvariant (startReading p u) := by
  have c := h.clean (by simp [hs])
  have hc : u.cause = 0 := h.cause_zero (by simp [hs])
  have htable : p.hasTable = false := by rcases p.reads_iff.mp hp with rfl | rfl <;> rfl
  have hwrites : p.writes = false := by rcases p.reads_iff.mp hp with rfl | rfl <;> rfl
  exact { h with
    busy_iff_running := iff_of_true rfl (by rintro rfl; cases hp)
    faulted_iff_cause := by simp [hc]
    no_tree_in_parse := fun _ => rfl
    tree_in_command := fun _ hr => by simp [hp] at hr
    node_in_tree := by simp [c.node]
    rstack_live := fun _ => hp
    wstack_live := fun hw => absurd c.wstack hw
    obuf_live := fun ho => absurd rfl ho
    cbuf_live := fun hb => absurd c.cbuf hb
    ct_live := by simp [c.ct, htable]
    ct_of_tree := by simp [c.ct]
    code_live := fun hcode => absurd c.code hcode
    flush_aligned := by rintro rfl; cases hp
    rstack_fits := withinLimit_zero _
    obuf_fits := withinLimit_zero _
    token_live := fun ht => absurd rfl ht
    token_of_next := fun _ ht => absurd rfl ht }

theorem writingStarts (h : RunInvariant u) (hs : u.status = .ready) {p : Phase} (hp : p.writes = true) {T : Tree}
    (ht : u.tree = some T) :
    RunInvariant
      { u with
        status := .busy, phase := p, wstack := [{ sub := T, depth := 0 }], cbuf := [], code := none,
        token := .start } := by
  have c := h.clean (by simp [hs])
  have hc : u.cause = 0 := h.cause_zero (by simp [hs])
  have htable : p.hasTable = false := by rcases p.writes_iff.mp hp with rfl | rfl <;> rfl
  have hreads : p.reads = false := Phase.reads_of_writes hp
  exact { h with
    busy_iff_running := iff_of_true rfl (by rintro rfl; cases hp)
    faulted_iff_cause := by simp [hc]
    no_tree_in_parse := fun hr => by simp [hreads] at hr
    tree_in_command := by simp [ht]
    node_in_tree := by simp [c.node]
    rstack_live := fun hr => absurd c.rstack hr
    wstack_live := fun _ => hp
    obuf_live := fun ho => absurd c.obuf ho
    cbuf_live := fun hb => absurd rfl hb
    ct_live := by simp [c.ct, htable]
    ct_of_tree := by simp [c.ct]
    code_live := fun hcode => absurd rfl hcode
    flush_aligned := by rintro rfl; cases hp
    token_live := fun hk => absurd rfl hk
    token_of_next := fun _ hk => absurd rfl hk }

theorem parsed (h : RunInvariant u) (hp : u.phase.reads = true) (k : TokenPart) {r : List RFrame}
    (hr : withinLimit u.par.maxDepth u.rstack.length = true → withinLimit u.par.maxDepth r.length = true) :
    RunInvariant { u with token := k, rstack := r } :=
  { h with
    rstack_live := fun _ => hp
    rstack_fits := hr h.rstack_fits
    token_live := fun _ => .inl hp
    token_of_next := fun hw => by rcases u.phase.reads_iff.mp hp with hp | hp <;> simp [hp, Phase.writes] at hw }

/-- When neither a parse nor an emission is under way, the invariant is about the rest of the working state. -/
theorem noDescription (h : RunInvariant s) (hs : s.status = .busy) (hr : s.rstack = []) (hw : s.wstack = [])
    (hk : s.token = .start) : NoDescription s :=
  have hc : s.cause = 0 := h.cause_zero (by simp [hs])
  { h with running := hs, cause := hc, info := h.info_zero hc, rstack := hr, wstack := hw, token := hk }

/-- Past the description nothing of it is live. -/
theorem noDescription_of_phase (h : RunInvariant s) (hs : s.status = .busy) (hp : s.phase.afterDescription) :
    NoDescription s := by
  obtain ⟨-, hreads, hwrites⟩ := hp
  exact h.noDescription hs (h.rstack_nil hreads) (h.wstack_nil hwrites) (h.token_start hreads hwrites)

theorem tree_of_phase (h : RunInvariant s) (hp : s.phase.afterDescription) : s.tree ≠ none :=
  h.tree_in_command hp.1 hp.2.1

theorem walkStarts (h : RunInvariant u) (hp : u.phase = .dTree) (hs : u.status = .busy) (T : Tree) :
    RunInvariant { u with token := .start, tree := some T, node := some T, rstack := [], phase := .dWalk } := by
  have hct : u.ct = none := h.ct_none (by rw [hp]; rfl)
  have hclosed : RunInvariant { u with token := .start, rstack := [] } :=
    h.parsed (by rw [hp]; rfl) .start fun _ => withinLimit_zero _
  have l := hclosed.noDescription hs rfl (h.wstack_nil (by rw [hp]; rfl)) rfl
  have l' : NoDescription
      { u with token := .start, tree := some T, node := some T, rstack := [], phase := .dWalk } :=
    { l with
      node_in_tree := by
        rintro n ⟨⟩
        exact ⟨rfl, T, rfl, subtreeOf_refl T⟩
      obuf_live := fun _ => .inl rfl
      cbuf_live := fun hb => absurd (h.cbuf_nil (by simp [hp])) hb
      ct_live := by simp [hct, Phase.hasTable]
      ct_of_tree := by simp [hct]
      code_live := fun hc => absurd (h.code_none (by simp [hp]) (by simp [hp])) hc
      flush_aligned := nofun }
  exact l'.invariant h.devices ⟨nofun, rfl, rfl⟩ nofun

theorem emitted (h : RunInvariant u) (hp : u.phase.writes = true) {k : TokenPart} {w : List WFrame}
    (hk : k ≠ .start → ∃ f v, w = f :: v ∧ k.moved <+: tokenBits (tokenOf f.sub)) :
    RunInvariant { u with token := k, wstack := w } :=
  { h with
    wstack_live := fun _ => hp
    token_live := fun _ => .inr hp
    token_of_next := fun _ => hk }

theorem described (h : RunInvariant u) (hp : u.phase = .cTree) (hs : u.status = .busy) :
    RunInvariant { u with wstack := [], token := .start, phase := .cTable } := by
  have hreads : u.phase.reads = false := by rw [hp]; rfl
  have hclosed : RunInvariant { u with token := .start, wstack := [] } :=
    h.emitted (by rw [hp]; rfl) (absurd rfl)
  have l := hclosed.noDescription hs (h.rstack_nil hreads) rfl rfl
  have l' : NoDescription { u with wstack := [], token := .start, phase := .cTable } :=
    { l with
      node_in_tree := by simp [h.node_none (by simp [hp])]
      obuf_live := fun ho => absurd (h.obuf_nil (by simp [hp]) (by simp [hp])) ho
      cbuf_live := fun hb => absurd (h.cbuf_nil (by simp [hp])) hb
      ct_live := by simp [h.ct_none (by rw [hp]; rfl), Phase.hasTable]
      code_live := fun hc => absurd (h.code_none (by simp [hp]) (by simp [hp])) hc
      flush_aligned := nofun }
  exact l'.invariant h.devices ⟨nofun, rfl, rfl⟩ (h.tree_in_command (by simp [hp]) hreads)

theorem walked (h : RunInvariant u) (hp : u.phase = .dWalk) {n : Option Tree} {o : List Byte}
    (hn : n = u.tree ∨ ∃ l r, u.node = some (.branch l r) ∧ (n = some l ∨ n = some r))
    (ho : withinLimit u.par.obufMax u.obuf.length = true → withinLimit u.par.obufMax o.length = true) :
    RunInvariant { u with obuf := o, node := n } :=
  { h with
    node_in_tree := by
      rintro m rfl
      rcases hn with hn | ⟨l, r, hnode, hn⟩
      · exact ⟨hp, m, hn.symm, subtreeOf_refl m⟩
      · obtain ⟨-, T, hT, hsub⟩ := h.node_in_tree _ hnode
        exact ⟨hp, T, hT, subtreeOf_child (by simpa using hn) hsub⟩
    obuf_live := fun _ => .inl hp
    obuf_fits := ho h.obuf_fits }

theorem walkEnds (h : RunInvariant u) (hp : u.phase = .dWalk) (hs : u.status = .busy) :
    RunInvariant { u with phase := .dOut, node := none } := by
  have hafter : u.phase.afterDescription := by rw [hp]; exact ⟨nofun, rfl, rfl⟩
  have l := h.noDescription_of_phase hs hafter
  have l' : NoDescription { u with phase := .dOut, node := none } :=
    { l with
      node_in_tree := nofun
      obuf_live := fun _ => .inr rfl
      cbuf_live := fun hb => absurd (h.cbuf_nil (by simp [hp])) hb
      ct_live := by simp [h.ct_none (by rw [hp]; rfl), Phase.hasTable]
      code_live := fun hc => absurd (h.code_none (by simp [hp]) (by simp [hp])) hc
      flush_aligned := nofun }
  exact l'.invariant h.devices ⟨nofun, rfl, rfl⟩ (h.tree_of_phase hafter)

theorem tableDerived (h : RunInvariant u) (hp : u.phase = .cTable) (hs : u.status = .busy) {T : Tree}
    (ht : u.tree = some T) : RunInvariant { u with ct := some (tableOf T), phase := .cRead } := by
  have hafter : u.phase.afterDescription := by rw [hp]; exact ⟨nofun, rfl, rfl⟩
  have l := h.noDescription_of_phase hs hafter
  have l' : NoDescription { u with ct := some (tableOf T), phase := .cRead } :=
    { l with
      node_in_tree := by simp [h.node_none (by simp [hp])]
      obuf_live := fun ho => absurd (h.obuf_nil (by simp [hp]) (by simp [hp])) ho
      cbuf_live := fun hb => absurd (h.cbuf_nil (by simp [hp])) hb
      ct_live := iff_of_true nofun rfl
      ct_of_tree := by simp [ht]
      code_live := fun hc => absurd (h.code_none (by simp [hp]) (by simp [hp])) hc
      flush_aligned := nofun }
  exact l'.invariant h.devices ⟨nofun, rfl, rfl⟩ (h.tree_of_phase hafter)

theorem encoded (h : RunInvariant u) (hs : u.status = .busy) (hp : u.phase.hasTable = true) {p : Phase}
    (hp' : p.hasTable = true) {c : Option Code} {b : List Byte}
    (hc : (u.code ≠ none → u.phase = .cEmit ∨ u.phase = .cEom) → c ≠ none → p = .cEmit ∨ p = .cEom)
    (hb : (u.cbuf ≠ [] → u.phase = .cEmit) → b ≠ [] → p = .cEmit) (hoff : p = .cFlush → u.snk.off = 0) :
    RunInvariant { u with code := c, cbuf := b, phase := p } := by
  obtain ⟨hwalk, hout, hafter⟩ := Phase.afterDescription_of_hasTable hp
  obtain ⟨-, -, hafter'⟩ := Phase.afterDescription_of_hasTable hp'
  have l := h.noDescription_of_phase hs hafter
  have l' : NoDescription { u with code := c, cbuf := b, phase := p } :=
    { l with
      node_in_tree := by simp [h.node_none hwalk]
      obuf_live := fun ho => absurd (h.obuf_nil hwalk hout) ho
      cbuf_live := hb h.cbuf_live
      ct_live := iff_of_true (h.ct_live.mpr hp) hp'
      code_live := hc h.code_live
      flush_aligned := hoff }
  exact l'.invariant h.devices hafter' (h.tree_of_phase hafter)

/-- Every change of CORE's own state keeps the invariant. -/
theorem coreMove {t : State} (h : RunInvariant u) (hm : CoreMove u t) : RunInvariant t := by
  cases hm with
  | stays => exact h
  | reset => exact applyReset_invariant h.devices
  | treeLoaded hs T => exact h.treeLoaded hs T
  | readingStarts hs hp => exact h.readingStarts hs hp
  | writingStarts hs hp ht => exact h.writingStarts hs hp ht
  | finished hs T => exact h.finished hs T
  | parsed hp k hr => exact h.parsed hp k hr
  | walkStarts hp hs T => exact h.walkStarts hp hs T
  | emitted hp hk => exact h.emitted hp hk
  | described hp hs => exact h.described hp hs
  | walked hp hn ho => exact h.walked hp hn ho
  | walkEnds hp hs => exact h.walkEnds hp hs
  | tableDerived hp hs ht => exact h.tableDerived hp hs ht
  | encoded hs hp hp' hc hb hoff => exact h.encoded hs hp hp' hc hb hoff

theorem execsTo {t : State} (h : RunInvariant s) (e : ExecsTo s t) : RunInvariant t := by
  cases e with
  | moved m hm => exact (h.devicesMoved m).coreMove hm
  | raised m _ _ info => exact raise_invariant (h.devicesMoved m).devices _ info

end RunInvariant

/-- Settles O59: each layer of a step keeps the invariant. -/
theorem stepKeepsInvariant : Obligations.StepKeepsInvariant := by
  intro s t h hstep
  obtain ⟨u, q, e⟩ := step_turnsTo hstep
  exact (h.queueMoved q).execsTo e

end Sys2Proof.Machine
end

section
/-! ## What a running command cannot do (10_state.md R23, R33, 60_exceptions.md R216, R226) -/

namespace Sys2Proof.Machine

/-! ### The host's actions wait -/

theorem CoreMove.host {u t : State} (h : CoreMove u t) : t.host = u.host := by cases h <;> rfl

theorem ExecsTo.host {s t : State} (e : ExecsTo s t) : t.host = s.host := by
  cases e with
  | moved m h => exact h.host.trans m.host
  | raised m => exact m.host

/-- Settles O24: the turn is CORE's own, and that leaves the queue alone. -/
theorem hostWaitsWhileBusy : Obligations.HostWaitsWhileBusy := by
  intro s t a h hs hq htick hany hstep
  have hturn : turn s = coreTurn s := by
    refine turn_eq_coreTurn hs fun a' h' hq' => ?_
    obtain ⟨rfl, -⟩ := List.cons.inj (hq.symm.trans hq')
    exact ⟨htick, hany⟩
  rw [step_eq_result, hturn] at hstep
  obtain ⟨w, e⟩ := coreTurn_execsTo hstep
  exact e.host.trans hq

/-! ### `TREE` -/

/-- While a command runs on, past the parse, `TREE` stays. -/
theorem CoreMove.keeps_tree {u t : State} (h : CoreMove u t) (hs : u.status = .busy) (hp : u.phase.reads = false)
    (ht : t.status = .busy) : t.tree = u.tree := by
  cases h
  case treeLoaded hs' _ => simp [hs] at hs'
  case readingStarts hs' _ _ => simp [hs] at hs'
  case reset => cases ht
  case finished => cases ht
  case walkStarts hp' _ _ => simp [hp', Phase.reads] at hp
  all_goals rfl

theorem ExecsTo.keeps_tree {s t : State} (e : ExecsTo s t) (hs : s.status = .busy) (hp : s.phase.reads = false)
    (ht : t.status = .busy) : t.tree = s.tree := by
  cases e with
  | moved m h => exact (h.keeps_tree (m.status.trans hs) (by rw [m.phase]; exact hp) ht).trans m.tree
  | raised => cases ht

/-- Settles O47: of the changes of `TREE`, a load is not in `BUSY`, a parse is excluded, and the others end the command. -/
theorem treeIsImmutableDuringCommand : Obligations.TreeIsImmutableDuringCommand := by
  intro s t T hs hp htree hstep ht
  obtain ⟨u, q, e⟩ := step_turnsTo hstep
  rw [e.keeps_tree (q.status.trans hs) (by rw [q.phase]; exact hp) ht, q.tree, htree]

/-! ### Faults -/

/-- No change of CORE's own state faults a running command: only `raise` does. -/
theorem CoreMove.not_faulted {u t : State} (h : CoreMove u t) (hs : u.status = .busy) : t.status ≠ .faulted := by
  cases h
  case reset => exact nofun
  case readingStarts => exact nofun
  case writingStarts => exact nofun
  case finished => exact nofun
  all_goals exact fun hf => absurd (hs.symm.trans hf) nofun

/-- A step that faults a running command raises one of the causes of R216, with the output sink as it was. -/
theorem raise_of_step_faults {s t : State} (hs : s.status = .busy) (hstep : step s = .next t)
    (ht : t.status = .faulted) :
    ∃ u f info, t = raise f info u ∧ MayRaise u f ∧ u.ysnk.data = s.ysnk.data ∧ u.status = s.status ∧
      u.phase = s.phase ∧ u.tree = s.tree ∧ u.par = s.par := by
  obtain ⟨v, q, e⟩ := step_turnsTo hstep
  cases e with
  | moved m h => exact absurd ht (h.not_faulted (m.status.trans (q.status.trans hs)))
  | @raised u m hy f hf info =>
    exact ⟨u, f, info, rfl, hf, by rw [hy, q.ysnk], m.status.trans q.status, m.phase.trans q.phase,
      m.tree.trans q.tree, m.par.trans q.par⟩

/-- The causes of R216 for a running command, which has its tree (R220). -/
theorem code_of_mayRaise {u : State} {f : FaultCause} (hf : MayRaise u f) (hs : u.status = .busy)
    (htree : u.phase.reads = false → u.tree ≠ none) :
    (f.code = 1 ∧ (u.phase.command = some .readTree ∨ u.phase.command = some .decompress)) ∨
    (f.code = 2 ∧ u.phase.command = some .compress) ∨ f.code = 4 ∨
    (f.code = 5 ∧ (u.par.maxDepth ≠ none ∨ u.par.obufMax ≠ none)) := by
  cases f with
  | streamExhausted => exact .inl ⟨rfl, hf⟩
  | missingCode => exact .inr (.inl ⟨rfl, hf⟩)
  | noTree => exact absurd hf.1 (htree (hf.2 hs))
  | io => exact .inr (.inr (.inl rfl))
  | resource => exact .inr (.inr (.inr ⟨rfl, hf⟩))

/-- Settles O49: the step is a `raise`, which clears the working state, and its cause is one its command may raise. -/
theorem faultingStepsLeaveACause : Obligations.FaultingStepsLeaveACause := by
  intro s t hinv hs hstep ht
  obtain ⟨u, f, info, rfl, hf, hy, hus, hup, hut, hpar⟩ := raise_of_step_faults hs hstep ht
  have hidle : s.phase ≠ .idle := hinv.busy_iff_running.mp hs
  have hcode := code_of_mayRaise hf (hus.trans hs) (by rw [hup, hut]; exact hinv.tree_in_command hidle)
  rw [hup, hpar] at hcode
  refine ⟨rfl, rfl, rfl, rfl, rfl, rfl, rfl, rfl, hy, fun hc => ⟨?_, ?_⟩, fun hc => ⟨?_, ?_⟩, fun hc => ⟨?_, ?_⟩,
    fun hc => ⟨?_, ?_⟩, fun hdepth hout => ?_⟩
  · exact raise_tree_of_reader f info (.inl (by rw [hup, hc]))
  · simp only [hc] at hcode
    grind [raise_cause]
  · exact raise_tree_of_reader f info (.inr (by rw [hup, hc]))
  · simp only [hc] at hcode
    grind [raise_cause]
  · rw [raise_tree_of_writer f info (.inl (by rw [hup, hc])), hut]
  · simp only [hc] at hcode
    grind [raise_cause]
  · rw [raise_tree_of_writer f info (.inr (by rw [hup, hc])), hut]
  · simp only [hc] at hcode
    grind [raise_cause]
  · rcases hcode with ⟨h, -⟩ | ⟨h, -⟩ | h | ⟨-, h⟩
    · simp [h]
    · simp [h]
    · simp [h]
    · simp [hdepth, hout] at h

/-! ### Foreign instructions -/

/-- In `BUSY` a command that is not the running one has no move (R33 (d)). -/
theorem exec_decodeCmd_refused {s : State} {c : BitVec 2} (hs : s.status = .busy)
    (hc : s.phase.command ≠ some (decodeCmd c)) : exec (decodeCmd c) s = .refused .issueWhileBusy := by
  rcases decodeCmd_cases c with h | h | h | h <;> rw [h] at hc ⊢ <;>
    simp [exec, execReadTree, execWriteTree, execDecompress, execCompress, command, hs, hc]

/-- Outside a description a token has no effect. -/
theorem exec_tokenOf_outside_tree {s : State} (hr : s.phase.reads = false) (hw : s.phase.writes = false) (T : Tree) :
    exec (tokenOf T) s = .fault .tokenOutsideTree := by
  cases T <;> simp [tokenOf, exec, execBranch, execLeaf, execEndLeaf, hr, hw]

/-- The writer's next subtree is no Branch. -/
theorem writeBranch_mismatch {s : State} (h : ∀ f w, s.wstack = f :: w → tokenOf f.sub ≠ .branch) :
    writeBranch s = .fault .tokenMismatch := by
  unfold writeBranch
  split
  next => rfl
  next hw => exact absurd rfl (h _ _ hw)
  next => rfl
  next => rfl

/-- The writer's next subtree is no Leaf of this value. -/
theorem writeLeaf_mismatch {s : State} {v : Byte} (h : ∀ f w, s.wstack = f :: w → tokenOf f.sub ≠ .leaf v) :
    writeLeaf v s = .fault .tokenMismatch := by
  unfold writeLeaf
  split
  next => rfl
  next u _ _ hw =>
    have hne : u ≠ v := fun huv => h _ _ hw (congrArg Instr.leaf huv)
    exact if_neg hne
  next => rfl
  next => rfl

/-- The writer's next subtree is no EndLeaf. -/
theorem writeEnd_mismatch {s : State} (h : ∀ f w, s.wstack = f :: w → tokenOf f.sub ≠ .endLeaf) :
    writeEnd s = .fault .tokenMismatch := by
  unfold writeEnd
  split
  next => rfl
  next hw => exact absurd rfl (h _ _ hw)
  next => rfl
  next => rfl

/-- The writer's next subtree calls for its own token only (R145). -/
theorem exec_tokenOf_mismatch {s : State} (hw : s.phase.writes = true) {T : Tree}
    (hT : ∀ f w, s.wstack = f :: w → tokenOf f.sub ≠ tokenOf T) : exec (tokenOf T) s = .fault .tokenMismatch := by
  have hr : s.phase.reads = false := Phase.reads_of_writes hw
  cases T with
  | branch l r => simpa [tokenOf, exec, execBranch, hr, hw] using writeBranch_mismatch hT
  | leaf v => simpa [tokenOf, exec, execLeaf, hr, hw] using writeLeaf_mismatch hT
  | endLeaf => simpa [tokenOf, exec, execEndLeaf, hr, hw] using writeEnd_mismatch hT

/-- Settles O23: the three stops, by what is handed to `exec`. -/
theorem foreignInstructionsHaveNoMove : Obligations.ForeignInstructionsHaveNoMove :=
  ⟨fun _ _ => exec_decodeCmd_refused, fun _ T hr hw => exec_tokenOf_outside_tree hr hw T,
    fun _ _ hw hT => exec_tokenOf_mismatch hw hT⟩

end Sys2Proof.Machine
end

section
/-! ## Issue of the commands and the host's registers (10_state.md R32, R33, R37, R38) -/

namespace Sys2Proof.Machine

/-- The host's next action is taken, in `BUSY` only one it may take at any time (R33). -/
theorem turn_of_host {s : State} {a : HostAction} {h : List HostAction} (hq : s.host = a :: h) (ha : a ≠ .tick)
    (hs : s.status = .busy → a.anyTime = true) : turn s = hostTurn a { s with host := h } := by
  have hnow : ¬ (s.status = .busy ∧ ¬ a.anyTime = true) := fun hb => hb.2 (hs hb.1)
  simp only [turn, hq, if_neg ha, if_neg hnow]

theorem turn_of_ready {s : State} {a : HostAction} {h : List HostAction} (hs : s.status = .ready)
    (hq : s.host = a :: h) (ha : a ≠ .tick) : turn s = hostTurn a { s with host := h } :=
  turn_of_host hq ha fun hb => by simp [hs] at hb

/-- Settles O16: in `READY` the action is taken at once, and its turn is the command's. -/
theorem stepRunsIssuedCommand : Obligations.StepRunsIssuedCommand := by
  intro s c h hs hq
  refine step_of_run ((turn_of_ready hs hq nofun).trans ?_)
  simp [hostTurn, issue, hs]

/-- Settles O27: in `READY` both commands are their start. -/
theorem parsingCommandsStart : Obligations.ParsingCommandsStart :=
  fun _ hs => ⟨exec_readTree_of_ready hs, exec_decompress_of_ready hs⟩

/-- Settles O56: each action is taken at once, the first three in `READY`, the register read at any time. -/
theorem hostLoadsAndReadsRegisters : Obligations.HostLoadsAndReadsRegisters := by
  intro s h
  refine ⟨fun T hs hq => ?_, fun T hs ht hq => ?_, fun hs ht hq => ?_, fun hq => ?_⟩
  · refine step_of_go ((turn_of_ready hs hq nofun).trans ?_)
    simp [hostTurn, loadTree, hs]
  · refine step_of_go ((turn_of_ready hs hq nofun).trans ?_)
    simp [hostTurn, readTreeReg, hs, ht, tell]
  · refine step_of_go ((turn_of_ready hs hq nofun).trans ?_)
    simp [hostTurn, readTreeReg, hs, ht, tell]
  · refine step_of_go ((turn_of_host hq nofun fun _ => rfl).trans ?_)
    cases hs : s.status <;> simp [hostTurn, tell, regsRead, Status.word]

/-- Settles O60: the working state is clear, and the other items stand in the definition. -/
theorem resetValues : Obligations.ResetValues :=
  ⟨rfl, reset_clean.ct, reset_clean.obuf, reset_clean.cbuf, reset_clean.node, reset_clean.rstack, reset_clean.wstack,
    reset_clean.phase, rfl, rfl, rfl⟩

end Sys2Proof.Machine
end

section
/-! ## Packing bits into bytes (20_memory.md R58) -/

namespace Sys2Proof

@[simp] theorem packN_length (n : Nat) (s : List Bit) : (packN n s).length = n := by
  induction n generalizing s with
  | zero => rfl
  | succ n ih => simp [packN, ih]

theorem pack_length (s : List Bit) : (pack s).length = s.length / 8 := packN_length _ s

/-- Byte `j` is made of the bits `8j` to `8j + 7`. -/
theorem packN_getElem? {n j : Nat} (hj : j < n) (s : List Bit) :
    (packN n s)[j]? = some (byteOf ((s.drop (8 * j)).take 8)) := by
  induction n generalizing j s with
  | zero => omega
  | succ n ih =>
    cases j with
    | zero => rfl
    | succ j =>
      rw [packN, List.getElem?_cons_succ, ih (Nat.lt_of_succ_lt_succ hj), List.drop_drop, Nat.mul_succ, Nat.add_comm 8]

@[simp] theorem unpack_cons (v : Byte) (bytes : List Byte) : unpack (v :: bytes) = bits8 v ++ unpack bytes := rfl

theorem unpack_length (bytes : List Byte) : (unpack bytes).length = 8 * bytes.length := by
  induction bytes with
  | nil => rfl
  | cons v bytes ih =>
    rw [unpack_cons, List.length_append, ih, bits8_length, List.length_cons]
    omega

theorem packN_unpack (bytes : List Byte) : packN bytes.length (unpack bytes) = bytes := by
  induction bytes with
  | nil => rfl
  | cons v bytes ih =>
    have htake : (unpack (v :: bytes)).take 8 = bits8 v := List.take_left' (bits8_length v)
    have hdrop : (unpack (v :: bytes)).drop 8 = unpack bytes := List.drop_left' (bits8_length v)
    rw [List.length_cons, packN, htake, hdrop, Laws.byteOf_bits8, ih]

theorem pack_unpack (bytes : List Byte) : pack (unpack bytes) = bytes := by
  rw [pack, unpack_length, Nat.mul_div_cancel_left _ (by decide), packN_unpack]

theorem unpack_packN {n : Nat} {s : List Bit} (hlen : s.length = 8 * n) : unpack (packN n s) = s := by
  induction n generalizing s with
  | zero => exact (List.length_eq_zero_iff.mp hlen).symm
  | succ n ih =>
    have htake : (s.take 8).length = 8 := by
      rw [List.length_take]
      omega
    have hdrop : (s.drop 8).length = 8 * n := by
      rw [List.length_drop]
      omega
    rw [packN, unpack_cons, bits8_byteOf htake, ih hdrop, List.take_append_drop]

theorem unpack_pack {s : List Bit} (hlen : s.length % 8 = 0) : unpack (pack s) = s :=
  unpack_packN (by omega)

/-- Settles O6: `pack` takes eight bits a byte, and the eight bits of a byte and the byte of eight bits determine each
other. -/
theorem packAndUnpackAreInverse : Obligations.PackAndUnpackAreInverse :=
  ⟨pack_length, fun s _ hj => packN_getElem? hj s, fun _ => rfl, pack_unpack, fun _ => unpack_pack⟩

end Sys2Proof
end

section
/-! ## The primitives of the streams, as CORE and the host use them (20_memory.md R52 to R61, 30_encoding.md R105) -/

namespace Sys2Proof.Machine

/-! ### `ReadBit` and `ReadBits(8)` -/

/-- The bits left start with the bit at the cursor. -/
theorem BitSource.left_of_getElem? {d : BitSource} {b : Bit} (hb : d.data[d.pos]? = some b) :
    d.left = b :: d.data.drop (d.pos + 1) := by
  obtain ⟨hlt, rfl⟩ := List.getElem?_eq_some_iff.mp hb
  exact List.drop_eq_getElem_cons hlt

/-- Settles O11: the bit at the cursor is the first bit left, and at the end of the data none is. -/
theorem readBitReturnsBitAtCursor : Obligations.ReadBitReturnsBitAtCursor := by
  intro info s choice ha
  refine ⟨fun b hb => ?_, fun hend => ?_⟩
  · exact ⟨_, readBit_ok_some info ha (BitSource.left_of_getElem? hb), rfl, rfl, rfl, rfl⟩
  · exact ⟨_, readBit_ok_none info ha (List.drop_eq_nil_of_le hend), rfl, rfl, rfl, rfl⟩

theorem readBits8_ok_full {s : State} {choice : Nat} (info : BitVec 9) (h : answer s = .ok choice)
    (hl : 8 ≤ s.src.left.length) :
    readBits8 info s =
      .done (byteOf (s.src.left.take 8))
        { record .readBits8 (.byte (byteOf (s.src.left.take 8))) s with
          src := { s.src with pos := s.src.pos + 8 } } := by
  simp [readBits8, transaction_ok h, Nat.not_lt.mpr hl]

theorem readBits8_ok_short {s : State} {choice : Nat} (info : BitVec 9) (h : answer s = .ok choice)
    (hl : s.src.left.length < 8) :
    readBits8 info s =
      .ended (raise .streamExhausted info
        { record .readBits8 .endOfStream s with src := s.src.afterFailure choice }) := by
  simp [readBits8, transaction_ok h, hl]

/-- Settles O12: by the number of bits left; after a failure the cursor is where the device chose. -/
theorem readBits8ReturnsNextByte : Obligations.ReadBits8ReturnsNextByte := by
  intro info s choice ha hcursor
  have hlen := left_length s.src
  refine ⟨fun hfull => ⟨_, readBits8_ok_full info ha (by omega), rfl⟩, fun hshort => ?_⟩
  obtain ⟨hforward, hrange⟩ := afterFailure_bounds s.src choice
  exact ⟨_, readBits8_ok_short info ha (by omega), rfl, rfl, rfl, rfl, hforward, hrange hcursor⟩

/-! ### Writes and flushes -/

theorem sinkTransaction_ok {s : State} {choice : Nat} (c : Call) (after : Nat → BitSink → BitSink)
    (h : answer s = .ok choice) :
    sinkTransaction c after s = .done () { record c .done s with snk := after choice s.snk } :=
  transaction_ok h

/-- Settles O13: the sink accepts the bits, and eight of them leave `OFF` as it is. -/
theorem writesAppendToTheSink : Obligations.WritesAppendToTheSink := by
  intro s choice ha
  refine ⟨fun b => ?_, fun v => ?_⟩
  · exact ⟨_, sinkTransaction_ok _ _ ha, rfl, offAfter_toNat s.snk.off 1, rfl, rfl, rfl⟩
  · have hoff : offAfter s.snk.off 8 = s.snk.off := BitVec.add_zero _
    exact ⟨_, sinkTransaction_ok _ _ ha, rfl, hoff⟩

/-- A flush leaves an aligned sink's bits as they are. -/
theorem flushed_bits_of_aligned {d : BitSink} (h : d.off = 0) : d.flushed.bits = d.bits := by
  simp [BitSink.flushed, pad, h]

/-- A flush delivers every whole byte. -/
theorem flushed_stream (d : BitSink) : d.flushed.stream = pack d.flushed.bits := by
  refine List.take_of_length_le ?_
  simp [pack_length, BitSink.flushed]

/-- Settles O14: the sink is the flushed one, whatever the device's choice. -/
theorem flushPadsAndDelivers : Obligations.FlushPadsAndDelivers := by
  intro s choice ha _
  exact ⟨_, sinkTransaction_ok _ _ ha, rfl, flushed_bits_of_aligned, rfl, flushed_stream s.snk⟩

/-! ### `ReadBytes` -/

theorem readBytes_ok {s : State} {choice : Nat} (max : Nat) (h : answer s = .ok choice) :
    readBytes max s =
      .done (s.ysrc.chunk max choice)
        { record (.readBytes max) (.bytes (s.ysrc.chunk max choice)) s with
          ysrc := { s.ysrc with pos := s.ysrc.pos + (s.ysrc.chunk max choice).length } } :=
  transaction_ok h

theorem ByteSource.left_length (d : ByteSource) : d.left.length = d.data.length - d.pos := List.length_drop

/-- The device's count is the number of bytes returned: it never exceeds what remains. -/
theorem chunk_length {max : Nat} (hmax : 1 ≤ max) (d : ByteSource) (choice : Nat) :
    (d.chunk max choice).length = readCount max d.left.length choice := by
  have hcount := (readCount_bounds d.left.length choice hmax).1
  rw [ByteSource.chunk, List.length_take]
  omega

/-- Every count from 1 to what may be returned is some device's. -/
theorem readCount_onto {max rem c : Nat} (hc : 1 ≤ c) (hle : c ≤ min max rem) :
    ∃ choice, readCount max rem choice = c := by
  obtain ⟨choice, h⟩ := pickBetween_onto hc hle
  exact ⟨choice, by rw [readCount, if_neg (by omega), h]⟩

/-- Settles O15: the bytes returned are the first of those left, as many as the device counts. -/
theorem readBytesReturnsSomeOfTheNext : Obligations.ReadBytesReturnsSomeOfTheNext := by
  intro max s choice hmax ha
  have hleft := s.ysrc.left_length
  refine ⟨⟨_, _, readBytes_ok max ha, ?next, rfl, ?empty, ?bound⟩, fun c hc hle => ?_⟩
  case next =>
    rw [chunk_length hmax]
    rfl
  case empty =>
    rw [chunk_length hmax, (readCount_bounds _ choice hmax).2]
    omega
  case bound =>
    have hcount := (readCount_bounds s.ysrc.left.length choice hmax).1
    rw [chunk_length hmax]
    omega
  · obtain ⟨choice', h⟩ := readCount_onto (rem := s.ysrc.left.length) hc (by rwa [hleft])
    exact ⟨choice', (chunk_length hmax s.ysrc choice').trans h⟩

/-! ### The host's own operations -/

/-- Settles O57: outside `BUSY` the host's action is taken at once. -/
theorem hostOperatesDevices : Obligations.HostOperatesDevices := by
  intro s h hs
  have taken : ∀ {a}, s.host = a :: h → a ≠ .tick → step s = (hostTurn a { s with host := h }).result :=
    fun hq ha => by rw [step_eq_result, turn_of_host hq ha fun hb => absurd hb hs]
  exact ⟨fun _ hq => taken hq nofun, fun hq => taken hq nofun, fun _ hq => taken hq nofun, fun hq => taken hq nofun,
    fun hq => ⟨_, taken hq nofun, rfl, rfl⟩⟩

end Sys2Proof.Machine
end

section
/-! ## A transaction that is never answered (20_memory.md R69, 60_exceptions.md R239) -/

namespace Sys2Proof.Machine

/-- A state that a step leaves as it is stays for ever. -/
theorem runSteps_of_fixed {s : State} (h : step s = .next s) (k : Nat) : runSteps k s = .next s := by
  induction k with
  | zero => rfl
  | succ k ih => rw [runSteps_succ k h, ih]

/-- A transaction that blocks for ever leaves CORE where it is. -/
theorem coreTurn_of_wait_forever {s : State} {w : List (Option Nat)} (hs : s.status = .busy)
    (ht : transacts s = true) (hw : s.waits = none :: w) : coreTurn s = .go s := by
  cases hc : s.phase.command with
  | none => simp [coreTurn, hs, hc]
  | some i => simp [coreTurn, hs, hc, ht, hw]

/-- Settles O22: a step waits, and the wait does not get shorter. -/
theorem unansweredTransactionHangs : Obligations.UnansweredTransactionHangs := by
  intro s w k hs hhost ht hw
  have hturn : turn s = coreTurn s := turn_eq_coreTurn hs fun a h hq => by simp [hhost] at hq
  exact runSteps_of_fixed (step_of_go (hturn.trans (coreTurn_of_wait_forever hs ht hw))) k

end Sys2Proof.Machine
end

section
/-! ## What one step can do to the streams (20_memory.md R50, R64, R66)

A step performs at most one transaction, on the device of its phase (`DeviceMoved`); the rest of what it does is inside
CORE (`StreamsKept`). -/

namespace Sys2Proof.Machine

/-- `u` is `s` after some reads of `BYTESRC`. -/
structure YsrcMoved (s u : State) : Prop where
  frame : u = { s with ysrc := u.ysrc, answers := u.answers, asked := u.asked, trace := u.trace }
  data : u.ysrc.data = s.ysrc.data
  forward : s.ysrc.pos ≤ u.ysrc.pos
  recorded : s.trace <+: u.trace

/-- `u` is `s` after some writes to `BYTESNK`. -/
structure YsnkMoved (s u : State) : Prop where
  frame : u = { s with ysnk := u.ysnk, answers := u.answers, asked := u.asked, trace := u.trace }
  grown : s.ysnk.data <+: u.ysnk.data
  recorded : s.trace <+: u.trace

/-- `u` is `s` after some transactions on one device. -/
inductive DeviceMoved (s u : State) : Device → Prop where
  | bitsrc (m : SrcMoved s u) : DeviceMoved s u .bitsrc
  | bitsnk (m : SnkMoved s u) : DeviceMoved s u .bitsnk
  | bytesrc (m : YsrcMoved s u) : DeviceMoved s u .bytesrc
  | bytesnk (m : YsnkMoved s u) : DeviceMoved s u .bytesnk

/-- `t` is `u` but for what stands inside CORE: no stream, nothing of the host's and no parameter differs. -/
def StreamsKept (u t : State) : Prop :=
  t = { u with
    tree := t.tree, ct := t.ct, obuf := t.obuf, cbuf := t.cbuf, phase := t.phase, node := t.node, rstack := t.rstack,
    wstack := t.wstack, status := t.status, cause := t.cause, info := t.info, code := t.code, token := t.token }

/-- What a step with a transaction on `d` comes to. -/
def MovesTo (d : Device) (s t : State) : Prop := ∃ u, DeviceMoved s u d ∧ StreamsKept u t

/-- Whatever next state a result holds, only the device `d` has moved. -/
def Uses (d : Device) (s : State) (x : Result) : Prop := ∀ t, x = .next t → MovesTo d s t

/-- A transaction on `d` returns, or ends the command. -/
def Tx.Uses {α : Type} (d : Device) (s : State) (x : Tx α) : Prop :=
  (∃ a u, x = .done a u ∧ DeviceMoved s u d) ∨ (∃ t, x = .ended t ∧ MovesTo d s t)

/-! ### The layers' own rules -/

theorem DeviceMoved.refl (s : State) (d : Device) : DeviceMoved s s d := by
  cases d with
  | bitsrc => exact .bitsrc (.refl s)
  | bitsnk => exact .bitsnk (.refl s)
  | bytesrc => exact .bytesrc ⟨rfl, rfl, le_refl _, List.prefix_refl _⟩
  | bytesnk => exact .bytesnk ⟨rfl, List.prefix_refl _, List.prefix_refl _⟩

theorem StreamsKept.movesTo {s t : State} (k : StreamsKept s t) (d : Device) : MovesTo d s t := ⟨s, .refl s d, k⟩

theorem MovesTo.next {d : Device} {s t : State} (m : MovesTo d s t) : Uses d s (.next t) := by
  rintro _ ⟨⟩
  exact m

theorem StreamsKept.next {d : Device} {s t : State} (k : StreamsKept s t) : Uses d s (.next t) := (k.movesTo d).next

/-- What follows a transaction in the same step stays inside CORE (R6). -/
theorem Tx.Uses.andThen {α : Type} {d : Device} {s : State} {x : Tx α} {k : α → State → Result} (h : x.Uses d s)
    (hk : ∀ a u t, k a u = .next t → StreamsKept u t) : Machine.Uses d s (x.andThen k) := by
  obtain ⟨a, u, rfl, m⟩ | ⟨t, rfl, m⟩ := h
  · exact fun t ht => ⟨u, m, hk a u t ht⟩
  · exact m.next

/-- The common case of a step: a transaction, then one state. -/
theorem Tx.Uses.andThen_next {α : Type} {d : Device} {s : State} {x : Tx α} {k : α → State → State} (h : x.Uses d s)
    (hk : ∀ a u, StreamsKept u (k a u)) : Machine.Uses d s (x.andThen fun a u => .next (k a u)) :=
  h.andThen fun a u t ht => by
    cases ht
    exact hk a u

/-! ### Updates inside CORE -/

theorem raise_kept (f : FaultCause) (info : BitVec 9) (s : State) : StreamsKept s (raise f info s) := rfl

theorem EndedAs.kept {allowed : FaultCause → Prop} {u t : State} (e : EndedAs allowed u t) : StreamsKept u t := by
  obtain ⟨f, info, -, rfl⟩ | rfl := e <;> rfl

theorem readBranch_kept (s : State) : StreamsKept s (readBranch s) := by
  unfold readBranch
  split <;> rfl

theorem treeRead_kept (T : Tree) (s : State) : StreamsKept s (treeRead T s) := by
  unfold treeRead
  split <;> rfl

theorem handUp_kept (s : State) (T : Tree) (r : List RFrame) : StreamsKept s (handUp s T r) := by
  rcases handUp_cases s T r with ⟨T', h⟩ | ⟨l, r', -, h⟩
  · rw [h]
    exact treeRead_kept T' s
  · rw [h]
    rfl

theorem treeWritten_kept (s : State) : StreamsKept s (treeWritten s) := by
  unfold treeWritten
  split <;> rfl

theorem emitted_kept (w : List WFrame) (s : State) : StreamsKept s (emitted w s) := by
  cases w with
  | nil => exact treeWritten_kept s
  | cons f r => rfl

theorem deriveTable_kept (s : State) : StreamsKept s (deriveTable s) := by
  unfold deriveTable
  split
  next => rfl
  next => split <;> rfl

theorem lookUp_kept (sym : Sym) (s : State) : StreamsKept s (lookUp sym s) := by
  unfold lookUp
  split <;> rfl

theorem startWriting_kept (p : Phase) (s : State) : StreamsKept s (startWriting p s) := by
  unfold startWriting
  split <;> rfl

/-! ### Transactions -/

theorem readBit_uses (info : BitVec 9) (s : State) : (readBit info s).Uses .bitsrc s := by
  rcases readBit_moves info s with ⟨b, u, h, m⟩ | ⟨t, u, h, m, e⟩
  · exact .inl ⟨b, u, h, .bitsrc m⟩
  · exact .inr ⟨t, h, u, .bitsrc m, e.kept⟩

theorem writeBit_uses (b : Bit) (s : State) : (writeBit b s).Uses .bitsnk s := by
  rcases accept_moves (.writeBit b) [b] s with ⟨u, h, m⟩ | ⟨t, u, h, m, -, e⟩
  · exact .inl ⟨(), u, h, .bitsnk m⟩
  · exact .inr ⟨t, h, u, .bitsnk m, e.kept⟩

theorem record_recorded (c : Call) (r : Reply) (s : State) : s.trace <+: (record c r s).trace :=
  List.prefix_append _ _

/-- A transaction that the host resets away touches no device (R251). -/
theorem abandoned_movesTo (d : Device) (s : State) : MovesTo d s (abandoned s) := by
  refine ⟨{ s with answers := s.answers.tail }, ?_, rfl⟩
  cases d with
  | bitsrc => exact .bitsrc ⟨rfl, rfl, le_refl _, id, List.prefix_refl _⟩
  | bitsnk => exact .bitsnk ⟨rfl, List.prefix_refl _, id, id, List.prefix_refl _⟩
  | bytesrc => exact .bytesrc ⟨rfl, rfl, le_refl _, List.prefix_refl _⟩
  | bytesnk => exact .bytesnk ⟨rfl, List.prefix_refl _, List.prefix_refl _⟩

theorem flush_uses (s : State) : (flush s).Uses .bitsnk s := by
  rcases sinkTransaction_cases .flush (fun _ d => d.flushed) s with ⟨c, -, h⟩ | ⟨e, c, -, h⟩ | ⟨-, h⟩
  · refine .inl ⟨_, _, h, .bitsnk ⟨rfl, ⟨_, rfl⟩, fun hoff => ?_, fun _ => ?_, record_recorded _ _ s⟩⟩
    · exact (flushed_counts s.snk hoff).2.1
    · simp [BitSink.flushed]
  · refine .inr ⟨_, h, _, .bitsnk ?_, raise_kept _ _ _⟩
    exact ⟨rfl, List.prefix_refl _, id, id, record_recorded _ _ s⟩
  · exact .inr ⟨_, h, abandoned_movesTo .bitsnk s⟩

theorem readBytes_uses (max : Nat) (s : State) : (readBytes max s).Uses .bytesrc s := by
  rcases readBytes_cases max s with ⟨c, -, h⟩ | ⟨e, c, -, h⟩ | ⟨-, h⟩
  · exact .inl ⟨_, _, h, .bytesrc ⟨rfl, rfl, Nat.le_add_right _ _, record_recorded _ _ s⟩⟩
  · refine .inr ⟨_, h, _, .bytesrc ?_, raise_kept _ _ _⟩
    exact ⟨rfl, rfl, le_refl _, record_recorded _ _ s⟩
  · exact .inr ⟨_, h, abandoned_movesTo .bytesrc s⟩

theorem writeBytes_uses (seq : List Byte) (s : State) : (writeBytes seq s).Uses .bytesnk s := by
  rcases writeBytes_cases seq s with ⟨c, -, h⟩ | ⟨e, c, -, h⟩ | ⟨-, h⟩
  · exact .inl ⟨_, _, h, .bytesnk ⟨rfl, List.prefix_append _ _, record_recorded _ _ s⟩⟩
  · refine .inr ⟨_, h, _, .bytesnk ?_, raise_kept _ _ _⟩
    exact ⟨rfl, List.prefix_refl _, record_recorded _ _ s⟩
  · exact .inr ⟨_, h, abandoned_movesTo .bytesnk s⟩

/-! ### The step of each phase -/

section
variable (s : State)

theorem readOneToken_uses (hp : s.phase.reads = true) : Uses .bitsrc s (readOneToken s) := by
  obtain ⟨t, u, ht, m, hcases⟩ := readOneToken_cases hp
  rw [ht]
  refine MovesTo.next ⟨u, .bitsrc m, ?_⟩
  rcases hcases with ⟨k, rfl⟩ | rfl | ⟨T, -, rfl⟩ | e
  · rfl
  · exact readBranch_kept { u with token := .start }
  · exact handUp_kept { u with token := .start } T u.rstack
  · exact e.kept

theorem writeOneToken_uses (hp : s.phase.writes = true) : Uses .bitsnk s (writeOneToken s) := by
  cases hw : s.wstack with
  | nil =>
    simp only [writeOneToken, hw]
    exact (treeWritten_kept s).next
  | cons f w =>
    obtain ⟨t, u, ht, m, hcases⟩ := writeOneToken_cases hp hw
    rw [ht]
    refine MovesTo.next ⟨u, .bitsnk m, ?_⟩
    rcases hcases with ⟨k, rfl, -⟩ | rfl | e
    · rfl
    · exact emitted_kept _ u
    · exact e.kept

theorem walk_uses : Uses .bitsrc s (walk s) := by
  unfold walk
  split
  next => split <;> exact StreamsKept.next rfl
  next => exact (readBit_uses _ s).andThen_next fun _ _ => rfl
  next => split <;> exact StreamsKept.next rfl
  next => exact StreamsKept.next rfl

theorem deliver_uses : Uses .bytesnk s (deliver s) := (writeBytes_uses _ s).andThen_next fun _ _ => rfl

theorem readChunk_uses : Uses .bytesrc s (readChunk s) :=
  (readBytes_uses _ s).andThen fun r u t ht => by cases r <;> cases ht <;> rfl

theorem emitBit_uses (b : Bit) (rest : Code) : Uses .bitsnk s (emitBit b rest s) :=
  (writeBit_uses b s).andThen_next fun _ _ => rfl

theorem emitChunk_uses : Uses .bitsnk s (emitChunk s) := by
  unfold emitChunk
  split
  next b rest _ => exact emitBit_uses s b rest
  next => exact StreamsKept.next rfl
  next =>
    split
    next => exact StreamsKept.next rfl
    next x xs _ => exact StreamsKept.next (s := s) (lookUp_kept (.byte x) { s with cbuf := xs })

theorem emitEom_uses : Uses .bitsnk s (emitEom s) := by
  unfold emitEom
  split
  next b rest _ => exact emitBit_uses s b rest
  next => exact StreamsKept.next rfl
  next => exact (lookUp_kept .eom s).next

theorem padStep_uses : Uses .bitsnk s (padStep s) := by
  unfold padStep
  split
  next => exact StreamsKept.next rfl
  next => exact (writeBit_uses false s).andThen_next fun _ _ => rfl

theorem flushStep_uses : Uses .bitsnk s (flushStep s) := (flush_uses s).andThen_next fun _ _ => rfl

/-- A step of a command uses the device of its phase only. -/
theorem phaseStep_uses : Uses s.phase.device s (phaseStep s) := by
  cases hp : s.phase <;> simp only [phaseStep, hp, Phase.device]
  case idle => rintro _ ⟨⟩
  case rt => exact readOneToken_uses s (by rw [hp]; rfl)
  case wt => exact writeOneToken_uses s (by rw [hp]; rfl)
  case dTree => exact readOneToken_uses s (by rw [hp]; rfl)
  case dWalk => exact walk_uses s
  case dOut => exact deliver_uses s
  case cTree => exact writeOneToken_uses s (by rw [hp]; rfl)
  case cTable => exact (deriveTable_kept s).next
  case cRead => exact readChunk_uses s
  case cEmit => exact emitChunk_uses s
  case cEom => exact emitEom_uses s
  case cPad => exact padStep_uses s
  case cFlush => exact flushStep_uses s

end

/-! ### Streams only advance (R64, R66) -/

/-- Nothing read is unread and nothing written or recorded is undone from `s` to `t`. -/
def StreamsAdvanced (s t : State) : Prop :=
  t.src.data = s.src.data ∧ s.src.pos ≤ t.src.pos ∧
  t.ysrc.data = s.ysrc.data ∧ s.ysrc.pos ≤ t.ysrc.pos ∧
  s.snk.bits <+: t.snk.bits ∧ s.ysnk.data <+: t.ysnk.data ∧
  s.trace <+: t.trace

theorem StreamsAdvanced.refl (s : State) : StreamsAdvanced s s :=
  ⟨rfl, le_refl _, rfl, le_refl _, List.prefix_refl _, List.prefix_refl _, List.prefix_refl _⟩

theorem DeviceMoved.advanced {s u : State} {d : Device} (m : DeviceMoved s u d) : StreamsAdvanced s u := by
  cases m with
  | bitsrc m =>
    obtain ⟨frame, data, forward, -, recorded⟩ := m
    rw [frame]
    exact ⟨data, forward, rfl, le_refl _, List.prefix_refl _, List.prefix_refl _, recorded⟩
  | bitsnk m =>
    obtain ⟨frame, grown, -, -, recorded⟩ := m
    rw [frame]
    exact ⟨rfl, le_refl _, rfl, le_refl _, grown, List.prefix_refl _, recorded⟩
  | bytesrc m =>
    obtain ⟨frame, data, forward, recorded⟩ := m
    rw [frame]
    exact ⟨rfl, le_refl _, data, forward, List.prefix_refl _, List.prefix_refl _, recorded⟩
  | bytesnk m =>
    obtain ⟨frame, grown, recorded⟩ := m
    rw [frame]
    exact ⟨rfl, le_refl _, rfl, le_refl _, List.prefix_refl _, grown, recorded⟩

theorem MovesTo.advanced {d : Device} {s t : State} (h : MovesTo d s t) : StreamsAdvanced s t := by
  obtain ⟨u, m, k⟩ := h
  rw [k]
  exact m.advanced

theorem exec_advances {s t : State} {i : Instr} (hs : s.status = .busy) (hc : s.phase.command = some i)
    (h : exec i s = .next t) : StreamsAdvanced s t := by
  rw [exec_eq_phaseStep hs hc] at h
  exact (phaseStep_uses s t h).advanced

theorem coreTurn_advances {s t : State} (h : (coreTurn s).result = .next t) : StreamsAdvanced s t := by
  rcases coreTurn_cases s with hturn | ⟨i, hs, hc, hturn⟩ | ⟨i, w, hs, hc, -, -, hturn⟩ | ⟨n, w, -, -, hturn⟩ <;>
    rw [hturn] at h
  · cases h
    exact .refl s
  · exact exec_advances hs hc h
  · exact exec_advances (s := { s with waits := w }) hs hc h
  · cases h
    exact .refl s

/-- What the host may do in `BUSY` moves no stream (R251, R263). -/
theorem hostTurn_advances {s t : State} {a : HostAction} (ha : a.anyTime = true)
    (h : (hostTurn a s).result = .next t) : StreamsAdvanced s t := by
  cases a <;> cases ha <;> cases h <;> exact StreamsAdvanced.refl s

/-- Settles O46: CORE's own turn moves one device forward; in `BUSY` the host moves none. -/
theorem streamsOnlyAdvance : Obligations.StreamsOnlyAdvance := by
  intro s t hs h
  change StreamsAdvanced s t
  rw [step_eq_result] at h
  unfold turn at h
  split at h
  next => exact coreTurn_advances h
  next a queue _ =>
    split at h
    next => exact coreTurn_advances (s := { s with host := queue }) h
    next =>
      split at h
      next => exact coreTurn_advances h
      next hany => exact hostTurn_advances (s := { s with host := queue }) (by simpa [hs] using hany) h

/-! ### Which instruction reaches which stream (R50) -/

/-- The table of R50: the streams a command reaches; a token in a parse has been read by its command before (log 3). -/
def devicesOf : Instr → List Device
  | .branch => []
  | .leaf _ => []
  | .endLeaf => []
  | .readTree => [.bitsrc]
  | .writeTree => [.bitsnk]
  | .decompress => [.bitsrc, .bytesnk]
  | .compress => [.bitsnk, .bytesrc]

theorem Phase.device_mem {p : Phase} {i : Instr} (hc : p.command = some i) : p.device ∈ devicesOf i := by
  cases p <;> cases hc <;> decide

/-- A device is the same in both states. -/
def SameDevice : Device → State → State → Prop
  | .bitsrc, s, t => t.src = s.src
  | .bitsnk, s, t => t.snk = s.snk
  | .bytesrc, s, t => t.ysrc = s.ysrc
  | .bytesnk, s, t => t.ysnk = s.ysnk

theorem StreamsKept.sameDevice {s t : State} (k : StreamsKept s t) (d : Device) : SameDevice d s t := by
  rw [k]
  cases d <;> rfl

/-- A transaction leaves the other devices as they are. -/
theorem DeviceMoved.sameDevice {d d' : Device} {s u : State} (m : DeviceMoved s u d) (hd : d ≠ d') :
    SameDevice d' s u := by
  cases m with
  | bitsrc m =>
    rw [m.frame]
    cases d' with
    | bitsrc => exact absurd rfl hd
    | _ => rfl
  | bitsnk m =>
    rw [m.frame]
    cases d' with
    | bitsnk => exact absurd rfl hd
    | _ => rfl
  | bytesrc m =>
    rw [m.frame]
    cases d' with
    | bytesrc => exact absurd rfl hd
    | _ => rfl
  | bytesnk m =>
    rw [m.frame]
    cases d' with
    | bytesnk => exact absurd rfl hd
    | _ => rfl

theorem MovesTo.sameDevice {d d' : Device} {s t : State} (h : MovesTo d s t) (hd : d ≠ d') : SameDevice d' s t := by
  obtain ⟨u, m, k⟩ := h
  have same := m.sameDevice hd
  rw [k]
  cases d' <;> exact same

/-- No step of an instruction touches `CMD`, the parameters, or anything of the host's. -/
theorem MovesTo.frame {d : Device} {s t : State} (h : MovesTo d s t) :
    t.cmd = s.cmd ∧ t.par = s.par ∧ t.host = s.host ∧ t.hostLog = s.hostLog ∧ t.waits = s.waits := by
  obtain ⟨u, m, k⟩ := h
  rw [k]
  cases m with
  | bitsrc m => rw [m.frame]; exact ⟨rfl, rfl, rfl, rfl, rfl⟩
  | bitsnk m => rw [m.frame]; exact ⟨rfl, rfl, rfl, rfl, rfl⟩
  | bytesrc m => rw [m.frame]; exact ⟨rfl, rfl, rfl, rfl, rfl⟩
  | bytesnk m => rw [m.frame]; exact ⟨rfl, rfl, rfl, rfl, rfl⟩

section
variable {s t : State}

/-- In `FAULTED` a command handed to `exec` is refused without a change (R229). -/
theorem exec_decodeCmd_of_faulted (hs : s.status = .faulted) (c : BitVec 2) : exec (decodeCmd c) s = .next s := by
  rcases decodeCmd_cases c with h | h | h | h <;> rw [h] <;>
    simp [exec, execReadTree, execWriteTree, execDecompress, execCompress, command, hs]

theorem exec_decodeCmd_kept_of_ready (hs : s.status = .ready) {c : BitVec 2} (h : exec (decodeCmd c) s = .next t) :
    StreamsKept s t := by
  rcases decodeCmd_cases c with hi | hi | hi | hi <;> rw [hi] at h
  · cases (exec_readTree_of_ready hs).symm.trans h
    rfl
  · cases (exec_writeTree_of_ready hs).symm.trans h
    exact startWriting_kept .wt s
  · cases (exec_decompress_of_ready hs).symm.trans h
    rfl
  · cases (exec_compress_of_ready hs).symm.trans h
    exact startWriting_kept .cTree s

/-- A command that does not run touches no stream; one that runs uses the device of its phase. -/
theorem exec_decodeCmd_movesTo {c : BitVec 2} (h : exec (decodeCmd c) s = .next t) :
    StreamsKept s t ∨ (s.phase.command = some (decodeCmd c) ∧ MovesTo s.phase.device s t) := by
  cases hs : s.status with
  | ready => exact .inl (exec_decodeCmd_kept_of_ready hs h)
  | faulted =>
    cases (exec_decodeCmd_of_faulted hs c).symm.trans h
    exact .inl rfl
  | busy =>
    by_cases hc : s.phase.command = some (decodeCmd c)
    · rw [exec_eq_phaseStep hs hc] at h
      exact .inr ⟨hc, phaseStep_uses s t h⟩
    · cases (exec_decodeCmd_refused hs hc).symm.trans h

theorem exec_decodeCmd_sameDevice {c : BitVec 2} (h : exec (decodeCmd c) s = .next t) (d : Device)
    (hd : d ∉ devicesOf (decodeCmd c)) : SameDevice d s t := by
  rcases exec_decodeCmd_movesTo h with k | ⟨hc, m⟩
  · exact k.sameDevice d
  · exact m.sameDevice fun hdev => hd (hdev ▸ Phase.device_mem hc)

/-- A token executed in a parse touches no stream (log 3). -/
theorem exec_tokenOf_kept_of_reads (hp : s.phase.reads = true) {T : Tree} (h : exec (tokenOf T) s = .next t) :
    StreamsKept s t := by
  cases T <;> simp only [tokenOf, exec, execBranch, execLeaf, execEndLeaf, hp, if_true] at h <;> cases h
  case branch => exact readBranch_kept s
  case leaf v => exact handUp_kept s (.leaf v) s.rstack
  case endLeaf => exact handUp_kept s .endLeaf s.rstack

/-- A step of an emission is the execution of the token of the next subtree (R145). -/
theorem writeOneToken_eq_exec {f : WFrame} {w : List WFrame} (hw : s.wstack = f :: w) :
    writeOneToken s = exec (tokenOf f.sub) s := by
  simp only [writeOneToken, hw]
  cases f.sub <;> rfl

/-- A token executed in an emission uses `BITSNK` only. -/
theorem exec_tokenOf_uses_of_writes (hp : s.phase.writes = true) (T : Tree) : Uses .bitsnk s (exec (tokenOf T) s) := by
  by_cases hT : ∃ f w, s.wstack = f :: w ∧ tokenOf f.sub = tokenOf T
  · obtain ⟨f, w, hw, hf⟩ := hT
    rw [← hf, ← writeOneToken_eq_exec hw]
    exact writeOneToken_uses s hp
  · rw [exec_tokenOf_mismatch hp fun f w hw hf => hT ⟨f, w, hw, hf⟩]
    rintro _ ⟨⟩

theorem token_or_command (i : Instr) : (∃ T, i = tokenOf T) ∨ ∃ c, i = decodeCmd c := by
  cases i with
  | branch => exact .inl ⟨.branch .endLeaf .endLeaf, rfl⟩
  | leaf v => exact .inl ⟨.leaf v, rfl⟩
  | endLeaf => exact .inl ⟨.endLeaf, rfl⟩
  | readTree => exact .inr ⟨0, rfl⟩
  | writeTree => exact .inr ⟨1, rfl⟩
  | decompress => exact .inr ⟨2, rfl⟩
  | compress => exact .inr ⟨3, rfl⟩

/-- Every instruction moves one device at most. -/
theorem exec_movesTo {i : Instr} (h : exec i s = .next t) : ∃ d, MovesTo d s t := by
  obtain ⟨T, rfl⟩ | ⟨c, rfl⟩ := token_or_command i
  · by_cases hr : s.phase.reads = true
    · exact ⟨.bitsrc, (exec_tokenOf_kept_of_reads hr h).movesTo _⟩
    · by_cases hw : s.phase.writes = true
      · exact ⟨.bitsnk, exec_tokenOf_uses_of_writes hw T t h⟩
      · simp [exec_tokenOf_outside_tree (by simpa using hr) (by simpa using hw) T] at h
  · rcases exec_decodeCmd_movesTo h with k | ⟨-, m⟩
    · exact ⟨.bitsrc, k.movesTo _⟩
    · exact ⟨_, m⟩

end

/-- Settles O45: each command uses the devices of its phases, a token in a parse none, in an emission `BITSNK`. -/
theorem commandsTouchOnlyTheirStreams : Obligations.CommandsTouchOnlyTheirStreams := by
  intro s t
  refine ⟨fun h => ?_, fun h => ?_, fun h => ?_, fun h => ?_, fun i h => ?_, fun T hp h => ?_, fun T hp h => ?_⟩
  · have same := exec_decodeCmd_sameDevice (c := 0) h
    exact ⟨same .bitsnk (by decide), same .bytesrc (by decide), same .bytesnk (by decide)⟩
  · have same := exec_decodeCmd_sameDevice (c := 1) h
    exact ⟨same .bitsrc (by decide), same .bytesrc (by decide), same .bytesnk (by decide)⟩
  · have same := exec_decodeCmd_sameDevice (c := 2) h
    exact ⟨same .bitsnk (by decide), same .bytesrc (by decide)⟩
  · have same := exec_decodeCmd_sameDevice (c := 3) h
    exact ⟨same .bitsrc (by decide), same .bytesnk (by decide)⟩
  · obtain ⟨d, m⟩ := exec_movesTo h
    exact m.frame
  · rw [exec_tokenOf_kept_of_reads hp h]
    exact ⟨rfl, rfl, rfl, rfl, rfl, rfl⟩
  · have m := exec_tokenOf_uses_of_writes hp T t h
    exact ⟨m.sameDevice (d' := .bitsrc) nofun, m.sameDevice (d' := .bytesrc) nofun,
      m.sameDevice (d' := .bytesnk) nofun⟩

end Sys2Proof.Machine
end

section
/-! ## Device errors (20_memory.md R70, 60_exceptions.md R221, R227) -/

namespace Sys2Proof.Machine

/-- A device with an error indication (R70). -/
def withError (d : Device) (e : Nat) (s : State) : State :=
  match d with
  | .bitsrc => srcError e s
  | .bitsnk => { s with snk := { s.snk with error := some e } }
  | .bytesrc => { s with ysrc := { s.ysrc with error := some e } }
  | .bytesnk => { s with ysnk := { s.ysnk with error := some e } }

/-- The state after the transaction `c` has failed on the device `d`, the cursor of `BITSRC` left at `pos`. -/
def ioFailed (d : Device) (c : Call) (e pos : Nat) (s : State) : State :=
  raise .io d.number (withError d e { record c (.deviceError e) s with src := { s.src with pos := pos } })

/-- Where a failed transaction may leave the cursor of `BITSRC`: in range, and where it was unless the value of a Leaf
was being read (log 28). -/
structure CursorAfterError (s : State) (pos : Nat) : Prop where
  forward : s.src.pos ≤ pos
  in_range : s.src.pos ≤ s.src.data.length → pos ≤ s.src.data.length
  unmoved : s.phase.reads = false ∨ s.token ≠ .zeroOne → pos = s.src.pos

/-- The result is the failure of a transaction on `d`. -/
def FailsOn (d : Device) (e : Nat) (s : State) (x : Result) : Prop :=
  ∃ c pos, CursorAfterError s pos ∧ x = .next (ioFailed d c e pos s)

/-- The transaction fails on `d`. -/
def Tx.FailsOn {α : Type} (d : Device) (e : Nat) (s : State) (x : Tx α) : Prop :=
  ∃ c pos, CursorAfterError s pos ∧ x = .ended (ioFailed d c e pos s)

/-- Nothing follows a transaction that fails (R12). -/
theorem Tx.FailsOn.andThen {α : Type} {d : Device} {e : Nat} {s : State} {x : Tx α} (h : x.FailsOn d e s)
    (k : α → State → Result) : Machine.FailsOn d e s (x.andThen k) := by
  obtain ⟨c, pos, hpos, rfl⟩ := h
  exact ⟨c, pos, hpos, rfl⟩

theorem CursorAfterError.stays (s : State) : CursorAfterError s s.src.pos := ⟨le_refl _, id, fun _ => rfl⟩

/-- A bit of a code word is left to write. -/
theorem code_of_any {code : Option Code} (h : code.any (fun c => !c.isEmpty) = true) :
    ∃ b rest, code = some (b :: rest) := by
  cases code with
  | none => cases h
  | some c =>
    cases c with
    | nil => cases h
    | cons b rest => exact ⟨b, rest, rfl⟩

section
variable {s : State} {e choice : Nat} (ha : answer s = .error e choice)
include ha

/-! ### Transactions -/

theorem readBit_fails (info : BitVec 9) : (readBit info s).FailsOn .bitsrc e s :=
  ⟨.readBit, _, .stays s, transaction_error ha⟩

/-- Only the value of a Leaf is read by `ReadBits(8)` (R121). -/
theorem readBits8_fails (info : BitVec 9) (hp : s.phase.reads = true) (hk : s.token = .zeroOne) :
    (readBits8 info s).FailsOn .bitsrc e s := by
  obtain ⟨hforward, hrange⟩ := afterFailure_bounds s.src choice
  exact ⟨.readBits8, _, ⟨hforward, hrange, by simp [hp, hk]⟩, transaction_error ha⟩

theorem sinkTransaction_fails (c : Call) (after : Nat → BitSink → BitSink) :
    (sinkTransaction c after s).FailsOn .bitsnk e s :=
  ⟨c, _, .stays s, transaction_error ha⟩

theorem writeBit_fails (b : Bit) : (writeBit b s).FailsOn .bitsnk e s := sinkTransaction_fails ha _ _

theorem writeBits8_fails (v : Byte) : (writeBits8 v s).FailsOn .bitsnk e s := sinkTransaction_fails ha _ _

theorem flush_fails : (flush s).FailsOn .bitsnk e s := sinkTransaction_fails ha _ _

theorem readBytes_fails (max : Nat) : (readBytes max s).FailsOn .bytesrc e s :=
  ⟨.readBytes max, _, .stays s, transaction_error ha⟩

theorem writeBytes_fails (seq : List Byte) : (writeBytes seq s).FailsOn .bytesnk e s :=
  ⟨.writeBytes seq, _, .stays s, transaction_error ha⟩

/-! ### The step of each phase -/

theorem fetchToken_fails (hp : s.phase.reads = true) : (fetchToken s).FailsOn .bitsrc e s := by
  cases hk : s.token with
  | start =>
    obtain ⟨c, pos, hpos, h⟩ := readBit_fails ha 0
    exact ⟨c, pos, hpos, by simp only [fetchToken, hk, h]⟩
  | zero =>
    obtain ⟨c, pos, hpos, h⟩ := readBit_fails ha 0
    exact ⟨c, pos, hpos, by simp only [fetchToken, hk, h]⟩
  | zeroOne =>
    obtain ⟨c, pos, hpos, h⟩ := readBits8_fails ha 0 hp hk
    exact ⟨c, pos, hpos, by simp only [fetchToken, hk, h]⟩

theorem readOneToken_fails (hp : s.phase.reads = true) : FailsOn .bitsrc e s (readOneToken s) :=
  (fetchToken_fails ha hp).andThen _

theorem writePart_fails (b : Bit) (p : TokenPart) : FailsOn .bitsnk e s (writePart b p s) :=
  (writeBit_fails ha b).andThen _

theorem writeLeaf_fails {v : Byte} {d : Nat} {w : List WFrame} (hw : s.wstack = { sub := .leaf v, depth := d } :: w) :
    FailsOn .bitsnk e s (writeLeaf v s) := by
  simp only [writeLeaf, hw, if_true]
  cases s.token with
  | start => exact writePart_fails ha false .zero
  | zero => exact writePart_fails ha true .zeroOne
  | zeroOne => exact (writeBits8_fails ha v).andThen _

theorem writeEnd_fails {d : Nat} {w : List WFrame} (hw : s.wstack = { sub := .endLeaf, depth := d } :: w) :
    FailsOn .bitsnk e s (writeEnd s) := by
  simp only [writeEnd, hw]
  cases s.token with
  | start => exact writePart_fails ha false .zero
  | zero => exact (writeBit_fails ha false).andThen _
  | zeroOne => exact (writeBit_fails ha false).andThen _

/-- A step of an emission has a transaction unless a Branch is too deep (R223) or nothing is left to emit. -/
theorem writeOneToken_fails (hp : s.phase.writes = true) (hemits : emits s = true) :
    FailsOn .bitsnk e s (writeOneToken s) := by
  have hr : s.phase.reads = false := Phase.reads_of_writes hp
  cases hw : s.wstack with
  | nil => simp [emits, hw] at hemits
  | cons f w =>
    rw [writeOneToken_eq_exec hw]
    obtain ⟨sub, d⟩ := f
    cases sub with
    | branch l r =>
      have hfit : withinLimit s.par.maxDepth (d + 1) = true := by simpa [emits, hw] using hemits
      have hwrite := (writeBit_fails ha true).andThen fun _ u =>
        .next (emitted ({ sub := l, depth := d + 1 } :: { sub := r, depth := d + 1 } :: w) u)
      simpa [tokenOf, exec, execBranch, hr, hp, writeBranch, hw, hfit] using hwrite
    | leaf v => simpa [tokenOf, exec, execLeaf, hr, hp] using writeLeaf_fails ha hw
    | endLeaf => simpa [tokenOf, exec, execEndLeaf, hr, hp] using writeEnd_fails ha hw

theorem walk_fails {l r : Tree} (hnode : s.node = some (.branch l r)) : FailsOn .bitsrc e s (walk s) := by
  simp only [walk, hnode]
  exact (readBit_fails ha _).andThen _

theorem emitBit_fails (b : Bit) (rest : Code) : FailsOn .bitsnk e s (emitBit b rest s) :=
  (writeBit_fails ha b).andThen _

theorem padStep_fails (hoff : s.snk.off ≠ 0) : FailsOn .bitsnk e s (padStep s) := by
  simp only [padStep, if_neg hoff]
  exact (writeBit_fails ha false).andThen _

/-- Every transaction of a step that fails, fails on the device of its phase. -/
theorem phaseStep_fails (ht : transacts s = true) : FailsOn s.phase.device e s (phaseStep s) := by
  cases hp : s.phase <;> simp only [transacts, hp] at ht <;> simp only [phaseStep, hp, Phase.device]
  case rt => exact readOneToken_fails ha (by rw [hp]; rfl)
  case dTree => exact readOneToken_fails ha (by rw [hp]; rfl)
  case wt => exact writeOneToken_fails ha (by rw [hp]; rfl) ht
  case cTree => exact writeOneToken_fails ha (by rw [hp]; rfl) ht
  case dWalk =>
    split at ht
    next => cases ht
    next l r hnode => exact walk_fails ha hnode
    next => cases ht
    next => cases ht
  case dOut => exact (writeBytes_fails ha s.obuf).andThen _
  case cRead => exact (readBytes_fails ha s.par.chunk).andThen _
  case cEmit =>
    obtain ⟨b, rest, hcode⟩ := code_of_any ht
    simp only [emitChunk, hcode]
    exact emitBit_fails ha b rest
  case cEom =>
    obtain ⟨b, rest, hcode⟩ := code_of_any ht
    simp only [emitEom, hcode]
    exact emitBit_fails ha b rest
  case cPad => exact padStep_fails ha (of_decide_eq_true ht)
  case cFlush => exact (flush_fails ha).andThen _
  all_goals cases ht

end

/-! ### What a failed transaction leaves -/

theorem ioFailed_answers (d : Device) (c : Call) (e pos : Nat) (s : State) :
    (ioFailed d c e pos s).answers = s.answers.tail := by
  cases d <;> rfl

/-- Settles O50: the step fails on the device of its phase; whichever it is, the failure sets that device's error and
keeps what the streams hold, but for the cursor. -/
theorem deviceErrorsRaiseIo : Obligations.DeviceErrorsRaiseIo := by
  intro s i e choice as hs hc ht has
  have ha : answer s = .error e choice := by simp [answer, has]
  obtain ⟨c, pos, ⟨hforward, hrange, hstays⟩, h⟩ := phaseStep_fails ha ht
  have hanswers (d : Device) : (ioFailed d c e pos s).answers = as := by
    rw [ioFailed_answers, has, List.tail_cons]
  refine ⟨_, c, (exec_eq_phaseStep hs hc).trans h, rfl, rfl, ?_⟩
  cases s.phase.device <;>
    exact ⟨rfl, rfl, hanswers _, rfl, rfl, rfl, rfl, rfl, hstays, hforward, hrange, rfl, rfl, rfl, rfl, rfl, rfl⟩

end Sys2Proof.Machine
end

section
/-! ## Tokens, tree descriptions and their decoders (30_encoding.md R91 to R103, 40_tree_reader.md R127) -/

namespace Sys2Proof

open Machine (branches leaves treeDepth token_or_command)

/-! ### One token or command -/

theorem encode_tokenOf (T : Tree) : encode (tokenOf T) = .token (tokenBits (tokenOf T)) := by cases T <;> rfl

/-- The two bits of `CMD` are the encoding of the command they code (R102, R103). -/
theorem encode_decodeCmd (c : BitVec 2) : encode (decodeCmd c) = .cmd c := by
  revert c
  decide

/-- The decoder reads a token and stops at its last bit (R95). -/
theorem decodeToken_tokenBits_append (T : Tree) (rest : List Bit) :
    decodeToken (tokenBits (tokenOf T) ++ rest) = .ok (tokenOf T, rest) := by
  cases T with
  | branch l r => rfl
  | leaf v =>
    obtain ⟨-, -, hdecode⟩ := Laws.EncodingWidth.leaf v
    exact hdecode rest
  | endLeaf => rfl

/-- A value that is cut short is completed by zero bits. -/
theorem exists_value_fill {s : List Bit} (hlen : s.length < 8) : ∃ more v, more ≠ [] ∧ s ++ more = bits8 v := by
  have hfill : (s ++ List.replicate (8 - s.length) false).length = 8 := by
    rw [List.length_append, List.length_replicate]
    omega
  refine ⟨_, _, List.ne_nil_of_length_pos ?_, (bits8_byteOf hfill).symm⟩
  rw [List.length_replicate]
  omega

theorem bits8_byteOf_take {s : List Bit} (hlen : 8 ≤ s.length) : bits8 (byteOf (s.take 8)) = s.take 8 :=
  bits8_byteOf (List.length_take_of_le hlen)

/-- Every bit string starts with a token, or is cut short inside one that is a description of its own (R95, R96). -/
theorem decodeToken_cases (bits : List Bit) :
    (∃ T rest, bits = tokenBits (tokenOf T) ++ rest ∧ decodeToken bits = .ok (tokenOf T, rest)) ∨
    (∃ e T more, decodeToken bits = .error e ∧ more ≠ [] ∧ bits ++ more = ser T) := by
  match bits with
  | [] => exact .inr ⟨.noFirstBit, .endLeaf, [false, false], rfl, nofun, rfl⟩
  | true :: rest => exact .inl ⟨.branch .endLeaf .endLeaf, rest, rfl, rfl⟩
  | [false] => exact .inr ⟨.noSecondBit, .endLeaf, [false], rfl, nofun, rfl⟩
  | false :: false :: rest => exact .inl ⟨.endLeaf, rest, rfl, rfl⟩
  | false :: true :: rest =>
    by_cases hshort : rest.length < 8
    · obtain ⟨more, v, hmore, hv⟩ := exists_value_fill hshort
      exact .inr ⟨.shortValue, .leaf v, more, by simp [decodeToken, hshort], hmore, by simp [ser, tokenBits, hv]⟩
    · refine .inl ⟨.leaf (byteOf (rest.take 8)), rest.drop 8, ?_, by simp [decodeToken, hshort, tokenOf]⟩
      simp [tokenOf, tokenBits, bits8_byteOf_take (Nat.le_of_not_lt hshort)]

/-- What the decoder reads is the encoding of the token it answers. -/
theorem eq_tokenBits_of_decodeToken {bits rest : List Bit} {i : Instr} (h : decodeToken bits = .ok (i, rest)) :
    ∃ T, i = tokenOf T ∧ bits = tokenBits i ++ rest := by
  rcases decodeToken_cases bits with ⟨T, rest', hbits, hok⟩ | ⟨e, _, _, herror, -, -⟩
  · obtain ⟨rfl, rfl⟩ : tokenOf T = i ∧ rest' = rest := by simpa [hok] using h
    exact ⟨T, rfl, hbits⟩
  · simp [herror] at h

/-- Settles O2: an instruction is a token or a command, and either decoder is the inverse of the encoder. -/
theorem decodeAndEncodeAgree : Obligations.DecodeAndEncodeAgree := by
  refine ⟨fun i c _ henc => ?_, fun i bits rest _ henc => ?_, fun c i rest hdec => ?_, fun bits i rest hdec => ?_⟩
  · obtain ⟨T, rfl⟩ | ⟨c', rfl⟩ := token_or_command i
    · simp [encode_tokenOf] at henc
    · obtain rfl : c' = c := by simpa [encode_decodeCmd] using henc
      rfl
  · obtain ⟨T, rfl⟩ | ⟨c, rfl⟩ := token_or_command i
    · obtain rfl : tokenBits (tokenOf T) = bits := by simpa [encode_tokenOf] using henc
      exact decodeToken_tokenBits_append T rest
    · simp [encode_decodeCmd] at henc
  · obtain ⟨rfl, rfl⟩ : decodeCmd c = i ∧ [] = rest := by simpa [decode] using hdec
    exact ⟨encode_decodeCmd c, rfl⟩
  · obtain ⟨T, rfl, hbits⟩ := eq_tokenBits_of_decodeToken hdec
    exact ⟨_, encode_tokenOf T, hbits⟩

/-- Settles O1: each word is its instruction's encoding with nothing after it. -/
theorem tableWordsDecode : Obligations.TableWordsDecode :=
  ⟨decodeToken_tokenBits_append (.branch .endLeaf .endLeaf) [], decodeToken_tokenBits_append (.leaf 0x41) [],
    decodeToken_tokenBits_append (.leaf 0x80) [], decodeToken_tokenBits_append .endLeaf [], rfl, rfl, rfl, rfl⟩

/-! ### The description of a tree -/

theorem ser_length (t : Tree) : (ser t).length = branches t + 10 * leaves t + 2 * t.endLeaves := by
  induction t with
  | branch l r ihl ihr =>
    simp only [ser, tokenBits, List.length_append, List.length_singleton, ihl, ihr, branches, leaves, Tree.endLeaves]
    ring
  | leaf v => rfl
  | endLeaf => rfl

theorem branches_succ (t : Tree) : branches t + 1 = leaves t + t.endLeaves := by
  induction t with
  | branch l r ihl ihr =>
    simp only [branches, leaves, Tree.endLeaves]
    omega
  | leaf v => rfl
  | endLeaf => rfl

/-- Each level has a bit of its own and, beside the path to the deepest leaf, a description of two bits at least (R127). -/
theorem depth_le_ser_length (t : Tree) : 3 * treeDepth t + 2 ≤ (ser t).length := by
  induction t with
  | branch l r ihl ihr =>
    simp only [ser, tokenBits, List.length_append, List.length_singleton, treeDepth]
    omega
  | leaf v => simp [ser, tokenBits, treeDepth]
  | endLeaf => simp [ser, tokenBits, treeDepth]

/-- Two bit strings that are equal and start with a token start with the same one. -/
theorem tokenBits_append_inj {t u : Tree} {x y : List Bit}
    (h : tokenBits (tokenOf t) ++ x = tokenBits (tokenOf u) ++ y) : tokenOf t = tokenOf u ∧ x = y := by
  have hdecode := congrArg decodeToken h
  simpa [decodeToken_tokenBits_append] using hdecode

/-- The descriptions of a node's subtrees: what its description has after its token (R94). -/
def serBelow : Tree → List Bit
  | .branch l r => ser l ++ ser r
  | .leaf _ => []
  | .endLeaf => []

theorem ser_eq_tokenBits_append (t : Tree) : ser t = tokenBits (tokenOf t) ++ serBelow t := by
  cases t <;> simp [ser, tokenOf, serBelow]

/-- Bit strings that are equal and start with a description have the same token first, and are equal after it. -/
theorem root_of_ser_append {t u : Tree} {x y : List Bit} (h : ser t ++ x = ser u ++ y) :
    tokenOf t = tokenOf u ∧ serBelow t ++ x = serBelow u ++ y := by
  rw [ser_eq_tokenBits_append, ser_eq_tokenBits_append u, List.append_assoc, List.append_assoc] at h
  exact tokenBits_append_inj h

/-- No description is the beginning of another one: equal roots by their tokens, then the subtrees one after the other. -/
theorem ser_append_inj {t u : Tree} {x y : List Bit} (h : ser t ++ x = ser u ++ y) : t = u ∧ x = y := by
  induction t generalizing u x y with
  | branch l r ihl ihr =>
    obtain ⟨htoken, hbelow⟩ := root_of_ser_append h
    cases u <;> cases htoken
    next l' r' =>
      simp only [serBelow, List.append_assoc] at hbelow
      obtain ⟨rfl, hright⟩ := ihl hbelow
      obtain ⟨rfl, hrest⟩ := ihr hright
      exact ⟨rfl, hrest⟩
  | leaf v =>
    obtain ⟨htoken, hbelow⟩ := root_of_ser_append h
    cases u <;> cases htoken
    exact ⟨rfl, hbelow⟩
  | endLeaf =>
    obtain ⟨htoken, hbelow⟩ := root_of_ser_append h
    cases u <;> cases htoken
    exact ⟨rfl, hbelow⟩

/-- Settles O3: the equations are those of `ser`, the counts go by induction on the tree. -/
theorem serializationIsPrefixFree : Obligations.SerializationIsPrefixFree :=
  ⟨fun _ _ => rfl, fun _ => rfl, rfl, fun t => ⟨ser_length t, branches_succ t, depth_le_ser_length t⟩,
    fun _ _ _ _ => ser_append_inj⟩

/-- The recursive descent reads a description, or runs out of bits inside one: a description that has begun is completed by
subtrees of its own choosing (R96). -/
theorem parseFuel_cases {n : Nat} {bits : List Bit} (hn : bits.length < n) :
    (∃ t rest, parseFuel n bits = .ok (t, rest) ∧ bits = ser t ++ rest) ∨
    (∃ e t more, parseFuel n bits = .error e ∧ more ≠ [] ∧ bits ++ more = ser t) := by
  induction n generalizing bits with
  | zero => cases hn
  | succ n ih =>
    rcases decodeToken_cases bits with ⟨T, rest, hbits, hok⟩ | ⟨e, T, more, herror, hmore, hser⟩
    · cases T with
      | branch _ _ =>
        change bits = true :: rest at hbits
        subst hbits
        have hrest : rest.length < n := Nat.lt_of_succ_lt_succ hn
        rcases ih hrest with ⟨l, rest', hl, rfl⟩ | ⟨e, l, more, hl, hmore, hser⟩
        · have hrest' : rest'.length < n := by
            rw [List.length_append] at hrest
            omega
          rcases ih hrest' with ⟨r, rest'', hr, rfl⟩ | ⟨e, r, more, hr, hmore, hser⟩
          · exact .inl ⟨.branch l r, rest'', by simp [parseFuel, hok, tokenOf, hl, hr], by simp [ser, tokenBits]⟩
          · exact .inr ⟨e, .branch l r, more, by simp [parseFuel, hok, tokenOf, hl, hr], hmore,
              by simp [ser, tokenBits, hser]⟩
        · exact .inr ⟨e, .branch l .endLeaf, more ++ ser .endLeaf, by simp [parseFuel, hok, tokenOf, hl],
            by simp [hmore], by simp [ser, tokenBits, ← hser]⟩
      | leaf v => exact .inl ⟨.leaf v, rest, by simp [parseFuel, hok, tokenOf], hbits⟩
      | endLeaf => exact .inl ⟨.endLeaf, rest, by simp [parseFuel, hok, tokenOf], hbits⟩
    · exact .inr ⟨e, T, more, by simp [parseFuel, herror], hmore, hser⟩

/-- No bit string both starts with a description and is cut short inside one. -/
theorem not_cut_short_of_ser_append {t u : Tree} {rest more : List Bit} (h : ser t ++ rest ++ more = ser u) :
    more = [] := by
  have hsplit : ser t ++ (rest ++ more) = ser u ++ [] := by simpa using h
  exact (List.append_eq_nil_iff.mp (ser_append_inj hsplit).2).2

/-- Settles O4: the descent has fuel for every bit, and no description is the beginning of another one. -/
theorem bitStringsDescribeOrRunOut : Obligations.BitStringsDescribeOrRunOut := by
  intro bits
  rcases parseFuel_cases (Nat.lt_succ_self bits.length) with
    ⟨t, rest, hok, hbits⟩ | ⟨e, t, more, herror, hmore, hser⟩
  · refine .inl ⟨⟨t, rest, hbits, hok⟩, ?_⟩
    rintro ⟨u, more, hmore, hser⟩
    rw [hbits] at hser
    exact hmore (not_cut_short_of_ser_append hser)
  · refine .inr ⟨⟨e, herror⟩, ⟨t, more, hmore, hser⟩, ?_⟩
    rintro ⟨u, rest, rfl⟩
    exact hmore (not_cut_short_of_ser_append hser)

end Sys2Proof
end

section
/-! ## The alignment of a compressed stream (30_encoding.md R100, 44_compressor.md R197 to R200) -/

namespace Sys2Proof.Machine

theorem enc_length (T : Tree) (S : List Byte) (o : Nat) :
    (enc T S o).length = (encBody T S).length + (8 - (o + (encBody T S).length) % 8) % 8 := by
  simp [enc, padBits]

/-- Settles O40: the padding goes exactly to the next byte boundary. -/
theorem compressedStreamIsByteAligned : Obligations.CompressedStreamIsByteAligned := by
  intro T S o _
  have hlen := enc_length T S o
  have haligned : (o + (enc T S o).length) % 8 = 0 := by omega
  refine ⟨haligned, ⟨(8 - (o + (encBody T S).length) % 8) % 8, by omega, rfl⟩, ?_⟩
  rintro rfl
  simpa using haligned

end Sys2Proof.Machine
end

section
/-! ## Every state has a next step (30_encoding.md R96, R103, 60_exceptions.md R226, R229) -/

namespace Sys2Proof.Machine

/-- A result that is a next state: no stop of the machine. -/
def GoesOn (x : Result) : Prop := ∃ t, x = .next t

theorem GoesOn.next (t : State) : GoesOn (.next t) := ⟨t, rfl⟩

/-- A transaction that ends the command has a next state of its own. -/
theorem GoesOn.andThen {α : Type} {x : Tx α} {k : α → State → Result} (hk : ∀ a u, GoesOn (k a u)) :
    GoesOn (x.andThen k) := by
  cases x with
  | done a u => exact hk a u
  | ended t => exact .next t

section
variable {s : State}

theorem readOneToken_goesOn (hp : s.phase.reads = true) : GoesOn (readOneToken s) := by
  obtain ⟨t, -, ht, -⟩ := readOneToken_cases hp
  exact ⟨t, ht⟩

theorem writeOneToken_goesOn (hp : s.phase.writes = true) : GoesOn (writeOneToken s) := by
  cases hw : s.wstack with
  | nil =>
    simp only [writeOneToken, hw]
    exact .next _
  | cons f w =>
    obtain ⟨t, -, ht, -⟩ := writeOneToken_cases hp hw
    exact ⟨t, ht⟩

theorem walk_goesOn : GoesOn (walk s) := by
  unfold walk
  split
  next => split <;> exact .next _
  next => exact .andThen fun _ _ => .next _
  next => split <;> exact .next _
  next => exact .next _

theorem readChunk_goesOn : GoesOn (readChunk s) :=
  .andThen fun r _ => by cases r <;> exact .next _

theorem emitBit_goesOn (b : Bit) (rest : Code) : GoesOn (emitBit b rest s) := .andThen fun _ _ => .next _

theorem emitChunk_goesOn : GoesOn (emitChunk s) := by
  unfold emitChunk
  split
  next b rest _ => exact emitBit_goesOn b rest
  next => exact .next _
  next => split <;> exact .next _

theorem emitEom_goesOn : GoesOn (emitEom s) := by
  unfold emitEom
  split
  next b rest _ => exact emitBit_goesOn b rest
  next => exact .next _
  next => exact .next _

theorem padStep_goesOn : GoesOn (padStep s) := by
  unfold padStep
  split
  next => exact .next _
  next => exact .andThen fun _ _ => .next _

/-- Every phase of a command has a step. -/
theorem phaseStep_goesOn (hp : s.phase ≠ .idle) : GoesOn (phaseStep s) := by
  cases hphase : s.phase <;> simp only [phaseStep, hphase]
  case idle => exact absurd hphase hp
  case rt => exact readOneToken_goesOn (by rw [hphase]; rfl)
  case wt => exact writeOneToken_goesOn (by rw [hphase]; rfl)
  case dTree => exact readOneToken_goesOn (by rw [hphase]; rfl)
  case dWalk => exact walk_goesOn
  case dOut => exact .andThen fun _ _ => .next _
  case cTree => exact writeOneToken_goesOn (by rw [hphase]; rfl)
  case cTable => exact .next _
  case cRead => exact readChunk_goesOn
  case cEmit => exact emitChunk_goesOn
  case cEom => exact emitEom_goesOn
  case cPad => exact padStep_goesOn
  case cFlush => exact .andThen fun _ _ => .next _

/-- The running command has a step. -/
theorem exec_goesOn_of_busy {i : Instr} (hs : s.status = .busy) (hc : s.phase.command = some i) : GoesOn (exec i s) := by
  rw [exec_eq_phaseStep hs hc]
  refine phaseStep_goesOn fun hidle => ?_
  rw [hidle] at hc
  cases hc

theorem coreTurn_goesOn : GoesOn (coreTurn s).result := by
  rcases coreTurn_cases s with h | ⟨i, hs, hc, h⟩ | ⟨i, w, hs, hc, -, -, h⟩ | ⟨n, w, -, -, h⟩ <;> rw [h]
  · exact .next _
  · exact exec_goesOn_of_busy hs hc
  · exact exec_goesOn_of_busy (s := { s with waits := w }) hs hc
  · exact .next _

/-- All four codes of `CMD` are assigned (R103): in `READY` each starts a command. -/
theorem exec_decodeCmd_goesOn_of_ready (hs : s.status = .ready) (c : BitVec 2) : GoesOn (exec (decodeCmd c) s) := by
  rcases decodeCmd_cases c with h | h | h | h <;> rw [h]
  · exact ⟨_, exec_readTree_of_ready hs⟩
  · exact ⟨_, exec_writeTree_of_ready hs⟩
  · exact ⟨_, exec_decompress_of_ready hs⟩
  · exact ⟨_, exec_compress_of_ready hs⟩

theorem issue_goesOn (hs : s.status ≠ .busy) (c : BitVec 2) : GoesOn (issue c s).result := by
  unfold issue
  split
  next => exact .next _
  next hf =>
    have hready : s.status = .ready := by
      cases hst : s.status with
      | ready => rfl
      | busy => exact absurd hst hs
      | faulted => exact absurd hst hf
    exact exec_decodeCmd_goesOn_of_ready (s := { s with cmd := c }) hready c

/-- No action of the host stops the machine: an issue is not taken in `BUSY`, and the others run no instruction. -/
theorem hostTurn_goesOn {a : HostAction} (ha : s.status = .busy → a.anyTime = true) : GoesOn (hostTurn a s).result := by
  cases a
  case issue c =>
    refine issue_goesOn (fun hb => ?_) c
    cases ha hb
  all_goals exact .next _

end

/-- Settles O20: the turn is CORE's own, or the host's. -/
theorem everyStateHasANextStep : Obligations.EveryStateHasANextStep := by
  intro s
  rw [step_eq_result]
  unfold turn
  split
  next => exact coreTurn_goesOn
  next a h _ =>
    split
    next => exact coreTurn_goesOn
    next =>
      split
      next => exact coreTurn_goesOn
      next hany => exact hostTurn_goesOn fun hb => by_contra fun ha => hany ⟨hb, ha⟩

end Sys2Proof.Machine
end

section
/-! ## Reading a token, one transaction a step (30_encoding.md R95, 40_tree_reader.md R121, R128) -/

namespace Sys2Proof.Machine

/-- A parse whose bits, those read of the token under way and those at the cursor, start with the token `i`. -/
structure ReadsToken (s : State) (i : Instr) (rest : List Bit) : Prop where
  busy : s.status = .busy
  reads : s.phase.reads = true
  alone : Alone s
  undisturbed : Undisturbed s
  decodes : decodeToken (s.token.moved ++ s.src.left) = .ok (i, rest)

/-- How many reads of the token `i` are still to come. -/
def readsLeft (s : State) (i : Instr) : Nat := (readTxns i).length - s.token.moved.length

/-- The state after the reads of the token `i` that are still to come. -/
def afterToken (s : State) (i : Instr) : State :=
  { s with
    token := .start
    src := { s.src with pos := s.src.pos + ((tokenBits i).length - s.token.moved.length) }
    answers := s.answers.drop (readsLeft s i)
    asked := s.asked + readsLeft s i
    trace := s.trace ++ (readTxns i).drop s.token.moved.length }

/-- The state after a `ReadBit` that returned `b`. -/
def bitRead (s : State) (b : Bit) : State :=
  { record .readBit (.bit b) s with src := { s.src with pos := s.src.pos + 1 } }

/-- Reading moves the cursor past the first bit left. -/
theorem left_of_cons {d : BitSource} {b : Bit} {r : List Bit} (h : d.left = b :: r) :
    ({ d with pos := d.pos + 1 } : BitSource).left = r := by
  have htail := congrArg List.tail h
  simpa [BitSource.left] using htail

/-- Eight bits left are the value that a `ReadBits(8)` returns. -/
theorem readBits8_ok_value {s : State} {choice : Nat} {v : Byte} {rest : List Bit} (info : BitVec 9)
    (ha : answer s = .ok choice) (hleft : s.src.left = bits8 v ++ rest) :
    readBits8 info s =
      .done v { record .readBits8 (.byte v) s with src := { s.src with pos := s.src.pos + 8 } } := by
  have htake : s.src.left.take 8 = bits8 v := by rw [hleft]; rfl
  have hlen : 8 ≤ s.src.left.length := by simp [hleft]
  rw [readBits8_ok_full info ha hlen, htake, Laws.byteOf_bits8]

/-! ### The reader's loop, by what its transaction gives -/

section
variable {s : State} {choice : Nat} (ha : answer s = .ok choice)
include ha

theorem fetchToken_start {b : Bit} {r : List Bit} (hk : s.token = .start) (hleft : s.src.left = b :: r) :
    fetchToken s = .done (if b then .token .branch else .more .zero) (bitRead s b) := by
  simp only [fetchToken, hk, readBit_ok_some 0 ha hleft]
  rfl

theorem fetchToken_zero {b : Bit} {r : List Bit} (hk : s.token = .zero) (hleft : s.src.left = b :: r) :
    fetchToken s = .done (if b then .more .zeroOne else .token .endLeaf) (bitRead s b) := by
  simp only [fetchToken, hk, readBit_ok_some 0 ha hleft]
  rfl

theorem fetchToken_zeroOne {v : Byte} {rest : List Bit} (hk : s.token = .zeroOne)
    (hleft : s.src.left = bits8 v ++ rest) :
    fetchToken s = .done (.token (.leaf v))
      { record .readBits8 (.byte v) s with src := { s.src with pos := s.src.pos + 8 } } := by
  simp only [fetchToken, hk, readBits8_ok_value 0 ha hleft]

end

theorem readOneToken_of_more {s u : State} {p : TokenPart} (h : fetchToken s = .done (.more p) u) :
    readOneToken s = .next { u with token := p } := by
  rw [readOneToken, h]
  rfl

theorem readOneToken_of_token {s u : State} {T : Tree} (h : fetchToken s = .done (.token (tokenOf T)) u) :
    readOneToken s = exec (tokenOf T) { u with token := .start } := by
  rw [readOneToken, h]
  cases T <;> rfl

theorem runSteps_one (s : State) : runSteps 1 s = step s := by
  refine (Host.Core.run.eq_2 Sys2Proof.core s 0).trans ?_
  change _ = Sys2Proof.core.step s
  cases Sys2Proof.core.step s <;> rfl

namespace ReadsToken

variable {s : State} {i : Instr} {rest : List Bit}

/-- In a parse a step is one of the reader's loop. -/
theorem step_eq (h : ReadsToken s i rest) : step s = readOneToken s := by
  have hrun : ∀ {c}, s.phase.command = some c → step s = phaseStep s := fun hc => by
    rw [step_alone h.alone h.busy hc, exec_eq_phaseStep h.busy hc]
  rcases s.phase.reads_iff.mp h.reads with hp | hp
  · rw [hrun (c := .readTree) (by rw [hp]; rfl), phaseStep, hp]
  · rw [hrun (c := .decompress) (by rw [hp]; rfl), phaseStep, hp]

/-- What a step of a parse comes to: the token's execution, with the last read of it, or a parse of the same token with one
read less to come. -/
def StepResult (s : State) (i : Instr) (rest : List Bit) : Prop :=
  (readsLeft s i = 1 ∧ step s = exec i (afterToken s i)) ∨
  ∃ t, step s = .next t ∧ ReadsToken t i rest ∧ readsLeft s i = readsLeft t i + 1 ∧ afterToken t i = afterToken s i

/-- A discriminant bit with more of the token to come. -/
theorem step_of_more (h : ReadsToken s i rest) {b : Bit} {r : List Bit} {p : TokenPart} (hleft : s.src.left = b :: r)
    (hfetch : fetchToken s = .done (.more p) (bitRead s b)) (hp : p.moved = s.token.moved ++ [b])
    (hbits : p.moved.length ≤ (tokenBits i).length)
    (htxns : (readTxns i).drop s.token.moved.length =
      { call := .readBit, reply := .bit b } :: (readTxns i).drop p.moved.length) : StepResult s i rest := by
  have hmoved : p.moved.length = s.token.moved.length + 1 := by simp [hp]
  have hcount : readsLeft s i = readsLeft { bitRead s b with token := p } i + 1 := by
    have hlen := congrArg List.length htxns
    simpa [readsLeft] using hlen
  refine .inr ⟨{ bitRead s b with token := p }, h.step_eq.trans (readOneToken_of_more hfetch), ?reads, hcount, ?after⟩
  case reads =>
    refine ⟨h.busy, h.reads, h.alone, h.undisturbed.tail rfl, ?_⟩
    have hsame : p.moved ++ r = s.token.moved ++ s.src.left := by rw [hp, hleft, List.append_assoc]; rfl
    change decodeToken (p.moved ++ ({ s.src with pos := s.src.pos + 1 } : BitSource).left) = _
    rw [left_of_cons hleft, hsame, h.decodes]
  case after =>
    have hpos : s.src.pos + 1 + ((tokenBits i).length - p.moved.length) =
        s.src.pos + ((tokenBits i).length - s.token.moved.length) := by omega
    simp only [afterToken, hcount, htxns]
    simp [bitRead, hpos, Nat.add_right_comm _ 1, Nat.add_assoc]

/-- The last read of the token. -/
theorem step_of_token (h : ReadsToken s i rest) {u : State} (hi : ∃ T, i = tokenOf T)
    (hfetch : fetchToken s = .done (.token i) u) (hcount : readsLeft s i = 1)
    (hu : { u with token := .start } = afterToken s i) : StepResult s i rest := by
  obtain ⟨T, rfl⟩ := hi
  refine .inl ⟨hcount, ?_⟩
  rw [h.step_eq, readOneToken_of_token hfetch, hu]

/-- Every step of a parse, by how far its token has come and which token it is. -/
theorem step_cases (h : ReadsToken s i rest) : StepResult s i rest := by
  obtain ⟨choice, ha⟩ := h.undisturbed.answered
  obtain ⟨T, rfl, hbits⟩ := eq_tokenBits_of_decodeToken h.decodes
  cases hk : s.token <;> rw [hk] at hbits
  case start =>
    cases T with
    | branch l r =>
      refine h.step_of_token ⟨_, rfl⟩ (fetchToken_start ha hk hbits) (by rw [readsLeft, hk]; rfl) ?_
      simp [afterToken, readsLeft, bitRead, record, hk, tokenOf, readTxns, tokenBits, TokenPart.moved]
    | leaf v =>
      exact h.step_of_more hbits (fetchToken_start ha hk hbits) (by rw [hk]; rfl) (Nat.le_add_left 1 9) (by rw [hk]; rfl)
    | endLeaf =>
      exact h.step_of_more hbits (fetchToken_start ha hk hbits) (by rw [hk]; rfl) (Nat.le_succ 1) (by rw [hk]; rfl)
  case zero =>
    cases T with
    | branch l r => cases hbits
    | leaf v =>
      have hleft := (List.cons.inj hbits).2
      exact h.step_of_more hleft (fetchToken_zero ha hk hleft) (by rw [hk]; rfl) (Nat.le_add_left 2 8) (by rw [hk]; rfl)
    | endLeaf =>
      have hleft := (List.cons.inj hbits).2
      refine h.step_of_token ⟨_, rfl⟩ (fetchToken_zero ha hk hleft) (by rw [readsLeft, hk]; rfl) ?_
      simp [afterToken, readsLeft, bitRead, record, hk, tokenOf, readTxns, tokenBits, TokenPart.moved]
  case zeroOne =>
    cases T with
    | branch l r => cases hbits
    | leaf v =>
      have hleft := (List.cons.inj (List.cons.inj hbits).2).2
      refine h.step_of_token ⟨_, rfl⟩ (fetchToken_zeroOne ha hk hleft) (by rw [readsLeft, hk]; rfl) ?_
      simp [afterToken, readsLeft, record, hk, tokenOf, readTxns, tokenBits, TokenPart.moved]
    | endLeaf => cases hbits

/-- The reads to come are followed by the token's execution; the last of them is that. -/
theorem runs (h : ReadsToken s i rest) :
    1 ≤ readsLeft s i ∧ runSteps (readsLeft s i) s = exec i (afterToken s i) ∧
    (readsLeft s i = 1 → step s = exec i (afterToken s i)) := by
  induction hn : readsLeft s i generalizing s with
  | zero =>
    rcases h.step_cases with ⟨hone, -⟩ | ⟨t, -, -, hcount, -⟩ <;> omega
  | succ n ih =>
    rcases h.step_cases with ⟨hone, hstep⟩ | ⟨t, hstep, ht, hcount, hafter⟩
    · obtain rfl : n = 0 := by omega
      exact ⟨le_refl 1, (runSteps_one s).trans hstep, fun _ => hstep⟩
    · obtain ⟨hpos, hrun, -⟩ := ih ht (by omega)
      exact ⟨by omega, by rw [runSteps_succ _ hstep, hrun, hafter], fun hone => by omega⟩

end ReadsToken

/-- Settles O18: the premises are those of a parse that reads the token. -/
theorem stepRunsDecodedToken : Obligations.StepRunsDecodedToken := by
  rintro s i rest _ _ hs hp ha hu hdecode rfl rfl
  exact ReadsToken.runs ⟨hs, hp, ha, hu, hdecode⟩

end Sys2Proof.Machine
end

section
/-! ## Writing a token, one transaction a step (30_encoding.md R91 to R93, 41_tree_writer.md R141, R145) -/

namespace Sys2Proof.Machine

/-- The state after a transaction `c` on `BITSNK` that sent `sent` and left `delivered` bytes in the byte stream. -/
def sentBits (s : State) (sent : List Bit) (c : Call) (delivered : Nat) : State :=
  { s with
    snk :=
      { s.snk with
        bits := s.snk.bits ++ sent, off := s.snk.off + BitVec.ofNat 3 sent.length, delivered := delivered }
    answers := s.answers.drop 1, asked := s.asked + 1, trace := s.trace ++ [{ call := c, reply := .done }] }

/-- How many whole bytes have reached the byte stream after `n` bits more, by the device's choice (R72). -/
def deliveredAfter (d : BitSink) (n choice : Nat) : Nat := pickBetween d.delivered ((d.bits.length + n) / 8) choice

/-- How many bits the next transaction of a subtree's token sends: a value goes out at once, the rest bit by bit
(R141). -/
def nextWidth : Tree → TokenPart → Nat
  | .leaf _, .zeroOne => 8
  | .leaf _, .start => 1
  | .leaf _, .zero => 1
  | .branch _ _, _ => 1
  | .endLeaf, _ => 1

section
variable {s : State}

theorem exec_branch_of_writes (hp : s.phase.writes = true) : exec .branch s = writeBranch s := by
  simp [exec, execBranch, Phase.reads_of_writes hp, hp]

theorem exec_leaf_of_writes (hp : s.phase.writes = true) (v : Byte) : exec (.leaf v) s = writeLeaf v s := by
  simp [exec, execLeaf, Phase.reads_of_writes hp, hp]

theorem exec_endLeaf_of_writes (hp : s.phase.writes = true) : exec .endLeaf s = writeEnd s := by
  simp [exec, execEndLeaf, Phase.reads_of_writes hp, hp]

/-! ### What is left to emit -/

theorem emitted_of_ne_nil {w : List WFrame} (hw : w ≠ []) : emitted w s = { s with token := .start, wstack := w } := by
  cases w with
  | nil => exact absurd rfl hw
  | cons f r => rfl

theorem emitted_nil_of_cTree (hp : s.phase = .cTree) :
    emitted [] s = { s with wstack := [], token := .start, phase := .cTable } := if_pos hp

theorem emitted_nil_of_wt (hp : s.phase = .wt) : emitted [] s = finish s := if_neg (by rw [hp]; nofun)

/-! ### The transactions of a token -/

section
variable {choice : Nat} (ha : answer s = .ok choice)
include ha

theorem accept_sends (c : Call) (sent : List Bit) :
    sinkTransaction c (fun choice d => d.accept sent choice) s =
      .done () (sentBits s sent c (deliveredAfter s.snk sent.length choice)) := by
  rw [sinkTransaction_ok c _ ha, record, ← List.drop_one]
  rfl

theorem writeBit_sends (b : Bit) :
    writeBit b s = .done () (sentBits s [b] (.writeBit b) (deliveredAfter s.snk 1 choice)) := accept_sends ha _ _

theorem writeBits8_sends (v : Byte) :
    writeBits8 v s = .done () (sentBits s (bits8 v) (.writeBits8 v) (deliveredAfter s.snk 8 choice)) :=
  accept_sends ha _ _

theorem writePart_sends (b : Bit) (p : TokenPart) :
    writePart b p s =
      .next { sentBits s [b] (.writeBit b) (deliveredAfter s.snk 1 choice) with token := p } := by
  rw [writePart, writeBit_sends ha]
  rfl

variable {d : Nat} {w : List WFrame} (hp : s.phase.writes = true)
include hp

/-- A Branch within `MAX_DEPTH`: its one bit, then its subtrees are to be emitted, left first (R145). -/
theorem exec_branch_sends {l r : Tree} (hw : s.wstack = { sub := .branch l r, depth := d } :: w)
    (hfit : withinLimit s.par.maxDepth (d + 1) = true) :
    exec .branch s =
      .next
        { sentBits s [true] (.writeBit true) (deliveredAfter s.snk 1 choice) with
          token := .start
          wstack := { sub := l, depth := d + 1 } :: { sub := r, depth := d + 1 } :: w } := by
  simp only [exec_branch_of_writes hp, writeBranch, hw, hfit, if_true, writeBit_sends ha]
  rfl

/-- The first bit of every other token is 0. -/
theorem exec_sends_first {T : Tree} (hw : s.wstack = { sub := T, depth := d } :: w) (hT : tokenOf T ≠ .branch)
    (hk : s.token = .start) :
    exec (tokenOf T) s =
      .next { sentBits s [false] (.writeBit false) (deliveredAfter s.snk 1 choice) with token := .zero } := by
  cases T with
  | branch l r => exact absurd rfl hT
  | leaf v => simp only [tokenOf, exec_leaf_of_writes hp, writeLeaf, hw, hk, if_true, writePart_sends ha]
  | endLeaf => simp only [tokenOf, exec_endLeaf_of_writes hp, writeEnd, hw, hk, writePart_sends ha]

/-- The second bit of a Leaf is 1. -/
theorem exec_leaf_sends_second {v : Byte} (hw : s.wstack = { sub := .leaf v, depth := d } :: w) (hk : s.token = .zero) :
    exec (.leaf v) s =
      .next { sentBits s [true] (.writeBit true) (deliveredAfter s.snk 1 choice) with token := .zeroOne } := by
  simp only [exec_leaf_of_writes hp, writeLeaf, hw, hk, if_true, writePart_sends ha]

/-- The value of a Leaf completes it. -/
theorem exec_leaf_sends_value {v : Byte} (hw : s.wstack = { sub := .leaf v, depth := d } :: w)
    (hk : s.token = .zeroOne) :
    exec (.leaf v) s =
      .next (emitted w (sentBits s (bits8 v) (.writeBits8 v) (deliveredAfter s.snk 8 choice))) := by
  simp only [exec_leaf_of_writes hp, writeLeaf, hw, hk, if_true, writeBits8_sends ha]
  rfl

/-- The second bit of an EndLeaf is 0, and completes it. -/
theorem exec_endLeaf_sends_second (hw : s.wstack = { sub := .endLeaf, depth := d } :: w) (hk : s.token = .zero) :
    exec .endLeaf s =
      .next (emitted w (sentBits s [false] (.writeBit false) (deliveredAfter s.snk 1 choice))) := by
  simp only [exec_endLeaf_of_writes hp, writeEnd, hw, hk, writeBit_sends ha]
  rfl

end

end

/-- Settles O26: by the transaction that comes next of the token; its width fixes what the device may have delivered. -/
theorem writeTokensAppendTheirBits : Obligations.WriteTokensAppendTheirBits := by
  intro s sub d w hp hw hu hfit
  obtain ⟨choice, ha⟩ := hu.answered
  refine ⟨deliveredAfter s.snk (nextWidth sub s.token) choice, fun sent c u hsent => ?_⟩
  obtain rfl : u = sentBits s sent c (deliveredAfter s.snk (nextWidth sub s.token) choice) := hsent
  refine ⟨?branch, ?first, ?second, ?last⟩
  case branch =>
    rintro l r rfl rfl rfl
    exact exec_branch_sends ha hp hw (withinLimit_mono (by simp only [treeDepth]; omega) hfit)
  case first =>
    rintro i rfl hi hk rfl rfl
    have hwidth : nextWidth sub s.token = 1 := by rw [hk]; cases sub <;> rfl
    rw [hwidth]
    exact exec_sends_first ha hp hw hi hk
  case second =>
    rintro v rfl hk rfl rfl
    rw [hk]
    exact exec_leaf_sends_second ha hp hw hk
  case last =>
    rintro i rfl hcase
    have hlast : exec (tokenOf sub) s =
        .next (emitted w (sentBits s sent c (deliveredAfter s.snk (nextWidth sub s.token) choice))) := by
      rcases hcase with ⟨hi, hk, rfl, rfl⟩ | ⟨v, hi, hk, rfl, rfl⟩
      · cases sub <;> cases hi
        exact exec_endLeaf_sends_second ha hp hw hk
      · cases sub <;> cases hi
        rw [hk]
        exact exec_leaf_sends_value ha hp hw hk
    rw [hlast]
    refine ⟨fun hne => ?_, ?_, ?_⟩
    · rw [emitted_of_ne_nil hne]
    · rintro rfl hwt
      exact congrArg Host.Outcome.next (emitted_nil_of_wt hwt)
    · rintro rfl hct
      exact congrArg Host.Outcome.next (emitted_nil_of_cTree hct)

end Sys2Proof.Machine
end

section
/-! ## What a token does in a parse (40_tree_reader.md R121, R127, R128) -/

namespace Sys2Proof.Machine

section
variable {s : State}

theorem exec_branch_of_reads (hp : s.phase.reads = true) : exec .branch s = .next (readBranch s) := by
  simp [exec, execBranch, hp]

/-- A Leaf or an EndLeaf is a complete subtree. -/
theorem exec_leafToken_of_reads (hp : s.phase.reads = true) {T : Tree} (hT : tokenOf T ≠ .branch) :
    exec (tokenOf T) s = .next (handUp s T s.rstack) := by
  cases T with
  | branch l r => exact absurd rfl hT
  | leaf v => simp [tokenOf, exec, execLeaf, hp]
  | endLeaf => simp [tokenOf, exec, execEndLeaf, hp]

theorem readBranch_of_fits (hfit : withinLimit s.par.maxDepth (s.rstack.length + 1) = true) :
    readBranch s = { s with rstack := .needLeft :: s.rstack } := by
  simp [readBranch, hfit]

theorem readBranch_of_too_deep (hdeep : withinLimit s.par.maxDepth (s.rstack.length + 1) = false) :
    readBranch s = raise .resource 0 s := by
  simp [readBranch, hdeep]

theorem treeRead_of_rt (hp : s.phase = .rt) (T : Tree) : treeRead T s = finish { s with tree := some T } := by
  simp [treeRead, hp]

theorem treeRead_of_dTree (hp : s.phase = .dTree) (T : Tree) :
    treeRead T s = { s with tree := some T, node := some T, rstack := [], phase := .dWalk } := by
  simp [treeRead, hp]

/-- A subtree handed up with no Branch waiting for its left subtree completes the description. -/
theorem handUp_completes (s : State) (ls : List Tree) (t : Tree) :
    handUp s t (ls.map RFrame.needRight) = treeRead (closeBranches t ls) s := by
  simpa [handUp] using handUp_closes s ls t []

end

/-- Settles O25: the stack is Branches that the subtree closes, then an open one or nothing. -/
theorem readTokensBuildTheTree : Obligations.ReadTokensBuildTheTree := by
  intro s hp
  refine ⟨fun hfit => ?_, ?_⟩
  · rw [exec_branch_of_reads hp, readBranch_of_fits hfit]
  · rintro t i ls rfl hi
    rw [exec_leafToken_of_reads hp hi]
    refine ⟨fun r hstack => ?_, fun hstack hrt => ?_, fun hstack hdTree => ?_⟩
    · rw [hstack, handUp_closes]
      rfl
    · rw [hstack, handUp_completes, treeRead_of_rt hrt]
      rfl
    · rw [hstack, handUp_completes, treeRead_of_dTree hdTree]
      rfl

/-! ### Limits (R127, 60_exceptions.md R223) -/

theorem not_withinLimit_succ {m n : Nat} (h : m ≤ n) : withinLimit (some m) (n + 1) = false :=
  decide_eq_false (by omega)

theorem writeBranch_of_too_deep {s : State} {l r : Tree} {d : Nat} {w : List WFrame}
    (hw : s.wstack = { sub := .branch l r, depth := d } :: w)
    (hdeep : withinLimit s.par.maxDepth (d + 1) = false) : writeBranch s = .next (raise .resource 0 s) := by
  simp [writeBranch, hw, hdeep]

theorem walk_of_output_full {s : State} {v : Byte} (hnode : s.node = some (.leaf v))
    (hfull : withinLimit s.par.obufMax (s.obuf.length + 1) = false) : walk s = .next (raise .resource 1 s) := by
  simp [walk, hnode, hfull]

/-- Settles O51: each of the three steps is a `raise` once its size is beyond the limit. -/
theorem limitsRaiseResource : Obligations.LimitsRaiseResource := by
  intro s
  refine ⟨fun m hm hp hlen => ?read, fun m l r d w hm hp hw hd => ?write, fun m v hm hs hp hnode hlen => ?walk⟩
  case read =>
    have hdeep : withinLimit s.par.maxDepth (s.rstack.length + 1) = false := hm ▸ not_withinLimit_succ hlen
    exact ⟨_, by rw [exec_branch_of_reads hp, readBranch_of_too_deep hdeep], rfl, rfl, rfl,
      raise_tree_of_reader _ _ (Phase.command_of_reads hp)⟩
  case write =>
    have hdeep : withinLimit s.par.maxDepth (d + 1) = false := hm ▸ not_withinLimit_succ hd
    exact ⟨_, (exec_branch_of_writes hp).trans (writeBranch_of_too_deep hw hdeep), rfl, rfl, rfl, rfl⟩
  case walk =>
    have hfull : withinLimit s.par.obufMax (s.obuf.length + 1) = false := hm ▸ not_withinLimit_succ hlen
    have hstep : exec .decompress s = walk s := by rw [exec_eq_phaseStep hs (by rw [hp]; rfl), phaseStep, hp]
    exact ⟨_, hstep.trans (walk_of_output_full hnode hfull), rfl, rfl, rfl, rfl⟩

end Sys2Proof.Machine
end

section
/-! ## The recursive descent (40_tree_reader.md R124, 41_tree_writer.md R147) -/

namespace Sys2Proof

theorem parse_cases (bits : List Bit) :
    (∃ t rest, parse bits = .ok (t, rest) ∧ bits = ser t ++ rest) ∨
    (∃ e t more, parse bits = .error e ∧ more ≠ [] ∧ bits ++ more = ser t) :=
  parseFuel_cases (Nat.lt_succ_self bits.length)

/-- The bits that the descent consumed are the description of the tree it answers. -/
theorem eq_ser_append_of_parse {bits rest : List Bit} {t : Tree} (h : parse bits = .ok (t, rest)) :
    bits = ser t ++ rest := by
  rcases parse_cases bits with ⟨u, rest', hok, hbits⟩ | ⟨e, _, _, herror, -, -⟩
  · obtain ⟨rfl, rfl⟩ : u = t ∧ rest' = rest := by simpa [hok] using h
    exact hbits
  · simp [herror] at h

/-- A description followed by anything is not cut short, and it is the description of one tree only. -/
theorem parse_ser_append (t : Tree) (y : List Bit) : parse (ser t ++ y) = .ok (t, y) := by
  rcases parse_cases (ser t ++ y) with ⟨u, rest, hok, hbits⟩ | ⟨_, u, more, -, hmore, hser⟩
  · obtain ⟨rfl, rfl⟩ := ser_append_inj hbits
    exact hok
  · exact absurd (not_cut_short_of_ser_append hser) hmore

/-- Settles O5: the descent reads a description or is cut short inside one, and no description is the beginning of
another. -/
theorem parseInvertsSerialization : Obligations.ParseInvertsSerialization :=
  ⟨parse_ser_append, fun _ _ _ => eq_ser_append_of_parse⟩

end Sys2Proof
end

section
/-! ## Descriptions cut short (30_encoding.md R96, 40_tree_reader.md R125) -/

namespace Sys2Proof

/-- Of two ways to split a list, the first part of one ends inside the first part of the other, or has it as its
beginning. -/
theorem append_split_cases {α : Type} {a b c d : List α} (h : a ++ b = c ++ d) :
    (∃ m, m ≠ [] ∧ a ++ m = c) ∨ ∃ a', a = c ++ a' ∧ a' ++ b = d := by
  rcases List.append_eq_append_iff.mp h with ⟨m, hc, hb⟩ | ⟨a', ha, hd⟩
  · by_cases hm : m = []
    · exact .inr ⟨[], by simp [hc, hm], by simp [hb, hm]⟩
    · exact .inl ⟨m, hm, hc.symm⟩
  · exact .inr ⟨a', ha, hd.symm⟩

/-- The beginning of a description stops inside the root's token, or goes on into what is below the root. -/
theorem cut_cases {bits more : List Bit} {T : Tree} (hcut : bits ++ more = ser T) :
    (∃ e, decodeToken bits = .error e) ∨
    ∃ rest, bits = tokenBits (tokenOf T) ++ rest ∧ rest ++ more = serBelow T := by
  rcases decodeToken_cases bits with ⟨U, rest, rfl, -⟩ | ⟨e, _, _, herror, -, -⟩
  · rw [ser_eq_tokenBits_append, List.append_assoc] at hcut
    obtain ⟨htoken, hbelow⟩ := tokenBits_append_inj hcut
    exact .inr ⟨rest, by rw [htoken], hbelow⟩
  · exact .inl ⟨e, herror⟩

/-- A Leaf or an EndLeaf has nothing below it: its description is cut short inside its token. -/
theorem decodeToken_of_cut_leafToken {bits more : List Bit} {T : Tree} (hT : tokenOf T ≠ .branch) (hmore : more ≠ [])
    (hcut : bits ++ more = ser T) : ∃ e, decodeToken bits = .error e := by
  have hbelow : serBelow T = [] := by
    cases T with
    | branch l r => exact absurd rfl hT
    | leaf v => rfl
    | endLeaf => rfl
  rcases cut_cases hcut with he | ⟨rest, -, hrest⟩
  · exact he
  · rw [hbelow] at hrest
    exact absurd (List.append_eq_nil_iff.mp hrest).2 hmore

/-- The description of a Branch is cut short inside its token, in its left subtree, or, with that complete, in its right
one. -/
theorem cut_branch_cases {bits more : List Bit} {l r : Tree} (hcut : bits ++ more = ser (.branch l r)) :
    (∃ e, decodeToken bits = .error e) ∨
    ∃ rest, bits = tokenBits .branch ++ rest ∧
      ((∃ more', more' ≠ [] ∧ rest ++ more' = ser l) ∨ ∃ rest', rest = ser l ++ rest' ∧ rest' ++ more = ser r) :=
  (cut_cases hcut).imp_right fun ⟨rest, hbits, hbelow⟩ => ⟨rest, hbits, append_split_cases hbelow⟩

end Sys2Proof
end

section
/-! ## Reading a whole description (40_tree_reader.md R121 to R129)

A parse at a token boundary reads the description of a tree and hands the tree up to its stack, whatever stands on it
(`AtSubtree.reaches_handUp`); with the description cut short it runs out of bits (`AtSubtree.reaches_exhausted`). Both
go by induction on the tree. -/

namespace Sys2Proof.Machine

theorem Reaches.andThen {s t : State} {P : State → Prop} (h : Reaches s (· = t)) (ht : Reaches t P) : Reaches s P :=
  h.trans fun _ hu => by rw [hu]; exact ht

/-- `s` after transactions `txns` on `BITSRC` that returned `bits`. -/
def afterReads (s : State) (bits : List Bit) (txns : List Txn) : State :=
  { s with
    src := { s.src with pos := s.src.pos + bits.length }
    answers := s.answers.drop txns.length
    asked := s.asked + txns.length
    trace := s.trace ++ txns }

theorem afterReads_afterReads (s : State) (bits bits' : List Bit) (txns txns' : List Txn) :
    afterReads (afterReads s bits txns) bits' txns' = afterReads s (bits ++ bits') (txns ++ txns') := by
  simp [afterReads, Nat.add_assoc]

/-- The bits that were read are no longer left. -/
theorem afterReads_left {s : State} {bits rest : List Bit} (h : s.src.left = bits ++ rest) (txns : List Txn) :
    (afterReads s bits txns).src.left = rest := by
  have hdrop := congrArg (List.drop bits.length) h
  simpa [BitSource.left, afterReads] using hdrop

/-- From a token boundary, the reads of a token that are still to come are all its reads. -/
theorem afterToken_of_start {s : State} (hk : s.token = .start) (i : Instr) :
    afterToken s i = afterReads s (tokenBits i) (readTxns i) := by
  simp [afterToken, readsLeft, afterReads, hk, TokenPart.moved]

/-- Handing a subtree up reads the stack it is given, and overwrites the one of the state. -/
theorem handUp_rstack (s : State) (r' : List RFrame) (t : Tree) (r : List RFrame) :
    handUp { s with rstack := r' } t r = handUp s t r := by
  induction r generalizing t with
  | nil =>
    simp only [handUp, treeRead]
    split <;> rfl
  | cons f r ih =>
    cases f with
    | needLeft => rfl
    | needRight l => exact ih (.branch l t)

/-! ### Inside a Branch -/

/-- The parse `s` with the token of a Branch read: its left subtree comes next. -/
def leftOpen (s : State) : State :=
  { afterReads s (tokenBits .branch) (readTxns .branch) with rstack := .needLeft :: s.rstack }

/-- The parse `s` with the token of a Branch and its left subtree `l` read: its right subtree comes next. -/
def rightOpen (s : State) (l : Tree) : State :=
  { afterReads s (tokenBits .branch ++ ser l) (readTxns .branch ++ preorder readTxns l) with
    rstack := .needRight l :: s.rstack }

/-- A left subtree handed up leaves the right one to come. -/
theorem handUp_leftOpen (s : State) (l : Tree) :
    handUp (afterReads (leftOpen s) (ser l) (preorder readTxns l)) l (leftOpen s).rstack = rightOpen s l := by
  rw [rightOpen, ← afterReads_afterReads]
  rfl

/-- A right subtree handed up is its Branch handed up to what stood below (R128). -/
theorem handUp_rightOpen (s : State) (l r : Tree) :
    handUp (afterReads (rightOpen s l) (ser r) (preorder readTxns r)) r (rightOpen s l).rstack =
      handUp (afterReads s (ser (.branch l r)) (preorder readTxns (.branch l r))) (.branch l r) s.rstack := by
  rw [ser, preorder, ← afterReads_afterReads]
  exact handUp_rstack (afterReads (afterReads s _ _) (ser r) (preorder readTxns r)) (.needRight l :: s.rstack)
    (.branch l r) s.rstack

/-! ### Parses -/

/-- A parse that nobody disturbs. -/
structure Parsing (s : State) : Prop where
  busy : s.status = .busy
  reads : s.phase.reads = true
  alone : Alone s
  undisturbed : Undisturbed s

/-- A parse at a token boundary, with `bits` at the cursor and room on its stack for the tree `T`: no Branch of it goes
beyond `MAX_DEPTH` (R127). -/
structure AtSubtree (s : State) (T : Tree) (bits : List Bit) : Prop extends Parsing s where
  start : s.token = .start
  left : s.src.left = bits
  fits : withinLimit s.par.maxDepth (s.rstack.length + treeDepth T) = true

/-- `u` is where the parse `s` ends when the bits run out: the fault of R125, with nothing written. -/
def Exhausted (s u : State) : Prop :=
  ∃ v, u = raise .streamExhausted 0 v ∧ v.phase = s.phase ∧ v.snk = s.snk ∧ v.ysrc = s.ysrc ∧ v.ysnk = s.ysnk

/-- In a parse a step is one of the reader's loop. -/
theorem Parsing.step_eq {s : State} (h : Parsing s) : step s = readOneToken s := by
  have hstep : ∀ {c}, s.phase.command = some c → step s = phaseStep s := fun hc => by
    rw [step_alone h.alone h.busy hc, exec_eq_phaseStep h.busy hc]
  rcases s.phase.reads_iff.mp h.reads with hp | hp
  · rw [hstep (c := .readTree) (by rw [hp]; rfl), phaseStep, hp]
  · rw [hstep (c := .decompress) (by rw [hp]; rfl), phaseStep, hp]

/-! ### A description that is there -/

namespace AtSubtree

section
variable {s : State} {T l r : Tree} {rest : List Bit}

/-- The reads of a token are followed by its execution (R128). -/
theorem reaches_of_exec (h : AtSubtree s T (tokenBits (tokenOf T) ++ rest)) {t : State}
    (hexec : exec (tokenOf T) (afterReads s (tokenBits (tokenOf T)) (readTxns (tokenOf T))) = .next t) :
    Reaches s (· = t) := by
  have hdecode : decodeToken (s.token.moved ++ s.src.left) = .ok (tokenOf T, rest) := by
    rw [h.start, h.left]
    exact decodeToken_tokenBits_append T rest
  obtain ⟨-, hrun, -⟩ := ReadsToken.runs ⟨h.busy, h.reads, h.alone, h.undisturbed, hdecode⟩
  rw [afterToken_of_start h.start, hexec] at hrun
  exact ⟨_, t, hrun, rfl⟩

/-- A Leaf or an EndLeaf is read and handed up. -/
theorem reaches_of_leafToken (h : AtSubtree s T (tokenBits (tokenOf T) ++ rest)) (hT : tokenOf T ≠ .branch) :
    Reaches s (· = handUp (afterReads s (tokenBits (tokenOf T)) (readTxns (tokenOf T))) T s.rstack) :=
  h.reaches_of_exec (exec_leafToken_of_reads (s := afterReads s _ _) h.reads hT)

/-- The token of a Branch is read, which opens it. -/
theorem reaches_leftOpen (h : AtSubtree s (.branch l r) (tokenBits .branch ++ rest)) : Reaches s (· = leftOpen s) := by
  have hopens : readBranch (afterReads s (tokenBits .branch) (readTxns .branch)) = leftOpen s :=
    readBranch_of_fits (withinLimit_mono (by simp only [afterReads, treeDepth]; omega) h.fits)
  refine h.reaches_of_exec ?_
  rw [← hopens]
  exact exec_branch_of_reads h.reads

theorem leftOpen (h : AtSubtree s (.branch l r) (tokenBits .branch ++ rest)) :
    AtSubtree (Machine.leftOpen s) l rest where
  busy := h.busy
  reads := h.reads
  alone := h.alone
  undisturbed := h.undisturbed.drop (readTxns .branch).length rfl
  start := h.start
  left := afterReads_left h.left (readTxns .branch)
  fits := withinLimit_mono (by simp only [Machine.leftOpen, List.length_cons, treeDepth]; omega) h.fits

theorem rightOpen (h : AtSubtree s (.branch l r) (tokenBits .branch ++ (ser l ++ rest))) :
    AtSubtree (Machine.rightOpen s l) r rest where
  busy := h.busy
  reads := h.reads
  alone := h.alone
  undisturbed := h.undisturbed.drop (readTxns .branch ++ preorder readTxns l).length rfl
  start := h.start
  left := afterReads_left (h.left.trans (List.append_assoc _ _ _).symm) (readTxns .branch ++ preorder readTxns l)
  fits := withinLimit_mono (by simp only [Machine.rightOpen, List.length_cons, treeDepth]; omega) h.fits

end

/-- The description of a tree is read, and the tree handed up: a Branch by its token, then its left subtree with the
Branch open, then its right one. -/
theorem reaches_handUp {T : Tree} {s : State} {y : List Bit} (h : AtSubtree s T (ser T ++ y)) :
    Reaches s (· = handUp (afterReads s (ser T) (preorder readTxns T)) T s.rstack) := by
  induction T generalizing s y with
  | leaf v => exact h.reaches_of_leafToken nofun
  | endLeaf => exact h.reaches_of_leafToken nofun
  | branch l r ihl ihr =>
    have hbranch : AtSubtree s (.branch l r) (tokenBits .branch ++ (ser l ++ (ser r ++ y))) := by simpa [ser] using h
    refine hbranch.reaches_leftOpen.andThen ((ihl hbranch.leftOpen).andThen ?_)
    rw [handUp_leftOpen, ← handUp_rightOpen]
    exact ihr hbranch.rightOpen

end AtSubtree

/-! ### A token cut short -/

namespace Parsing

variable {s : State} (h : Parsing s)
include h

/-- A read that finds the bits exhausted. -/
theorem reaches_exhausted_of_ended {t : State} (hfetch : fetchToken s = .ended t) (ht : Exhausted s t) :
    Reaches s (Exhausted s) := by
  have hend : readOneToken s = .next t := by
    rw [readOneToken, hfetch]
    rfl
  exact .step (h.step_eq.trans hend) (.here ht)

/-- A discriminant bit with more of the token to come leaves a parse. -/
theorem reaches_exhausted_of_more {b : Bit} {p : TokenPart} (hfetch : fetchToken s = .done (.more p) (bitRead s b))
    (hnext : Parsing { bitRead s b with token := p } →
      Reaches { bitRead s b with token := p } (Exhausted { bitRead s b with token := p })) :
    Reaches s (Exhausted s) :=
  .step (h.step_eq.trans (readOneToken_of_more hfetch)) (hnext ⟨h.busy, h.reads, h.alone, h.undisturbed.tail rfl⟩)

/-- The value of a Leaf is cut short. -/
theorem reaches_exhausted_of_zeroOne (hk : s.token = .zeroOne) (hshort : s.src.left.length < 8) :
    Reaches s (Exhausted s) := by
  obtain ⟨choice, ha⟩ := h.undisturbed.answered
  have hfetch : fetchToken s = .ended (raise .streamExhausted 0
      { record .readBits8 .endOfStream s with src := s.src.afterFailure choice }) := by
    simp only [fetchToken, hk, readBits8_ok_short 0 ha hshort]
  exact h.reaches_exhausted_of_ended hfetch ⟨_, rfl, rfl, rfl, rfl, rfl⟩

/-- There is no discriminant bit. -/
theorem reaches_exhausted_of_nil (hk : s.token ≠ .zeroOne) (hleft : s.src.left = []) : Reaches s (Exhausted s) := by
  obtain ⟨choice, ha⟩ := h.undisturbed.answered
  have hfetch : fetchToken s = .ended (raise .streamExhausted 0 (record .readBit .endOfStream s)) := by
    cases hp : s.token with
    | start => simp only [fetchToken, hp, readBit_ok_none 0 ha hleft]
    | zero => simp only [fetchToken, hp, readBit_ok_none 0 ha hleft]
    | zeroOne => exact absurd hp hk
  exact h.reaches_exhausted_of_ended hfetch ⟨_, rfl, rfl, rfl, rfl, rfl⟩

/-- A token of which the bit 0 has been read is cut short. -/
theorem reaches_exhausted_of_zero (hk : s.token = .zero) {e : DecodeError}
    (he : decodeToken (false :: s.src.left) = .error e) : Reaches s (Exhausted s) := by
  obtain ⟨choice, ha⟩ := h.undisturbed.answered
  match hleft : s.src.left with
  | [] => exact h.reaches_exhausted_of_nil (by simp [hk]) hleft
  | false :: r => simp [hleft, decodeToken] at he
  | true :: r =>
    have hshort : r.length < 8 := by
      by_contra hlong
      simp [hleft, decodeToken, hlong] at he
    refine h.reaches_exhausted_of_more (fetchToken_zero ha hk hleft) fun h' => h'.reaches_exhausted_of_zeroOne rfl ?_
    exact (congrArg List.length (left_of_cons hleft)).trans_lt hshort

/-- A token is cut short (R125). -/
theorem reaches_exhausted_of_error (hk : s.token = .start) {e : DecodeError} (he : decodeToken s.src.left = .error e) :
    Reaches s (Exhausted s) := by
  obtain ⟨choice, ha⟩ := h.undisturbed.answered
  match hleft : s.src.left with
  | [] => exact h.reaches_exhausted_of_nil (by simp [hk]) hleft
  | true :: r => simp [hleft, decodeToken] at he
  | false :: r =>
    rw [hleft, ← left_of_cons hleft] at he
    exact h.reaches_exhausted_of_more (fetchToken_start ha hk hleft) fun h' => h'.reaches_exhausted_of_zero rfl he

end Parsing

/-- A description cut short leaves the parse without a bit it needs: in the root's token, in the left subtree, or, with
the left one read, in the right one. -/
theorem AtSubtree.reaches_exhausted {T : Tree} {s : State} {bits more : List Bit} (h : AtSubtree s T bits)
    (hmore : more ≠ []) (hcut : bits ++ more = ser T) : Reaches s (Exhausted s) := by
  induction T generalizing s bits more with
  | leaf v =>
    obtain ⟨e, he⟩ := decodeToken_of_cut_leafToken (T := .leaf v) nofun hmore hcut
    exact h.reaches_exhausted_of_error h.start (h.left ▸ he)
  | endLeaf =>
    obtain ⟨e, he⟩ := decodeToken_of_cut_leafToken (T := .endLeaf) nofun hmore hcut
    exact h.reaches_exhausted_of_error h.start (h.left ▸ he)
  | branch l r ihl ihr =>
    rcases cut_branch_cases hcut with ⟨e, he⟩ | ⟨rest, rfl, ⟨more', hmore', hcutl⟩ | ⟨rest', rfl, hcutr⟩⟩
    · exact h.reaches_exhausted_of_error h.start (h.left ▸ he)
    · exact h.reaches_leftOpen.andThen (ihl h.leftOpen hmore' hcutl)
    · refine h.reaches_leftOpen.andThen (h.leftOpen.reaches_handUp.andThen ?_)
      rw [handUp_leftOpen]
      exact ihr h.rightOpen hmore hcutr

/-! ### The commands -/

/-- A command that parses starts with an empty stack, which has room for every tree within `MAX_DEPTH`. -/
theorem atSubtree_startReading {s : State} {p : Phase} {T : Tree} (hp : p.reads = true) (ha : Alone s)
    (hu : Undisturbed s) (hfit : FitsDepth s T) : AtSubtree (startReading p s) T s.src.left where
  busy := rfl
  reads := hp
  alone := ha
  undisturbed := hu
  start := rfl
  left := rfl
  fits := by simpa [FitsDepth] using hfit

/-- Settles O32: the parse hands the tree described up to an empty stack, which completes the command. -/
theorem readTreeReadsTheDescribedTree : Obligations.ReadTreeReadsTheDescribedTree := by
  intro s T y hs ha hu hfit hleft
  refine ⟨_, exec_readTree_of_ready hs, ?_⟩
  have hparse : AtSubtree (startReading .rt s) T (ser T ++ y) := hleft ▸ atSubtree_startReading rfl ha hu hfit
  refine hparse.reaches_handUp.mono ?_
  rintro _ rfl
  exact treeRead_of_rt rfl T

/-- Settles O34: both commands start a parse, which runs out of bits and faults without a tree. -/
theorem truncatedDescriptionFaults : Obligations.TruncatedDescriptionFaults := by
  intro s T more i hs ha hu hfit hmore hcut hi
  obtain ⟨p, hp, hexec⟩ : ∃ p, Phase.reads p = true ∧ exec i s = .next (startReading p s) := by
    rcases hi with rfl | rfl
    · exact ⟨.rt, rfl, exec_readTree_of_ready hs⟩
    · exact ⟨.dTree, rfl, exec_decompress_of_ready hs⟩
  refine ⟨_, hexec, ((atSubtree_startReading hp ha hu hfit).reaches_exhausted hmore hcut).mono ?_⟩
  rintro _ ⟨v, rfl, hphase, hsnk, hysrc, hysnk⟩
  have htree := raise_tree_of_reader .streamExhausted 0 (s := v) (by rw [hphase]; exact Phase.command_of_reads hp)
  exact ⟨rfl, rfl, rfl, htree, rfl, rfl, hsnk, hysrc, hysnk⟩

/-- Settles O33: the descent answers a tree of which the description is there, or fails on one cut short. -/
theorem readTreeAgreesWithRecursiveDescent : Obligations.ReadTreeAgreesWithRecursiveDescent := by
  intro s hs ha hu hdepth
  have hfit : ∀ T, FitsDepth s T := fun T => by rw [FitsDepth, hdepth]; rfl
  rcases parse_cases s.src.left with ⟨T, rest, hok, hleft⟩ | ⟨e, T, more, herror, hmore, hcut⟩
  · obtain ⟨t, ht, hreach⟩ := readTreeReadsTheDescribedTree s T rest hs ha hu (hfit T) hleft
    refine ⟨t, ht, hreach.mono ?_⟩
    rintro _ rfl
    rw [hok]
    exact ⟨rfl, rfl, rfl, rfl, rfl, rfl, rfl, afterReads_left hleft (preorder readTxns T)⟩
  · obtain ⟨t, ht, hreach⟩ := truncatedDescriptionFaults s T more .readTree hs ha hu (hfit T) hmore hcut (.inl rfl)
    refine ⟨t, ht, hreach.mono ?_⟩
    rintro u ⟨hstatus, hcause, hinfo, htree, hphase, hrstack, hsnk, hysrc, hysnk⟩
    rw [herror]
    exact ⟨hsnk, hysrc, hysnk, hphase, hrstack, hstatus, hcause, hinfo, htree⟩

end Sys2Proof.Machine
end

section
/-! ## Writing a whole description (41_tree_writer.md R140 to R146)

An emission at a token boundary sends the description of the tree at the head of `WSTACK` and goes on with what stands
below it (`AtHead.reaches_written`), by induction on the tree. What stands below may be nothing, which ends the
description in either of the two commands. -/

namespace Sys2Proof.Machine

/-! ### The token of the next subtree -/

/-- While nobody else acts, a step of a running command is that of its phase. -/
theorem step_eq_phaseStep {s : State} {i : Instr} (ha : Alone s) (hs : s.status = .busy)
    (hc : s.phase.command = some i) : step s = phaseStep s :=
  (step_alone ha hs hc).trans (exec_eq_phaseStep hs hc)

/-- Settles O19: in both phases the running command's step is one of the writer's loop. -/
theorem stepEmitsNextToken : Obligations.StepEmitsNextToken := by
  intro s f w hs hp ha hw
  rw [← writeOneToken_eq_exec hw]
  rcases s.phase.writes_iff.mp hp with hphase | hphase
  · rw [step_eq_phaseStep (i := .writeTree) ha hs (by rw [hphase]; rfl), phaseStep, hphase]
  · rw [step_eq_phaseStep (i := .compress) ha hs (by rw [hphase]; rfl), phaseStep, hphase]

/-! ### What has been written -/

/-- `s` after transactions `txns` on `BITSNK` that sent `bits` and left `delivered` bytes in the byte stream. -/
def afterWrites (s : State) (bits : List Bit) (txns : List Txn) (delivered : Nat) : State :=
  { s with
    snk :=
      { s.snk with
        bits := s.snk.bits ++ bits, off := s.snk.off + BitVec.ofNat 3 bits.length, delivered := delivered }
    answers := s.answers.drop txns.length
    asked := s.asked + txns.length
    trace := s.trace ++ txns }

/-- `s` with the writer at this part of the next token, and with these subtrees to emit. -/
def atWriter (s : State) (p : TokenPart) (w : List WFrame) : State := { s with token := p, wstack := w }

/-- `u` is where the emission `s` is left with `w` to emit, after transactions `txns` that sent `bits`. -/
def Written (s : State) (w : List WFrame) (bits : List Bit) (txns : List Txn) (u : State) : Prop :=
  ∃ delivered, u = emitted w (afterWrites s bits txns delivered)

theorem afterWrites_afterWrites (s : State) (bits bits' : List Bit) (txns txns' : List Txn) (n n' : Nat) :
    afterWrites (afterWrites s bits txns n) bits' txns' n' = afterWrites s (bits ++ bits') (txns ++ txns') n' := by
  simp [afterWrites, Nat.add_assoc, BitVec.ofNat_add, BitVec.add_assoc]

/-- A completed token overwrites where the writer was. -/
theorem emitted_atWriter (s : State) (p : TokenPart) (w' w : List WFrame) : emitted w (atWriter s p w') = emitted w s := by
  cases w <;> rfl

/-- Two stretches of writing make one, wherever the writer is in between. -/
theorem Written.after {s u : State} {p : TokenPart} {w w' : List WFrame} {bits bits' : List Bit} {txns txns' : List Txn}
    {n : Nat} (h : Written (atWriter (afterWrites s bits txns n) p w') w bits' txns' u) :
    Written s w (bits ++ bits') (txns ++ txns') u := by
  obtain ⟨n', rfl⟩ := h
  refine ⟨n', ?_⟩
  rw [← afterWrites_afterWrites (n := n)]
  exact emitted_atWriter (afterWrites (afterWrites s bits txns n) bits' txns' n') p w' w

/-! ### Emissions -/

/-- An emission that nobody disturbs, with the subtree `T` at depth `d` next and `w` below it; no Branch of `T` goes beyond
`MAX_DEPTH`. Part of the token of `T` may have been written. -/
structure AtHead (s : State) (T : Tree) (d : Nat) (w : List WFrame) : Prop where
  busy : s.status = .busy
  writes : s.phase.writes = true
  alone : Alone s
  undisturbed : Undisturbed s
  head : s.wstack = { sub := T, depth := d } :: w
  fits : withinLimit s.par.maxDepth (d + treeDepth T) = true

/-- A command that emits starts at the root of `TREE`. -/
theorem atHead_startWriting {s : State} {p : Phase} {T : Tree} (hp : p.writes = true) (ha : Alone s)
    (hu : Undisturbed s) (hfit : FitsDepth s T) (ht : s.tree = some T) : AtHead (startWriting p s) T 0 [] := by
  rw [startWriting_some ht]
  exact ⟨rfl, hp, ha, hu, rfl, by simpa [FitsDepth] using hfit⟩

namespace AtHead

variable {s : State} {T : Tree} {d : Nat} {w : List WFrame}

/-- Writing keeps an emission, which goes on with a subtree that `MAX_DEPTH` admits. -/
theorem afterWrites (h : AtHead s T d w) (bits : List Bit) (txns : List Txn) (n : Nat) (p : TokenPart) {T' : Tree}
    {d' : Nat} (w' : List WFrame) (hdepth : d' + treeDepth T' ≤ d + treeDepth T) :
    AtHead (atWriter (Machine.afterWrites s bits txns n) p ({ sub := T', depth := d' } :: w')) T' d' w' where
  busy := h.busy
  writes := h.writes
  alone := h.alone
  undisturbed := h.undisturbed.drop txns.length rfl
  head := rfl
  fits := withinLimit_mono hdepth h.fits

/-- A bit of a token with more of it to come: the subtree stays next (log 30). -/
theorem reaches_of_part (h : AtHead s T d w) {b : Bit} {p : TokenPart} {n : Nat}
    (hexec : exec (tokenOf T) s = .next { sentBits s [b] (.writeBit b) n with token := p })
    {bits : List Bit} {txns : List Txn}
    (hrest : ∀ t, AtHead t T d w → t.token = p → Reaches t (Written t w bits txns)) :
    Reaches s (Written s w (b :: bits) ({ call := .writeBit b, reply := .done } :: txns)) := by
  have hnext : step s = .next (atWriter (Machine.afterWrites s [b] [{ call := .writeBit b, reply := .done }] n) p
      ({ sub := T, depth := d } :: w)) := by
    rw [stepEmitsNextToken s _ w h.busy h.writes h.alone h.head, hexec, ← h.head]
    rfl
  exact .step hnext ((hrest _ (h.afterWrites _ _ n p w le_rfl) rfl).mono fun _ hu => hu.after)

/-- The last transaction of a token gives way to `w'`. -/
theorem reaches_of_last (h : AtHead s T d w) {bits : List Bit} {c : Call} {n : Nat} {w' : List WFrame}
    (hexec : exec (tokenOf T) s = .next (emitted w' (sentBits s bits c n))) :
    Reaches s (Written s w' bits [{ call := c, reply := .done }]) :=
  .step ((stepEmitsNextToken s _ w h.busy h.writes h.alone h.head).trans hexec) (.here ⟨n, rfl⟩)

/-- The token of a Branch is written, and its subtrees take its place, left first (R145). -/
theorem reaches_branch {l r : Tree} (h : AtHead s (.branch l r) d w) :
    Reaches s (Written s ({ sub := l, depth := d + 1 } :: { sub := r, depth := d + 1 } :: w) (tokenBits .branch)
      (writeTxns .branch)) := by
  obtain ⟨choice, ha⟩ := h.undisturbed.answered
  exact h.reaches_of_last
    (exec_branch_sends ha h.writes h.head (withinLimit_mono (by simp only [treeDepth]; omega) h.fits))

/-- A Leaf is written: the bit 0, the bit 1, the value (R141, R143). -/
theorem reaches_leaf {v : Byte} (h : AtHead s (.leaf v) d w) (hk : s.token = .start) :
    Reaches s (Written s w (tokenBits (.leaf v)) (writeTxns (.leaf v))) := by
  obtain ⟨choice, ha⟩ := h.undisturbed.answered
  refine h.reaches_of_part (exec_sends_first ha h.writes h.head nofun hk) fun t h hk => ?_
  obtain ⟨choice, ha⟩ := h.undisturbed.answered
  refine h.reaches_of_part (exec_leaf_sends_second ha h.writes h.head hk) fun t h hk => ?_
  obtain ⟨choice, ha⟩ := h.undisturbed.answered
  exact h.reaches_of_last (exec_leaf_sends_value ha h.writes h.head hk)

/-- An EndLeaf is written: the bit 0, twice (R141). -/
theorem reaches_endLeaf (h : AtHead s .endLeaf d w) (hk : s.token = .start) :
    Reaches s (Written s w (tokenBits .endLeaf) (writeTxns .endLeaf)) := by
  obtain ⟨choice, ha⟩ := h.undisturbed.answered
  refine h.reaches_of_part (exec_sends_first ha h.writes h.head nofun hk) fun t h hk => ?_
  obtain ⟨choice, ha⟩ := h.undisturbed.answered
  exact h.reaches_of_last (exec_endLeaf_sends_second ha h.writes h.head hk)

/-- The description of the next subtree is written: a Branch by its token, then its left subtree with the right one below
it, then its right one. -/
theorem reaches_written (h : AtHead s T d w) (hk : s.token = .start) :
    Reaches s (Written s w (ser T) (preorder writeTxns T)) := by
  induction T generalizing s d w with
  | leaf v => exact h.reaches_leaf hk
  | endLeaf => exact h.reaches_endLeaf hk
  | branch l r ihl ihr =>
    have hl : d + 1 + treeDepth l ≤ d + treeDepth (.branch l r) := by simp only [treeDepth]; omega
    have hr : d + 1 + treeDepth r ≤ d + treeDepth (.branch l r) := by simp only [treeDepth]; omega
    have hleft : Reaches s (Written s ({ sub := r, depth := d + 1 } :: w) (tokenBits .branch ++ ser l)
        (writeTxns .branch ++ preorder writeTxns l)) := by
      refine h.reaches_branch.trans ?_
      rintro _ ⟨n, rfl⟩
      exact (ihl (h.afterWrites _ _ n .start _ hl) rfl).mono fun _ hu => hu.after
    refine hleft.trans ?_
    rintro _ ⟨n, rfl⟩
    exact (ihr (h.afterWrites _ _ n .start w hr) rfl).mono fun _ hu => hu.after

end AtHead

/-! ### The commands -/

/-- Settles O35: the emission of `TREE` leaves nothing to emit, which completes the command. -/
theorem writeTreeAppendsSerialization : Obligations.WriteTreeAppendsSerialization := by
  intro s T hs ha hu hfit ht
  refine ⟨_, exec_writeTree_of_ready hs, ?_⟩
  have hemission : AtHead (startWriting .wt s) T 0 [] := atHead_startWriting rfl ha hu hfit ht
  rw [startWriting_some ht] at hemission ⊢
  refine (hemission.reaches_written rfl).mono ?_
  rintro _ ⟨n, rfl⟩
  exact ⟨n, emitted_nil_of_wt rfl⟩

/-- Settles O28: the start of both commands, with `TREE` and without it. -/
theorem writingCommandsStartOrHaveNoTree : Obligations.WritingCommandsStartOrHaveNoTree := by
  intro s hs
  refine ⟨fun t ht => ?_, fun ht i hi => ?_⟩
  · rw [exec_writeTree_of_ready hs, exec_compress_of_ready hs, startWriting_some ht, startWriting_some ht]
    exact ⟨rfl, rfl⟩
  · have hraise : exec i s = .next (raise .noTree 0 s) := by
      rcases hi with rfl | rfl
      · rw [exec_writeTree_of_ready hs, startWriting_none ht]
      · rw [exec_compress_of_ready hs, startWriting_none ht]
    exact ⟨_, hraise, rfl, rfl, rfl, by simp [ht], rfl, rfl, rfl, rfl, rfl⟩

end Sys2Proof.Machine
end

section
/-! ## Paths of leaves (42_code_table.md R156, R157, R159) -/

namespace Sys2Proof.Machine

/-! ### Following a path -/

@[simp] theorem follow_nil (t : Tree) : follow t [] = some t := by cases t <;> rfl

@[simp] theorem follow_branch_false (l r : Tree) (c : Code) : follow (.branch l r) (false :: c) = follow l c := rfl

@[simp] theorem follow_branch_true (l r : Tree) (c : Code) : follow (.branch l r) (true :: c) = follow r c := rfl

theorem follow_append (t : Tree) (c d : Code) : follow t (c ++ d) = (follow t c).bind (follow · d) := by
  induction c generalizing t with
  | nil => simp
  | cons b c ih =>
    cases t with
    | branch l r => cases b <;> simp [ih]
    | leaf v => rfl
    | endLeaf => rfl

@[simp] theorem branch_ne_leafFor (l r : Tree) (s : Sym) : .branch l r ≠ leafFor s := by cases s <;> nofun

@[simp] theorem leafFor_inj {s s' : Sym} : leafFor s = leafFor s' ↔ s = s' := by
  cases s <;> cases s' <;> simp [leafFor]

/-- No path goes on below a leaf. -/
@[simp] theorem follow_leafFor {s : Sym} {c : Code} {n : Tree} :
    follow (leafFor s) c = some n ↔ c = [] ∧ n = leafFor s := by
  cases c with
  | nil => simp [eq_comm]
  | cons b c => cases s <;> simp [leafFor, follow]

/-- A path to a leaf that extends a path to a leaf leads to that same leaf: there is nothing below it. -/
theorem eq_of_prefix_of_follow {t : Tree} {s s' : Sym} {c c' : Code} (hc : follow t c = some (leafFor s))
    (hc' : follow t c' = some (leafFor s')) (hpre : c <+: c') : s = s' := by
  obtain ⟨d, rfl⟩ := hpre
  have hbelow : follow (leafFor s) d = some (leafFor s') := by simpa [follow_append, hc] using hc'
  obtain ⟨-, hleaf⟩ := follow_leafFor.mp hbelow
  exact (leafFor_inj.mp hleaf).symm

/-! ### `paths` -/

@[simp] theorem paths_branch (l r : Tree) (p : Code) :
    paths (.branch l r) p = paths l (p ++ [false]) ++ paths r (p ++ [true]) := rfl

@[simp] theorem paths_leafFor (s : Sym) (p : Code) : paths (leafFor s) p = [(s, p)] := by cases s <;> rfl

/-- At a leaf, `paths` has its symbol with the path that led there. -/
theorem mem_paths_leafFor {s s' : Sym} {p q : Code} :
    (s, q) ∈ paths (leafFor s') p ↔ ∃ c, q = p ++ c ∧ follow (leafFor s') c = some (leafFor s) := by
  simp [and_comm]

/-- From a node reached by `p`, `paths` pairs a symbol with `p` and each path from the node to a leaf carrying it. -/
theorem mem_paths {t : Tree} {s : Sym} {p q : Code} :
    (s, q) ∈ paths t p ↔ ∃ c, q = p ++ c ∧ follow t c = some (leafFor s) := by
  induction t generalizing p with
  | branch l r ihl ihr =>
    rw [paths_branch, List.mem_append, ihl, ihr]
    constructor
    · rintro (⟨c, rfl, hc⟩ | ⟨c, rfl, hc⟩)
      · exact ⟨false :: c, by simp, hc⟩
      · exact ⟨true :: c, by simp, hc⟩
    · rintro ⟨_ | ⟨b, c⟩, rfl, hc⟩
      · simp at hc
      · cases b with
        | false => exact .inl ⟨c, by simp, hc⟩
        | true => exact .inr ⟨c, by simp, hc⟩
  | leaf v => exact mem_paths_leafFor (s' := .byte v)
  | endLeaf => exact mem_paths_leafFor (s' := .eom)

/-- Settles O9: `mem_paths` from the root. -/
theorem pathsLeadToTheirLeaves : Obligations.PathsLeadToTheirLeaves := by
  intro t s p
  simp [mem_paths]

/-- R155: the symbols in `paths` are those that a leaf carries. -/
theorem exists_mem_paths {t : Tree} {s : Sym} {p : Code} : (∃ q, (s, q) ∈ paths t p) ↔ carries t s := by
  induction t generalizing p with
  | branch l r ihl ihr => simp only [paths_branch, List.mem_append, exists_or, ihl, ihr, carries]
  | leaf v => simp [paths, carries]
  | endLeaf => simp [paths, carries]

/-- Of two paths that part at some node, neither extends the other. -/
theorem not_prefix_of_part {p c d : Code} {a b : Bit} (hab : a ≠ b) :
    ¬ p ++ [a] ++ c <+: p ++ [b] ++ d := by
  simp [hab]

/-- R159: the paths of two leaves part at the Branch that has one of them on its left and the other on its right. -/
theorem paths_pairwise_not_prefix (t : Tree) (p : Code) :
    (paths t p).Pairwise fun a b => ¬ a.2 <+: b.2 ∧ ¬ b.2 <+: a.2 := by
  induction t generalizing p with
  | branch l r ihl ihr =>
    refine List.pairwise_append.mpr ⟨ihl _, ihr _, ?_⟩
    rintro ⟨s, q⟩ hq ⟨s', q'⟩ hq'
    obtain ⟨c, rfl, -⟩ := mem_paths.mp hq
    obtain ⟨d, rfl, -⟩ := mem_paths.mp hq'
    exact ⟨not_prefix_of_part nofun, not_prefix_of_part nofun⟩
  | leaf v => exact List.pairwise_singleton _ _
  | endLeaf => exact List.pairwise_singleton _ _

end Sys2Proof.Machine
end

section
/-! ## The code table (42_code_table.md R155, R159, R161) -/

namespace Sys2Proof.Machine

/-! ### The code of a symbol -/

@[simp] theorem mem_pathsOf {s : Sym} {c : Code} {pairs : List (Sym × Code)} :
    c ∈ pathsOf s pairs ↔ (s, c) ∈ pairs := by
  induction pairs with
  | nil => simp [pathsOf]
  | cons pair rest ih =>
    obtain ⟨s', p⟩ := pair
    by_cases hs : s' = s
    · subst hs
      simp [pathsOf, ih]
    · simp [pathsOf, hs, Ne.symm hs, ih]

/-- Everything that a code can be: none without a path, and otherwise one of the symbol's paths (R161). -/
theorem codeOf_cases (t : Tree) (s : Sym) :
    (pathsOf s (paths t []) = [] ∧ codeOf t s = none) ∨ ∃ c ∈ pathsOf s (paths t []), codeOf t s = some c := by
  unfold codeOf
  split
  case h_1 hnone => exact .inl ⟨hnone, rfl⟩
  case h_2 p hone => exact .inr ⟨p, by simp [hone], rfl⟩
  case h_3 p q ps hmany =>
    have hlt : Config.dupIndex t s % (ps.length + 2) < (p :: q :: ps).length := Nat.mod_lt _ (Nat.succ_pos _)
    refine .inr ⟨_, ?_, rfl⟩
    rw [hmany, List.getD_eq_getElem _ _ hlt]
    exact List.getElem_mem hlt

theorem mem_paths_of_codeOf {t : Tree} {s : Sym} {c : Code} (hc : codeOf t s = some c) : (s, c) ∈ paths t [] := by
  rcases codeOf_cases t s with ⟨-, hnone⟩ | ⟨c', hmem, hsome⟩
  · simp [hnone] at hc
  · obtain rfl : c' = c := by simpa [hsome] using hc
    exact mem_pathsOf.mp hmem

theorem codeOf_eq_none_iff {t : Tree} {s : Sym} : codeOf t s = none ↔ ∀ p, (s, p) ∉ paths t [] := by
  rcases codeOf_cases t s with ⟨hnil, hnone⟩ | ⟨c, hmem, hsome⟩
  · simp [hnone, ← mem_pathsOf, hnil]
  · simpa [hsome] using ⟨c, mem_pathsOf.mp hmem⟩

theorem codeOf_isSome_iff {t : Tree} {s : Sym} : (codeOf t s).isSome = true ↔ carries t s := by
  rw [Option.isSome_iff_ne_none, Ne, codeOf_eq_none_iff, ← exists_mem_paths (p := [])]
  simp

theorem codeOf_of_one_path {t : Tree} {s : Sym} {c : Code} (hone : pathsOf s (paths t []) = [c]) :
    codeOf t s = some c := by
  simp [codeOf, hone]

/-! ### The table -/

theorem mem_symbolsOf {s : Sym} {pairs : List (Sym × Code)} : s ∈ symbolsOf pairs ↔ ∃ p, (s, p) ∈ pairs := by
  induction pairs with
  | nil => simp [symbolsOf]
  | cons pair rest ih =>
    obtain ⟨s', p⟩ := pair
    have hcons : s ∈ symbolsOf ((s', p) :: rest) ↔ s = s' ∨ s ∈ symbolsOf rest := by
      by_cases hs' : s' ∈ symbolsOf rest
      · simp only [symbolsOf, if_pos hs', iff_or_self]
        rintro rfl
        exact hs'
      · simp [symbolsOf, hs']
    simp [hcons, ih, exists_or]

/-- A table made for some symbols has an entry for each of them that has a code, and no other. -/
theorem find_entries (t : Tree) (s : Sym) (syms : List Sym) :
    CodeTable.find s (syms.filterMap (entryOf t)) = if s ∈ syms then codeOf t s else none := by
  induction syms with
  | nil => rfl
  | cons s' rest ih =>
    cases hcode : codeOf t s' with
    | none =>
      rw [List.filterMap_cons_none (by simp [entryOf, hcode]), ih]
      by_cases hs : s = s'
      · simp [hs, hcode]
      · simp [hs]
    | some c =>
      rw [List.filterMap_cons_some (b := (s', c)) (by simp [entryOf, hcode]), CodeTable.find, ih]
      by_cases hs : s = s'
      · simp [hs, hcode]
      · simp [hs, Ne.symm hs]

theorem lookup_tableOf (t : Tree) (s : Sym) : lookup (some (tableOf t)) s = codeOf t s := by
  show CodeTable.find s ((symbolsOf (paths t [])).filterMap (entryOf t)) = codeOf t s
  rw [find_entries, ite_eq_left_iff, mem_symbolsOf, not_exists]
  exact fun hnone => (codeOf_eq_none_iff.mpr hnone).symm

/-- Settles O8: the equations of `paths` and what a code can be. -/
theorem codeTableHoldsPathsOfLeaves : Obligations.CodeTableHoldsPathsOfLeaves :=
  ⟨paths_branch, fun _ _ => rfl, fun _ => rfl, lookup_tableOf, fun _ _ => codeOf_isSome_iff,
    fun _ _ => codeOf_eq_none_iff, fun _ _ _ => mem_paths_of_codeOf, fun _ _ _ => codeOf_of_one_path⟩

/-- Settles O10: two leaves' paths part at a Branch, and codes are paths to their leaves. -/
theorem codesArePrefixFree : Obligations.CodesArePrefixFree := by
  refine ⟨fun t => paths_pairwise_not_prefix t [], fun t s s' c c' hne hc hc' hpre => hne ?_⟩
  have hfollow := (pathsLeadToTheirLeaves t s c).mp (mem_paths_of_codeOf hc)
  have hfollow' := (pathsLeadToTheirLeaves t s' c').mp (mem_paths_of_codeOf hc')
  exact eq_of_prefix_of_follow hfollow hfollow' hpre

end Sys2Proof.Machine
end

section
/-! ## The steps of the walk and of the output (43_decompressor.md R171 to R179, R182, R186) -/

namespace Sys2Proof.Machine

section
variable {s : State}

/-! ### The step of each phase -/

theorem phaseStep_of_dWalk (hp : s.phase = .dWalk) : phaseStep s = walk s := by simp only [phaseStep, hp]

theorem phaseStep_of_dOut (hp : s.phase = .dOut) : phaseStep s = deliver s := by simp only [phaseStep, hp]

theorem bitRead_eq_afterReads (s : State) (b : Bit) : bitRead s b = afterReads s [b] (walkTxns [b]) := by
  rw [bitRead, record, ← List.drop_one]
  rfl

/-- R173: at a Branch one bit is read, left on 0 and right on 1. -/
theorem walk_of_branch {l r : Tree} {b : Bit} {rest : List Bit} {choice : Nat} (ha : answer s = .ok choice)
    (hnode : s.node = some (.branch l r)) (hleft : s.src.left = b :: rest) :
    walk s = .next { afterReads s [b] (walkTxns [b]) with node := some (if b then r else l) } := by
  rw [← bitRead_eq_afterReads]
  simp only [walk, hnode, readBit_ok_some _ ha hleft]
  rfl

/-- R177: at a Branch with no bit left the walk faults. -/
theorem walk_of_branch_exhausted {l r : Tree} {choice : Nat} (ha : answer s = .ok choice)
    (hnode : s.node = some (.branch l r)) (hleft : s.src.left = []) :
    walk s = .next (raise .streamExhausted (walkInfo s) (record .readBit .endOfStream s)) := by
  simp only [walk, hnode, readBit_ok_none _ ha hleft]
  rfl

/-- R174: at a Leaf its byte goes to `OBUF`, and the walk restarts at the root. -/
theorem walk_of_leaf {v : Byte} (hnode : s.node = some (.leaf v)) (hfit : FitsOutput s (s.obuf.length + 1)) :
    walk s = .next { s with obuf := s.obuf ++ [v], node := s.tree } := by
  simp only [walk, hnode]
  exact if_pos hfit

/-- R175: at `EndLeaf` the walk ends. -/
theorem walk_of_endLeaf (hnode : s.node = some .endLeaf) : walk s = .next { s with phase := .dOut, node := none } := by
  simp only [walk, hnode]

/-- `s` after `OBUF` has gone to `BYTESNK` in one `WriteBytes` (R176). -/
def afterOutput (s : State) : State :=
  { s with
    ysnk := { s.ysnk with data := s.ysnk.data ++ s.obuf }
    answers := s.answers.drop 1, asked := s.asked + 1
    trace := s.trace ++ [{ call := .writeBytes s.obuf, reply := .done }] }

/-- R176, R182: the one `WriteBytes` ends the command. -/
theorem deliver_ok {choice : Nat} (ha : answer s = .ok choice) :
    deliver s = .next (finish { afterOutput s with tree := none }) := by
  rw [deliver, writeBytes, transaction_ok ha, record, ← List.drop_one]
  rfl

end

/-- Settles O29: a step of the running command is that of its phase, and there that of its node. -/
theorem decompressWalksAndDelivers : Obligations.DecompressWalksAndDelivers := by
  intro s hs
  have hwalk : s.phase = .dWalk → exec .decompress s = walk s := fun hp =>
    (exec_eq_phaseStep hs (by rw [hp]; rfl)).trans (phaseStep_of_dWalk hp)
  refine ⟨fun l r b choice hp hnode ha hb => ?_, fun v hp hnode hfit => ?_, fun hp hnode => ?_, fun choice hp ha => ?_⟩
  · exact (hwalk hp).trans (walk_of_branch ha hnode (BitSource.left_of_getElem? hb))
  · exact (hwalk hp).trans (walk_of_leaf hnode hfit)
  · exact (hwalk hp).trans (walk_of_endLeaf hnode)
  · exact ((exec_eq_phaseStep hs (by rw [hp]; rfl)).trans (phaseStep_of_dOut hp)).trans (deliver_ok ha)

/-! ### The walk of a lone Leaf (R179 (b)) -/

/-- A step at a lone Leaf appends its byte and stays there, without a transaction that could wait. -/
theorem step_of_lone_leaf {s : State} {v : Byte} (hs : s.status = .busy) (hp : s.phase = .dWalk) (hhost : s.host = [])
    (hlimit : s.par.obufMax = none) (htree : s.tree = some (.leaf v)) (hnode : s.node = some (.leaf v)) :
    step s = .next { s with obuf := s.obuf ++ [v] } := by
  have hc : s.phase.command = some .decompress := by rw [hp]; rfl
  have ht : transacts s = false := by simp only [transacts, hp, hnode]
  have hfit : FitsOutput s (s.obuf.length + 1) := by rw [FitsOutput, hlimit]; rfl
  have hstep : step s = exec .decompress s :=
    (stepContinuesRunningCommand s .decompress hs hc fun a h hq => by simp [hhost] at hq).1 ht
  rw [hstep, exec_eq_phaseStep hs hc, phaseStep_of_dWalk hp, walk_of_leaf hnode hfit, htree, ← hnode]

/-- Settles O38: each step leads to a state of the same kind, with one byte more. -/
theorem loneLeafWalkNeverEnds : Obligations.LoneLeafWalkNeverEnds := by
  intro s v k hs hp hhost hlimit htree hnode
  induction k generalizing s with
  | zero => simp
  | succ k ih =>
    rw [runSteps_succ k (step_of_lone_leaf hs hp hhost hlimit htree hnode),
      ih { s with obuf := s.obuf ++ [v] } hs hp hhost hlimit htree hnode]
    simp [List.replicate_succ]

end Sys2Proof.Machine
end

section
/-! ## Decoding a stream (43_decompressor.md R171 to R178, R183, R184)

A walk at the root consumes the code word of a byte, appends the byte and is at the root again (`Walking.reaches_byte`);
so it decodes the code words of an input one after the other (`Walking.reaches_bytes`). -/

namespace Sys2Proof.Machine

/-! ### Code words -/

/-- The code that `T` gives a symbol that a leaf carries. -/
theorem codeOf_eq_codeBits {T : Tree} {sym : Sym} (h : carries T sym) : codeOf T sym = some (codeBits T sym) := by
  obtain ⟨c, hc⟩ := Option.isSome_iff_exists.mp (codeOf_isSome_iff.mpr h)
  rw [codeBits, hc]
  rfl

/-- The code of a symbol that a leaf carries leads to such a leaf. -/
theorem follow_codeBits {T : Tree} {sym : Sym} (hcarries : carries T sym) :
    follow T (codeBits T sym) = some (leafFor sym) :=
  (pathsLeadToTheirLeaves T sym _).mp (mem_paths_of_codeOf (codeOf_eq_codeBits hcarries))

theorem codedBytes_cons (T : Tree) (x : Byte) (S : List Byte) :
    codedBytes T (x :: S) = codeBits T (.byte x) ++ codedBytes T S := rfl

theorem codedBytes_append (T : Tree) (S S' : List Byte) : codedBytes T (S ++ S') = codedBytes T S ++ codedBytes T S' :=
  List.flatMap_append

theorem walkTxns_append (c d : List Bit) : walkTxns (c ++ d) = walkTxns c ++ walkTxns d := List.map_append

/-- A path leads down by a level a bit. -/
theorem treeDepth_of_follow {t n : Tree} {c : Code} (h : follow t c = some n) :
    treeDepth n + c.length ≤ treeDepth t := by
  induction c generalizing t with
  | nil => simp_all
  | cons b c ih =>
    cases t with
    | branch l r =>
      cases b with
      | false =>
        have hl := ih (t := l) h
        simp only [treeDepth, List.length_cons]
        omega
      | true =>
        have hr := ih (t := r) h
        simp only [treeDepth, List.length_cons]
        omega
    | leaf v => cases h
    | endLeaf => cases h

/-- A node with a path of one bit or more below it is a Branch. -/
theorem eq_branch_of_follow {n m : Tree} {c : Code} (hc : c ≠ []) (h : follow n c = some m) :
    ∃ l r, n = .branch l r := by
  cases c with
  | nil => exact absurd rfl hc
  | cons b c =>
    cases n with
    | branch l r => exact ⟨l, r, rfl⟩
    | leaf v => cases h
    | endLeaf => cases h

/-! ### A walk that nobody disturbs -/

/-- A walk of the tree `T`, at its node `n`, with `bits` at the cursor. -/
structure Walking (s : State) (T n : Tree) (bits : List Bit) : Prop where
  busy : s.status = .busy
  phase : s.phase = .dWalk
  alone : Alone s
  undisturbed : Undisturbed s
  tree : s.tree = some T
  node : s.node = some n
  left : s.src.left = bits

/-- The walk `s` after it has consumed the bits `c` to the node `n`, with `o` in `OBUF`. -/
def walkedTo (s : State) (c : List Bit) (n : Tree) (o : List Byte) : State :=
  { afterReads s c (walkTxns c) with node := some n, obuf := o }

theorem walkedTo_walkedTo (s : State) (c c' : List Bit) (n n' : Tree) (o o' : List Byte) :
    walkedTo (walkedTo s c n o) c' n' o' = walkedTo s (c ++ c') n' o' := by
  simp [walkedTo, afterReads, walkTxns_append, Nat.add_assoc]

namespace Walking

variable {s : State} {T n m : Tree} {c bits : List Bit}

theorem step_eq (h : Walking s T n bits) : step s = walk s :=
  (step_eq_phaseStep (i := .decompress) h.alone h.busy (by rw [h.phase]; rfl)).trans (phaseStep_of_dWalk h.phase)

theorem walkedTo_nil (h : Walking s T n bits) : walkedTo s [] n s.obuf = s := by
  simp only [walkedTo, afterReads, walkTxns, List.map_nil, List.length_nil, List.drop_zero, List.append_nil,
    Nat.add_zero, ← h.node]

theorem walkedTo (h : Walking s T n (c ++ bits)) (m : Tree) (o : List Byte) :
    Walking (Machine.walkedTo s c m o) T m bits where
  busy := h.busy
  phase := h.phase
  alone := h.alone
  undisturbed := h.undisturbed.drop (walkTxns c).length rfl
  tree := h.tree
  node := rfl
  left := afterReads_left h.left (walkTxns c)

/-- The bits of a path lead to its node (R173). -/
theorem reaches_node (h : Walking s T n (c ++ bits)) (hc : follow n c = some m) :
    Reaches s (· = Machine.walkedTo s c m s.obuf) := by
  induction c generalizing s n with
  | nil =>
    obtain rfl : n = m := by simpa using hc
    exact .here h.walkedTo_nil.symm
  | cons b c ih =>
    obtain ⟨choice, ha⟩ := h.undisturbed.answered
    obtain ⟨l, r, rfl⟩ := eq_branch_of_follow (List.cons_ne_nil b c) hc
    have hchild : follow (if b then r else l) c = some m := by cases b <;> exact hc
    have hwalk : Walking s T (.branch l r) ([b] ++ (c ++ bits)) := h
    refine .step (h.step_eq.trans (walk_of_branch ha h.node h.left)) ?_
    refine (ih (hwalk.walkedTo (if b then r else l) s.obuf) hchild).mono ?_
    rintro _ rfl
    exact walkedTo_walkedTo s [b] c _ m s.obuf s.obuf

theorem walk_leaf {v : Byte} (h : Walking s T (.leaf v) bits) (hfit : FitsOutput s (s.obuf.length + 1)) :
    walk s = .next { s with obuf := s.obuf ++ [v], node := some T } := by
  rw [walk_of_leaf h.node hfit, ← h.tree]

/-- A code word of a byte appends the byte to `OBUF` and leads back to the root (R174). -/
theorem reaches_byte {x : Byte} (h : Walking s T T (codeBits T (.byte x) ++ bits)) (hx : carries T (.byte x))
    (hfit : FitsOutput s (s.obuf.length + 1)) :
    Reaches s (· = Machine.walkedTo s (codeBits T (.byte x)) T (s.obuf ++ [x])) := by
  have hleaf := h.walkedTo (.leaf x) s.obuf
  exact (h.reaches_node (follow_codeBits hx)).andThen (.step (hleaf.step_eq.trans (hleaf.walk_leaf hfit)) (.here rfl))

/-- The code words of an input append the input to `OBUF`. -/
theorem reaches_bytes {S : List Byte} (h : Walking s T T (codedBytes T S ++ bits)) (hcovers : Covers T S)
    (hfit : FitsOutput s (s.obuf.length + S.length)) :
    Reaches s (· = Machine.walkedTo s (codedBytes T S) T (s.obuf ++ S)) := by
  induction S generalizing s with
  | nil => exact .here (by rw [List.append_nil]; exact h.walkedTo_nil.symm)
  | cons x S ih =>
    obtain ⟨hx, hS⟩ := List.forall_mem_cons.mp hcovers
    rw [List.length_cons] at hfit
    have hword : Walking s T T (codeBits T (.byte x) ++ (codedBytes T S ++ bits)) := by
      rwa [← List.append_assoc, ← codedBytes_cons]
    refine (hword.reaches_byte hx (withinLimit_mono (by omega) hfit)).andThen ?_
    have hrest := ih (hword.walkedTo T (s.obuf ++ [x])) hS
      (withinLimit_mono (by simp only [Machine.walkedTo, List.length_append, List.length_singleton]; omega) hfit)
    refine hrest.mono ?_
    rintro _ rfl
    rw [walkedTo_walkedTo, ← codedBytes_cons]
    simp [Machine.walkedTo]

/-- The walk ends at `EndLeaf`, and `OBUF` goes out at once (R175, R176). -/
theorem reaches_finish (h : Walking s T .endLeaf bits) :
    Reaches s (· = finish { afterOutput s with tree := none }) := by
  obtain ⟨choice, ha⟩ := h.undisturbed.answered
  have hout : step { s with phase := .dOut, node := none } =
      .next (finish { afterOutput { s with phase := .dOut, node := none } with tree := none }) :=
    (step_eq_phaseStep (s := { s with phase := .dOut, node := none }) (i := .decompress) h.alone h.busy rfl).trans
      ((phaseStep_of_dOut rfl).trans (deliver_ok ha))
  exact .step (h.step_eq.trans (walk_of_endLeaf h.node)) (.step hout (.here rfl))

/-- With no bit left at a Branch the walk faults, with `INFO` by whether it is the root (R177, R218). -/
theorem reaches_exhausted {l r : Tree} (h : Walking s T (.branch l r) []) :
    Reaches s (· = raise .streamExhausted (if .branch l r = T then 1 else 2) (record .readBit .endOfStream s)) := by
  obtain ⟨choice, ha⟩ := h.undisturbed.answered
  refine .step (h.step_eq.trans (walk_of_branch_exhausted ha h.node h.left)) (.here ?_)
  simp only [walkInfo, h.node, h.tree, Option.some.injEq]

end Walking

/-! ### The start of the walk -/

/-- `DECOMPRESS` once it has read the description of `T`: at the root of the walk (R171, R186). -/
def atRoot (s : State) (T : Tree) : State :=
  { afterReads (startReading .dTree s) (ser T) (preorder readTxns T) with
    tree := some T, node := some T, rstack := [], phase := .dWalk }

section
variable {s : State} {T : Tree} {bits : List Bit} (ha : Alone s) (hu : Undisturbed s)
  (hleft : s.src.left = ser T ++ bits)
include ha hu hleft

theorem walking_atRoot : Walking (atRoot s T) T T bits where
  busy := rfl
  phase := rfl
  alone := ha
  undisturbed := hu.drop (preorder readTxns T).length rfl
  tree := rfl
  node := rfl
  left := afterReads_left hleft (preorder readTxns T)

theorem reaches_atRoot (hfit : FitsDepth s T) : Reaches (startReading .dTree s) (· = atRoot s T) := by
  have hparse : AtSubtree (startReading .dTree s) T (ser T ++ bits) := hleft ▸ atSubtree_startReading rfl ha hu hfit
  refine hparse.reaches_handUp.mono ?_
  rintro _ rfl
  exact treeRead_of_dTree rfl T

/-- The description and the code words of an input lead to the root again, with the input in `OBUF`. -/
theorem reaches_decoded {S : List Byte} {rest : List Bit} (hfit : FitsDepth s T) (hout : FitsOutput s S.length)
    (hcovers : Covers T S) (hbits : bits = codedBytes T S ++ rest) :
    Reaches (startReading .dTree s) (· = walkedTo (atRoot s T) (codedBytes T S) T S) := by
  have hroot := walking_atRoot ha hu hleft
  rw [hbits] at hroot
  refine (reaches_atRoot ha hu hleft hfit).andThen (hroot.reaches_bytes hcovers ?_)
  simpa [atRoot, afterReads, FitsOutput] using hout

end

/-! ### The command -/

theorem enc_append (T : Tree) (S : List Byte) (o : Nat) (y : List Bit) :
    enc T S o ++ y = ser T ++ (codedBytes T S ++ (codeBits T .eom ++ (padBits o (encBody T S).length ++ y))) := by
  simp [enc, encBody]

/-- Settles O36: the description leads to the root, the code words of the input back to it with the input in `OBUF`, the
end-of-message code to `EndLeaf`. -/
theorem decompressDecodesStream : Obligations.DecompressDecodesStream := by
  intro s T S y hs ha hu hfit hout heom hcovers hleft
  rw [enc_append] at hleft
  refine ⟨_, exec_decompress_of_ready hs, ?_⟩
  have hroot : Walking (walkedTo (atRoot s T) (codedBytes T S) T S) T T _ := (walking_atRoot ha hu hleft).walkedTo T S
  refine (reaches_decoded ha hu hleft hfit hout hcovers rfl).andThen
    ((hroot.reaches_node (follow_codeBits heom)).andThen ((hroot.walkedTo .endLeaf S).reaches_finish.mono ?_))
  rintro _ rfl
  refine ⟨_, rfl, ?_⟩
  rw [walkedTo_walkedTo]
  simp [finish, afterOutput, walkedTo, atRoot, afterReads, startReading, encBody, Nat.add_assoc]

/-- Settles O37: the walk reads what there is of the code word, to a Branch; it is the root only if that is no bit. -/
theorem truncatedCodedDataFaults : Obligations.TruncatedCodedDataFaults := by
  intro s T S p more sym hs ha hu hfit hout hcovers hmore hpath hleft
  have hlen := congrArg List.length hleft
  rw [List.append_assoc] at hleft
  refine ⟨_, exec_decompress_of_ready hs, (reaches_decoded ha hu hleft hfit hout hcovers rfl).andThen ?_⟩
  obtain ⟨n, hn, hbelow⟩ : ∃ n, follow T p = some n ∧ follow n more = some (leafFor sym) := by
    have hfollow := (pathsLeadToTheirLeaves T sym _).mp hpath
    rwa [follow_append, Option.bind_eq_some_iff] at hfollow
  obtain ⟨l, r, rfl⟩ := eq_branch_of_follow hmore hbelow
  have hroot_iff : .branch l r = T ↔ p = [] := by
    refine ⟨fun hT => ?_, fun hp => ?_⟩
    · have hdepth := treeDepth_of_follow hn
      rw [hT] at hdepth
      exact List.length_eq_zero_iff.mp (by omega)
    · rw [hp, follow_nil] at hn
      exact (Option.some.inj hn).symm
  have hroot : Walking (walkedTo (atRoot s T) (codedBytes T S) T S) T T (p ++ []) := by
    rw [List.append_nil]
    exact (walking_atRoot ha hu hleft).walkedTo T S
  refine (hroot.reaches_node hn).andThen ((hroot.walkedTo (.branch l r) S).reaches_exhausted.mono ?_)
  rintro _ rfl
  simp only [hroot_iff]
  refine ⟨rfl, rfl, rfl, rfl, rfl, rfl, rfl, rfl, rfl, rfl, ?_⟩
  simp [walkedTo, atRoot, afterReads, hlen, Nat.add_assoc]

end Sys2Proof.Machine
end

section
/-! ## Encoding an input (44_compressor.md R191 to R199, R205, R206)

After its description `COMPRESS` goes from place to place (`Place`), and each stretch of the way reads some bytes and
writes some bits (`Stretch`). The stretches of a code word, of a chunk and of the whole input are made of each other
by `Stretch.andThen`. -/

namespace Sys2Proof.Machine

/-! ### Stretches of the way -/

/-- What stands in CORE's own state between two steps of `COMPRESS`. -/
structure Place where
  phase : Phase
  cbuf : List Byte
  code : Option Code

/-- What happens to the streams on a stretch: how many bytes are read, which bits are written, by which transactions. -/
structure Stretch where
  read : Nat
  sent : List Bit
  txns : List Txn

namespace Stretch

/-- No transaction. -/
def rest : Stretch := { read := 0, sent := [], txns := [] }

/-- These bits are written, one `WriteBit` each. -/
def writes (bits : List Bit) : Stretch := { read := 0, sent := bits, txns := bitTxns bits }

/-- These bytes are read by one `ReadBytes(max)`. -/
def reads (max : Nat) (r : List Byte) : Stretch :=
  { read := r.length, sent := [], txns := [{ call := .readBytes max, reply := .bytes r }] }

/-- One stretch after the other. -/
def andThen (a b : Stretch) : Stretch :=
  { read := a.read + b.read, sent := a.sent ++ b.sent, txns := a.txns ++ b.txns }

@[simp] theorem rest_andThen (a : Stretch) : rest.andThen a = a := by simp [rest, andThen]

@[simp] theorem andThen_rest (a : Stretch) : a.andThen rest = a := by simp [rest, andThen]

@[simp] theorem writes_andThen_writes (b c : List Bit) : (writes b).andThen (writes c) = writes (b ++ c) := by
  simp [writes, andThen, bitTxns]

/-- The input comes in these chunks, each followed by its code words, and then a `ReadBytes` returns nothing (R194). -/
def ofChunks (T : Tree) (max : Nat) : List (List Byte) → Stretch
  | [] => reads max []
  | r :: rs => ((reads max r).andThen (writes (codedBytes T r))).andThen (ofChunks T max rs)

theorem ofChunks_eq (T : Tree) (max : Nat) (chunks : List (List Byte)) :
    ofChunks T max chunks =
      { read := chunks.flatten.length
        sent := codedBytes T chunks.flatten
        txns :=
          chunks.flatMap (fun r => { call := .readBytes max, reply := .bytes r } :: bitTxns (codedBytes T r)) ++
            [{ call := .readBytes max, reply := .bytes [] }] } := by
  induction chunks with
  | nil => rfl
  | cons r rs ih => simp [ofChunks, ih, reads, writes, andThen, codedBytes_append]

end Stretch

/-- `s` after a stretch that has led to a place, with `delivered` bytes in the byte stream under `BITSNK`. -/
def encodedTo (s : State) (a : Stretch) (delivered : Nat) (l : Place) : State :=
  { afterWrites s a.sent a.txns delivered with
    ysrc := { s.ysrc with pos := s.ysrc.pos + a.read }
    phase := l.phase, cbuf := l.cbuf, code := l.code }

/-- `u` is where `s` is led to by a stretch to a place. -/
def Encoded (s : State) (a : Stretch) (l : Place) (u : State) : Prop := ∃ delivered, u = encodedTo s a delivered l

theorem encodedTo_encodedTo (s : State) (a b : Stretch) (n n' : Nat) (l l' : Place) :
    encodedTo (encodedTo s a n l) b n' l' = encodedTo s (a.andThen b) n' l' := by
  simp [encodedTo, afterWrites, Stretch.andThen, Nat.add_assoc, BitVec.ofNat_add, BitVec.add_assoc]

/-- Stretches are put together. -/
theorem Reaches.encoded {s : State} {a b : Stretch} {l l' : Place} (h : Reaches s (Encoded s a l))
    (hnext : ∀ n, Reaches (encodedTo s a n l) (Encoded (encodedTo s a n l) b l')) :
    Reaches s (Encoded s (a.andThen b) l') := by
  refine h.trans ?_
  rintro _ ⟨n, rfl⟩
  refine (hnext n).mono ?_
  rintro _ ⟨n', rfl⟩
  exact ⟨n', encodedTo_encodedTo s a b n n' l l'⟩

/-! ### Steps from place to place -/

/-- `COMPRESS` at a place after its description, with nobody disturbing it. -/
structure Encoding (s : State) (l : Place) : Prop where
  busy : s.status = .busy
  alone : Alone s
  undisturbed : Undisturbed s
  phase : s.phase = l.phase
  cbuf : s.cbuf = l.cbuf
  code : s.code = l.code

theorem lookUp_of_carries {s : State} {T : Tree} {sym : Sym} (ht : s.ct = some (tableOf T)) (h : carries T sym) :
    lookUp sym s = { s with code := some (codeBits T sym) } := by
  simp only [lookUp, ht, lookup_tableOf, codeOf_eq_codeBits h]

/-- What a `ReadBytes` returns and what it leaves make up what was left. -/
theorem chunk_append_left (d : ByteSource) (max choice : Nat) :
    d.chunk max choice ++ ({ d with pos := d.pos + (d.chunk max choice).length } : ByteSource).left = d.left := by
  have hprefix := List.prefix_iff_eq_append.mp (List.take_prefix (readCount max d.left.length choice) d.left)
  simpa [ByteSource.left, ByteSource.chunk] using hprefix

/-- An empty `ReadBytes` ends the input; another one fills `CBUF` (R194). -/
theorem readChunk_ok {s : State} {choice : Nat} (ha : answer s = .ok choice) {r : List Byte}
    (hr : s.ysrc.chunk s.par.chunk choice = r) :
    readChunk s =
      .next (encodedTo s (.reads s.par.chunk r) s.snk.delivered ⟨if r = [] then .cEom else .cEmit, r, s.code⟩) := by
  rw [readChunk, readBytes_ok _ ha, hr, record, ← List.drop_one]
  cases r <;> simp [Tx.andThen, encodedTo, afterWrites, Stretch.reads]

/-! ### The distance to the byte boundary -/

theorem off_eq_zero_of_pad {off : BitVec 3} (h : pad off = 0) : off = 0 := by
  have := off.isLt
  refine BitVec.eq_of_toNat_eq ?_
  change off.toNat = 0
  rw [pad] at h
  omega

theorem pad_of_bit {off : BitVec 3} {n : Nat} (h : pad off = n + 1) : pad (off + BitVec.ofNat 3 1) = n := by
  have := off.isLt
  simp only [pad, BitVec.toNat_add, BitVec.toNat_ofNat] at h ⊢
  omega

/-- The padding ends on the byte boundary. -/
theorem off_add_pad (off : BitVec 3) : off + BitVec.ofNat 3 (pad off) = 0 := by
  have := off.isLt
  refine BitVec.eq_of_toNat_eq ?_
  change (off + BitVec.ofNat 3 (pad off)).toNat = 0
  simp only [pad, BitVec.toNat_add, BitVec.toNat_ofNat]
  omega

/-- The padding is that of R199. -/
theorem pad_add (off : BitVec 3) (n : Nat) :
    pad (off + BitVec.ofNat 3 n) = (8 - (off.toNat + n) % 8) % 8 := by
  simp only [pad, BitVec.toNat_add, BitVec.toNat_ofNat]
  omega

namespace Encoding

variable {s : State} {l l' : Place} {p : Phase} {b : List Byte} {c : Code} {oc : Option Code} {T : Tree}

theorem encodedTo (h : Encoding s l) (a : Stretch) (n : Nat) (l' : Place) :
    Encoding (Machine.encodedTo s a n l') l' where
  busy := h.busy
  alone := h.alone
  undisturbed := h.undisturbed.drop a.txns.length rfl
  phase := rfl
  cbuf := rfl
  code := rfl

theorem step_eq (h : Encoding s l) (hc : l.phase.command = some .compress) : step s = phaseStep s :=
  step_eq_phaseStep h.alone h.busy (by rw [h.phase]; exact hc)

theorem place (h : Encoding s ⟨p, b, oc⟩) : s.phase = p ∧ s.cbuf = b ∧ s.code = oc := ⟨h.phase, h.cbuf, h.code⟩

theorem encoded_rest (h : Encoding s l) : Encoded s .rest l s := by
  obtain ⟨p, b, c⟩ := l
  obtain ⟨rfl, rfl, rfl⟩ := h.place
  exact ⟨s.snk.delivered, by simp [Machine.encodedTo, afterWrites, Stretch.rest]⟩

/-- A step inside CORE. -/
theorem reaches_of_internal (h : Encoding s l) (hc : l.phase.command = some .compress)
    (hstep : phaseStep s = .next { s with phase := l'.phase, cbuf := l'.cbuf, code := l'.code }) :
    Reaches s (Encoded s .rest l') := by
  refine .step ((h.step_eq hc).trans hstep) (.here ⟨s.snk.delivered, ?_⟩)
  simp [Machine.encodedTo, afterWrites, Stretch.rest]

/-- A step that writes one bit. -/
theorem reaches_of_write (h : Encoding s l) (hc : l.phase.command = some .compress) {b : Bit}
    (hstep : phaseStep s = (writeBit b s).andThen fun _ u =>
      .next { u with phase := l'.phase, cbuf := l'.cbuf, code := l'.code }) :
    Reaches s (Encoded s (.writes [b]) l') := by
  obtain ⟨choice, ha⟩ := h.undisturbed.answered
  rw [writeBit_sends ha] at hstep
  exact .step ((h.step_eq hc).trans hstep) (.here ⟨_, rfl⟩)

/-- The bits of a code word go out one after the other (R194, R196). -/
theorem reaches_codeBits (h : Encoding s ⟨p, b, some c⟩) (hp : p = .cEmit ∨ p = .cEom) :
    Reaches s (Encoded s (.writes c) ⟨p, b, some []⟩) := by
  have hc : p.command = some .compress := by rcases hp with rfl | rfl <;> rfl
  induction c generalizing s with
  | nil => exact .here h.encoded_rest
  | cons bit c ih =>
    have hemit : phaseStep s = emitBit bit c s := by
      rcases hp with rfl | rfl
      · simp only [phaseStep, h.phase, emitChunk, h.code]
      · simp only [phaseStep, h.phase, emitEom, h.code]
    have hbit : Reaches s (Encoded s (.writes [bit]) ⟨p, b, some c⟩) := by
      refine h.reaches_of_write hc (hemit.trans ?_)
      obtain ⟨choice, ha⟩ := h.undisturbed.answered
      rw [emitBit, writeBit_sends ha, ← h.phase, ← h.cbuf]
      rfl
    have hword := hbit.encoded fun n => ih (h.encodedTo _ n _)
    rwa [Stretch.writes_andThen_writes] at hword

/-- The next byte of the chunk is looked up, and its code word goes out. -/
theorem reaches_byte {x : Byte} {xs : List Byte} (h : Encoding s ⟨.cEmit, x :: xs, none⟩)
    (ht : s.ct = some (tableOf T)) (hx : carries T (.byte x)) :
    Reaches s (Encoded s (.writes (codeBits T (.byte x))) ⟨.cEmit, xs, none⟩) := by
  have hlookup : Reaches s (Encoded s .rest ⟨.cEmit, xs, some (codeBits T (.byte x))⟩) := by
    refine h.reaches_of_internal rfl ?_
    simp only [phaseStep, h.phase, emitChunk, h.code, h.cbuf]
    rw [lookUp_of_carries ?ct hx]
    exact ht
  have hword := (hlookup.encoded fun n => (h.encodedTo _ n _).reaches_codeBits (.inl rfl)).encoded fun n =>
    (h.encodedTo _ n _).reaches_of_internal (l' := ⟨.cEmit, xs, none⟩) rfl rfl
  simpa using hword

/-- The code words of a chunk go out, and then the next chunk is read (R194). -/
theorem reaches_chunk {r : List Byte} (h : Encoding s ⟨.cEmit, r, none⟩) (ht : s.ct = some (tableOf T))
    (hcovers : Covers T r) : Reaches s (Encoded s (.writes (codedBytes T r)) ⟨.cRead, [], none⟩) := by
  induction r generalizing s with
  | nil =>
    refine h.reaches_of_internal rfl ?_
    simp only [phaseStep, h.phase, emitChunk, h.code, h.cbuf]
  | cons x xs ih =>
    obtain ⟨hx, hxs⟩ := List.forall_mem_cons.mp hcovers
    have hchunk := (h.reaches_byte ht hx).encoded fun n => ih (h.encodedTo _ n _) ht hxs
    rwa [Stretch.writes_andThen_writes, ← codedBytes_cons] at hchunk

/-- One `ReadBytes` takes some of the bytes left, and none only if none is left (R60). -/
theorem reaches_read (h : Encoding s ⟨.cRead, [], none⟩) :
    ∃ r, r ++ ({ s.ysrc with pos := s.ysrc.pos + r.length } : ByteSource).left = s.ysrc.left ∧
      r.length ≤ s.par.chunk ∧ (r = [] → s.ysrc.left = []) ∧
      Reaches s (Encoded s (.reads s.par.chunk r) ⟨if r = [] then .cEom else .cEmit, r, none⟩) := by
  obtain ⟨choice, ha⟩ := h.undisturbed.answered
  have hmax : 1 ≤ s.par.chunk := Nat.succ_pos _
  obtain ⟨hbound, hempty⟩ := readCount_bounds s.ysrc.left.length choice hmax
  rw [← chunk_length hmax] at hbound hempty
  refine ⟨s.ysrc.chunk s.par.chunk choice, chunk_append_left _ _ _, by omega, fun hr => ?_, ?_⟩
  · exact List.length_eq_zero_iff.mp (hempty.mp (List.length_eq_zero_iff.mpr hr))
  · have hread : phaseStep s = readChunk s := by simp only [phaseStep, h.phase]
    refine .step ((h.step_eq rfl).trans (hread.trans (readChunk_ok ha rfl))) (.here ⟨s.snk.delivered, ?_⟩)
    rw [h.code]

/-- `COMPRESS` has read the rest of the input of `s`, in these chunks, and written its code words. -/
def InputDone (T : Tree) (s u : State) : Prop :=
  ∃ chunks, chunks.flatten = s.ysrc.left ∧ (∀ r ∈ chunks, r ≠ [] ∧ r.length ≤ s.par.chunk) ∧
    Encoded s (.ofChunks T s.par.chunk chunks) ⟨.cEom, [], none⟩ u

/-- The input is read and encoded chunk by chunk, whatever the counts that the device returns (R194, R195). -/
theorem reaches_inputDone (h : Encoding s ⟨.cRead, [], none⟩) (ht : s.ct = some (tableOf T))
    (hcovers : Covers T s.ysrc.left) : Reaches s (InputDone T s) := by
  induction hn : s.ysrc.left.length using Nat.strong_induction_on generalizing s with
  | _ n ih =>
    obtain ⟨r, hsplit, hbound, hempty, hread⟩ := h.reaches_read
    by_cases hr : r = []
    · obtain rfl := hr
      exact hread.mono fun u hu => ⟨[], (hempty rfl).symm, nofun, hu⟩
    · rw [if_neg hr] at hread
      rw [← hsplit] at hcovers hn
      obtain ⟨hcovers_r, hcovers_rest⟩ := List.forall_mem_append.mp hcovers
      have hchunk := hread.encoded fun n => (h.encodedTo _ n _).reaches_chunk ht hcovers_r
      refine hchunk.trans ?_
      rintro _ ⟨m, rfl⟩
      have hshorter : ({ s.ysrc with pos := s.ysrc.pos + r.length } : ByteSource).left.length < n := by
        have := List.length_pos_iff.mpr hr
        rw [List.length_append] at hn
        omega
      have hnext := h.encodedTo ((Stretch.reads s.par.chunk r).andThen (.writes (codedBytes T r))) m ⟨.cRead, [], none⟩
      refine (ih _ hshorter hnext ht hcovers_rest rfl).mono ?_
      rintro _ ⟨chunks, hflat, hchunks, m', rfl⟩
      refine ⟨r :: chunks, ?_, List.forall_mem_cons.mpr ⟨⟨hr, hbound⟩, hchunks⟩, m', encodedTo_encodedTo ..⟩
      rw [List.flatten_cons, hflat, ← hsplit]
      rfl

/-- The end-of-message code goes out (R196). -/
theorem reaches_eom (h : Encoding s ⟨.cEom, [], none⟩) (ht : s.ct = some (tableOf T)) (heom : carries T .eom) :
    Reaches s (Encoded s (.writes (codeBits T .eom)) ⟨.cPad, [], none⟩) := by
  have hlookup : Reaches s (Encoded s .rest ⟨.cEom, [], some (codeBits T .eom)⟩) := by
    obtain ⟨hphase, hcbuf, -⟩ := h.place
    refine h.reaches_of_internal rfl ?_
    simp only [phaseStep, h.phase, emitEom, h.code]
    rw [lookUp_of_carries ht heom, ← hphase, ← hcbuf]
  have hword := (hlookup.encoded fun n => (h.encodedTo _ n _).reaches_codeBits (.inr rfl)).encoded fun n =>
    (h.encodedTo _ n _).reaches_of_internal (l' := ⟨.cPad, [], none⟩) rfl rfl
  simpa using hword

/-- Zero bits go out up to the byte boundary (R197). -/
theorem reaches_padded (h : Encoding s ⟨.cPad, b, oc⟩) :
    Reaches s (Encoded s (.writes (List.replicate (pad s.snk.off) false)) ⟨.cFlush, b, oc⟩) := by
  obtain ⟨hphase, hcbuf, hcode⟩ := h.place
  induction hn : pad s.snk.off generalizing s with
  | zero =>
    have hoff : s.snk.off = 0 := off_eq_zero_of_pad hn
    refine h.reaches_of_internal rfl ?_
    simp only [phaseStep, h.phase, padStep, if_pos hoff]
    rw [← hcbuf, ← hcode]
  | succ n ih =>
    have hoff : s.snk.off ≠ 0 := by rintro hoff; simp [pad, hoff] at hn
    have hbit : Reaches s (Encoded s (.writes [false]) ⟨.cPad, b, oc⟩) := by
      refine h.reaches_of_write rfl ?_
      simp only [phaseStep, h.phase, padStep, if_neg hoff]
      obtain ⟨choice, ha⟩ := h.undisturbed.answered
      rw [writeBit_sends ha, ← hphase, ← hcbuf, ← hcode]
      rfl
    have hpad := hbit.encoded fun m => ih (h.encodedTo _ m _) rfl rfl rfl (pad_of_bit hn)
    rwa [Stretch.writes_andThen_writes] at hpad

/-- The flush ends the command (R198, R205). -/
theorem reaches_flushed (h : Encoding s ⟨.cFlush, b, oc⟩) :
    Reaches s (· = finish { record .flush .done s with snk := s.snk.flushed }) := by
  obtain ⟨choice, ha⟩ := h.undisturbed.answered
  have hflush : phaseStep s = flushStep s := by simp only [phaseStep, h.phase]
  refine .step ((h.step_eq rfl).trans (hflush.trans ?_)) (.here rfl)
  rw [flushStep, flush, sinkTransaction_ok _ _ ha]
  rfl

end Encoding

/-! ### The command -/

/-- The table is derived in one step (R193). -/
theorem step_of_cTable {s : State} {T : Tree} (ha : Alone s) (hs : s.status = .busy) (hp : s.phase = .cTable)
    (ht : s.tree = some T) (hfit : FitsDepth s T) :
    step s = .next { s with ct := some (tableOf T), phase := .cRead } := by
  rw [step_eq_phaseStep (i := .compress) ha hs (by rw [hp]; rfl)]
  simp only [phaseStep, hp, deriveTable, ht]
  exact congrArg Host.Outcome.next (if_pos hfit)

/-- `COMPRESS` past its description of `T`, but for what the streams hold: the table is there, nothing is read yet. -/
def withTable (s : State) (T : Tree) : State :=
  { s with
    status := .busy, phase := .cRead, wstack := [], cbuf := [], code := none, token := .start
    ct := some (tableOf T) }

/-- The description of `T`, written token by token (R191). -/
def Stretch.describes (T : Tree) : Stretch := { read := 0, sent := ser T, txns := preorder writeTxns T }

/-- The description, the input in these chunks, the end-of-message code: the body of R199. -/
def Stretch.body (T : Tree) (max : Nat) (chunks : List (List Byte)) : Stretch :=
  ((describes T).andThen (ofChunks T max chunks)).andThen (writes (codeBits T .eom))

theorem Stretch.body_eq (T : Tree) (max : Nat) (chunks : List (List Byte)) :
    body T max chunks =
      { read := chunks.flatten.length
        sent := encBody T chunks.flatten
        txns :=
          preorder writeTxns T ++
          chunks.flatMap (fun r => { call := .readBytes max, reply := .bytes r } :: bitTxns (codedBytes T r)) ++
          { call := .readBytes max, reply := .bytes [] } :: bitTxns (codeBits T .eom) } := by
  simp [body, describes, ofChunks_eq, andThen, writes, encBody]

/-- The number of padding bits after the input `S` from `s` (R197, R199). -/
def padAfter (s : State) (T : Tree) (S : List Byte) : Nat := (8 - (s.snk.off.toNat + (encBody T S).length) % 8) % 8

theorem enc_eq (s : State) (T : Tree) (S : List Byte) :
    enc T S s.snk.off.toNat = encBody T S ++ List.replicate (padAfter s T S) false := rfl

/-- `OFF` after the body is what the padding is measured on (R197). -/
theorem pad_after_body (s : State) (T : Tree) (S : List Byte) :
    pad (s.snk.off + BitVec.ofNat 3 (encBody T S).length) = padAfter s T S := pad_add _ _

/-- What is appended ends on a byte boundary (R200). -/
theorem off_after_enc (s : State) (T : Tree) (S : List Byte) :
    s.snk.off + BitVec.ofNat 3 (enc T S s.snk.off.toNat).length = 0 := by
  rw [enc_eq, List.length_append, List.length_replicate, ← pad_after_body, BitVec.ofNat_add, ← BitVec.add_assoc,
    off_add_pad]

/-- Where `COMPRESS` of `T` ends from `s` after these transactions (R198, R199, R205). -/
def compressed (s : State) (T : Tree) (l : List Txn) : State :=
  finish
    { s with
      snk :=
        { s.snk with
          bits := s.snk.bits ++ enc T s.ysrc.left s.snk.off.toNat
          off := 0
          delivered := (s.snk.bits ++ enc T s.ysrc.left s.snk.off.toNat).length / 8 }
      ysrc := { s.ysrc with pos := s.ysrc.data.length }
      answers := s.answers.drop l.length
      asked := s.asked + l.length
      trace := s.trace ++ l }

/-- `COMPRESS` has written the body of R199, with the rest of the input read in some chunks. -/
def BodyWritten (s : State) (T : Tree) (u : State) : Prop :=
  ∃ chunks, chunks.flatten = s.ysrc.left ∧ (∀ r ∈ chunks, r ≠ [] ∧ r.length ≤ s.par.chunk) ∧
    Encoded (withTable s T) (.body T s.par.chunk chunks) ⟨.cPad, [], none⟩ u

/-- `COMPRESS` has ended, with the rest of the input read in some chunks (R206). -/
def Compressed (s : State) (T : Tree) (u : State) : Prop :=
  ∃ chunks, chunks.flatten = s.ysrc.left ∧ (∀ r ∈ chunks, r ≠ [] ∧ r.length ≤ s.par.chunk) ∧
    u = compressed s T (compressTxns T s.par.chunk chunks (padAfter s T s.ysrc.left))

/-- A flush of an aligned sink only delivers (R57, R198). -/
theorem flushed_of_aligned {d : BitSink} (h : d.off = 0) : 
    d.flushed = { d with off := 0, delivered := d.bits.length / 8 } := by
  simp [BitSink.flushed, pad, h]

/-- The flush after a stretch that has read the input and written `enc` ends the command. -/
theorem finish_flushed {s : State} {T : Tree} {a : Stretch} (hread : s.ysrc.pos + a.read = s.ysrc.data.length)
    (hsent : a.sent = enc T s.ysrc.left s.snk.off.toNat) (n : Nat) {u : State}
    (hu : u = encodedTo (withTable s T) a n ⟨.cFlush, [], none⟩) :
    finish { record .flush .done u with snk := u.snk.flushed } =
      compressed s T (a.txns ++ [{ call := .flush, reply := .done }]) := by
  have hoff : u.snk.off = 0 := by
    rw [← off_after_enc s T s.ysrc.left, ← hsent, hu]
    rfl
  rw [flushed_of_aligned hoff, hu]
  simp [record, finish, compressed, encodedTo, afterWrites, withTable, hread, hsent, Nat.add_assoc]

/-- The body and its padding make up `enc` (R199), and its transactions are those of R206 but for the flush. -/
theorem body_andThen_padding {s : State} {T : Tree} {max : Nat} {chunks : List (List Byte)}
    (hflat : chunks.flatten = s.ysrc.left) {a : Stretch}
    (ha : a = (Stretch.body T max chunks).andThen (.writes (List.replicate (padAfter s T s.ysrc.left) false))) :
    a.read = s.ysrc.left.length ∧ a.sent = enc T s.ysrc.left s.snk.off.toNat ∧
    a.txns ++ [{ call := .flush, reply := .done }] = compressTxns T max chunks (padAfter s T s.ysrc.left) := by
  rw [ha, Stretch.body_eq, hflat]
  refine ⟨rfl, rfl, ?_⟩
  simp [Stretch.andThen, Stretch.writes, compressTxns]

theorem encoding_withTable {s : State} (ha : Alone s) (hu : Undisturbed s) (T : Tree) (a : Stretch) (n : Nat)
    (l : Place) : Encoding (encodedTo (withTable s T) a n l) l :=
  ⟨rfl, ha, hu.drop a.txns.length rfl, rfl, rfl, rfl⟩

section
variable {s : State} {T : Tree} (ha : Alone s) (hu : Undisturbed s) (hfit : FitsDepth s T) (ht : s.tree = some T)
include ha hu hfit ht

/-- The description is written and the table derived (R191, R193). -/
theorem reaches_withTable :
    Reaches (startWriting .cTree s) (Encoded (withTable s T) (.describes T) ⟨.cRead, [], none⟩) := by
  have hemission : AtHead (startWriting .cTree s) T 0 [] := atHead_startWriting rfl ha hu hfit ht
  rw [startWriting_some ht] at hemission ⊢
  refine (hemission.reaches_written rfl).trans ?_
  rintro _ ⟨n, rfl⟩
  rw [emitted_nil_of_cTree rfl]
  exact .step (step_of_cTable ha rfl rfl ht hfit) (.here ⟨n, rfl⟩)

/-- Then the input and the end-of-message code: the body of R199. -/
theorem reaches_body (heom : carries T .eom) (hcovers : Covers T s.ysrc.left) :
    Reaches (startWriting .cTree s) (BodyWritten s T) := by
  refine (reaches_withTable ha hu hfit ht).trans ?_
  rintro _ ⟨n, rfl⟩
  refine ((encoding_withTable ha hu T (.describes T) n _).reaches_inputDone rfl hcovers).trans ?_
  rintro _ ⟨chunks, hflat, hchunks, n, rfl⟩
  rw [encodedTo_encodedTo]
  refine ((encoding_withTable ha hu T _ n _).reaches_eom rfl heom).mono ?_
  rintro _ ⟨n, rfl⟩
  exact ⟨chunks, hflat, hchunks, n, encodedTo_encodedTo ..⟩

/-- Then the padding and the flush (R197, R198). -/
theorem reaches_compressed (hcursor : s.ysrc.pos ≤ s.ysrc.data.length) (heom : carries T .eom)
    (hcovers : Covers T s.ysrc.left) : Reaches (startWriting .cTree s) (Compressed s T) := by
  refine (reaches_body ha hu hfit ht heom hcovers).trans ?_
  rintro _ ⟨chunks, hflat, hchunks, n, rfl⟩
  have hpad : pad (encodedTo (withTable s T) (.body T s.par.chunk chunks) n ⟨.cPad, [], none⟩).snk.off =
      padAfter s T s.ysrc.left := by
    rw [← pad_after_body, ← hflat, Stretch.body_eq]
    rfl
  have hpadded := (encoding_withTable ha hu T (.body T s.par.chunk chunks) n ⟨.cPad, [], none⟩).reaches_padded
  rw [hpad] at hpadded
  refine hpadded.trans ?_
  rintro _ ⟨n, rfl⟩
  rw [encodedTo_encodedTo]
  refine (encoding_withTable ha hu T _ n _).reaches_flushed.mono ?_
  rintro _ rfl
  obtain ⟨hread, hsent, htxns⟩ := body_andThen_padding (T := T) (max := s.par.chunk) hflat rfl
  refine ⟨chunks, hflat, hchunks, (finish_flushed ?_ hsent n rfl).trans (by rw [htxns])⟩
  rw [hread, ByteSource.left_length]
  omega

end

/-! ### The round trip (R184) -/

/-- A whole `COMPRESS` delivers every byte of what it wrote (R198). -/
theorem compressed_stream (s : State) (T : Tree) (l : List Txn) :
    (compressed s T l).snk.stream = pack (compressed s T l).snk.bits := by
  refine List.take_of_length_le ?_
  rw [pack_length]
  rfl

/-- What `COMPRESS` writes to a fresh sink is a whole number of bytes, so as bytes it is the same bits (R58, R200). -/
theorem unpack_compressed_stream {s : State} (hsnk : s.snk = BitSink.initial) (T : Tree) (l : List Txn) :
    unpack (compressed s T l).snk.stream = enc T s.ysrc.left 0 := by
  have hbits : (compressed s T l).snk.bits = enc T s.ysrc.left 0 := by
    simp [compressed, hsnk, BitSink.initial]
  obtain ⟨-, -, haligned⟩ := compressedStreamIsByteAligned T s.ysrc.left 0 (by decide)
  rw [compressed_stream, hbits, unpack_pack (haligned rfl)]

/-- Settles O43: `COMPRESS` leaves `stream(T, S)` in the sink, and `DECOMPRESS` decodes it. -/
theorem decompressInvertsCompress : Obligations.DecompressInvertsCompress := by
  rintro s T _ v y hs ha hu hfit ht hsnk rfl hcursor heom hcovers hvs hva hvu hvfit hvout
  refine ⟨_, exec_compress_of_ready hs, (reaches_compressed ha hu hfit ht hcursor heom hcovers).mono ?_⟩
  rintro _ ⟨chunks, -, -, rfl⟩
  refine ⟨rfl, fun hleft => ?_⟩
  rw [unpack_compressed_stream hsnk] at hleft
  obtain ⟨t', hexec, hreach⟩ := decompressDecodesStream v T _ y hvs hva hvu hvfit hvout heom hcovers hleft
  refine ⟨t', hexec, hreach.mono ?_⟩
  rintro _ ⟨_, -, rfl⟩
  exact ⟨rfl, rfl⟩

end Sys2Proof.Machine
end

section
/-! ## Every command ends (43_decompressor.md R181, 70_reset_and_hazards.md R268)

Every step of a running command ends it or makes `remaining` smaller, whatever the device answers
(`phaseStep_advances`); the order is well founded, so the command ends (`Ending.reaches_end`). The one exception, the
walk of a lone Leaf, is what `MayEnd` excludes. -/

namespace Sys2Proof.Machine

/-! ### What remains of a command -/

/-- Compared from left to right. -/
def rank (a b c d : Nat) : ℕ ×ₗ ℕ ×ₗ ℕ ×ₗ ℕ := toLex (a, toLex (b, toLex (c, d)))

theorem rank_lt {a b c d a' b' c' d' : Nat} :
    rank a b c d < rank a' b' c' d' ↔
      a < a' ∨ a = a' ∧ (b < b' ∨ b = b' ∧ (c < c' ∨ c = c' ∧ d < d')) := by
  simp [rank, Prod.Lex.toLex_lt_toLex]

/-- How far the walk is from its next read, or from its end. -/
def nodeRank : Option Tree → Nat
  | some (.branch _ _) => 0
  | some .endLeaf => 1
  | some (.leaf _) => 2
  | none => 3

/-- More than the steps that the description of a subtree takes. -/
def writeRank : Tree → Nat
  | .branch l r => writeRank l + writeRank r + 3
  | .leaf _ => 3
  | .endLeaf => 3

/-- What is left to emit of a description; the token under way counts by its bits still to come. -/
def emissionRank (s : State) : Nat := (s.wstack.map fun f => writeRank f.sub).sum + (2 - s.token.moved.length)

/-- The steps left of the code word being emitted. -/
def codeRank : Option Code → Nat
  | none => 0
  | some c => c.length + 1

/-- What remains of the running command: first the phases to come, then what is left to do in this one. -/
def remaining (s : State) : ℕ ×ₗ ℕ ×ₗ ℕ ×ₗ ℕ :=
  match s.phase with
  | .idle => rank 0 0 0 0
  | .rt => rank 3 s.src.left.length 0 0
  | .dTree => rank 3 s.src.left.length 0 0
  | .dWalk => rank 2 s.src.left.length (nodeRank s.node) 0
  | .dOut => rank 1 0 0 0
  | .wt => rank 7 (emissionRank s) 0 0
  | .cTree => rank 7 (emissionRank s) 0 0
  | .cTable => rank 6 0 0 0
  | .cRead => rank 5 s.ysrc.left.length 0 0
  | .cEmit => rank 5 s.ysrc.left.length (s.cbuf.length + 1) (codeRank s.code)
  | .cEom => rank 4 (if s.code = none then 1 else 0) (codeRank s.code) 0
  | .cPad => rank 3 (pad s.snk.off) 0 0
  | .cFlush => rank 2 0 0 0

/-- The parse is at a single Leaf with nothing around it. -/
def AtLoneLeaf (s : State) : Prop := s.rstack = [] ∧ ∃ v y, s.token.moved ++ s.src.left = ser (.leaf v) ++ y

/-- A command runs, and it is not a `DECOMPRESS` of a single Leaf. -/
def MayEnd (s : State) : Prop :=
  s.phase ≠ .idle ∧ (s.phase = .dTree → ¬ AtLoneLeaf s) ∧ (s.phase = .dWalk → ∃ T, s.tree = some T ∧ ∀ v, T ≠ .leaf v)

/-- From `s` to `t` the command has ended, or less of it remains. -/
def AdvancesTo (s t : State) : Prop := t.status ≠ .busy ∨ MayEnd t ∧ remaining t < remaining s

/-- Whatever next state a result holds, the command has ended there, or less of it remains. -/
def Advances (s : State) (x : Result) : Prop := ∀ t, x = .next t → AdvancesTo s t

/-- Past the parse and the walk nothing is excluded. -/
theorem mayEnd_of_phase {s : State} (hidle : s.phase ≠ .idle) (hparse : s.phase ≠ .dTree) (hwalk : s.phase ≠ .dWalk) :
    MayEnd s :=
  ⟨hidle, fun h => absurd h hparse, fun h => absurd h hwalk⟩

theorem Advances.next {s t : State} (h : AdvancesTo s t) : Advances s (.next t) := by
  rintro _ ⟨⟩
  exact h

theorem AdvancesTo.raised {s : State} (f : FaultCause) (info : BitVec 9) (u : State) : AdvancesTo s (raise f info u) :=
  .inl nofun

theorem AdvancesTo.finished {s : State} (u : State) : AdvancesTo s (finish u) := .inl nofun

/-! ### Transactions -/

/-- A transaction that does not return ends the command. -/
def Tx.Ends {α : Type} (x : Tx α) : Prop := ∀ t, x = .ended t → t.status ≠ .busy

theorem Tx.Ends.andThen {α : Type} {s : State} {x : Tx α} {k : α → State → Result} (h : x.Ends)
    (hk : ∀ a u, x = .done a u → Advances s (k a u)) : Advances s (x.andThen k) := by
  cases x with
  | done a u => exact hk a u rfl
  | ended t => exact .next (.inl (h t rfl))

theorem Tx.Ends.done {α : Type} (a : α) (u : State) : (Tx.done a u).Ends := by
  rintro t h
  cases h

theorem EndedAs.not_busy {allowed : FaultCause → Prop} {u t : State} (e : EndedAs allowed u t) : t.status ≠ .busy := by
  obtain ⟨f, info, -, rfl⟩ | rfl := e <;> exact nofun

/-- By a device error or a reset; what the device answers is its own. -/
theorem transaction_ends {α : Type} {d : Device} {c : Call} {onError : Nat → Nat → State → State}
    {onOk : Nat → State → Tx α} {s : State} (hok : ∀ choice, (onOk choice s).Ends) :
    (transaction d c onError onOk s).Ends := by
  rcases answer_cases s with ⟨choice, h⟩ | ⟨e, choice, h⟩ | h
  · rw [transaction_ok h]
    exact hok choice
  · rw [transaction_error h]
    rintro _ ⟨⟩
    exact nofun
  · rw [transaction_reset h]
    rintro _ ⟨⟩
    exact nofun

theorem sinkTransaction_ends (c : Call) (after : Nat → BitSink → BitSink) (s : State) :
    (sinkTransaction c after s).Ends := transaction_ends fun _ => .done _ _

theorem readBytes_ends (max : Nat) (s : State) : (readBytes max s).Ends := transaction_ends fun _ => .done _ _

theorem writeBytes_ends (seq : List Byte) (s : State) : (writeBytes seq s).Ends := transaction_ends fun _ => .done _ _

theorem readBit_ends (info : BitVec 9) (s : State) : (readBit info s).Ends := by
  rcases readBit_moves info s with ⟨b, u, h, -⟩ | ⟨t, u, h, -, e⟩ <;> rw [h]
  · exact .done b u
  · rintro _ ⟨⟩
    exact e.not_busy

/-- A `ReadBit` that returns has consumed the first bit left. -/
theorem readBit_done {info : BitVec 9} {s u : State} {b : Bit} (h : readBit info s = .done b u) :
    u = bitRead s b ∧ s.src.left = b :: u.src.left := by
  rcases readBit_cases info s with ⟨c, b', r, -, hleft, h'⟩ | ⟨c, -, -, h'⟩ | ⟨e, c, -, h'⟩ | ⟨-, h'⟩ <;>
    cases h.symm.trans h'
  exact ⟨rfl, hleft.trans (congrArg (b :: ·) (left_of_cons hleft).symm)⟩

/-- A `ReadBits(8)` that returns has consumed the bits of its value. -/
theorem readBits8_done {info : BitVec 9} {s u : State} {v : Byte} (h : readBits8 info s = .done v u) :
    s.src.left = bits8 v ++ u.src.left := by
  rcases readBits8_cases info s with ⟨c, -, hlen, h'⟩ | ⟨c, -, -, h'⟩ | ⟨e, c, -, h'⟩ | ⟨-, h'⟩ <;>
    cases h.symm.trans h'
  rw [bits8_byteOf_take hlen]
  simp [BitSource.left]

/-- A write that returns has changed the sink only. -/
theorem sinkTransaction_done {c : Call} {after : Nat → BitSink → BitSink} {s u : State}
    (h : sinkTransaction c after s = .done () u) :
    ∃ choice, u = { record c .done s with snk := after choice s.snk } := by
  rcases sinkTransaction_cases c after s with ⟨choice, -, h'⟩ | ⟨e, choice, -, h'⟩ | ⟨-, h'⟩ <;> cases h.symm.trans h'
  exact ⟨choice, rfl⟩

/-- A `ReadBytes` that returns has consumed what it returns. -/
theorem readBytes_done {max : Nat} {s u : State} {r : List Byte} (h : readBytes max s = .done r u) :
    s.ysrc.left = r ++ u.ysrc.left := by
  rcases readBytes_cases max s with ⟨choice, -, h'⟩ | ⟨e, choice, -, h'⟩ | ⟨-, h'⟩ <;> cases h.symm.trans h'
  exact (chunk_append_left s.ysrc max choice).symm

/-! ### The reader -/

theorem fetchToken_ends (s : State) : (fetchToken s).Ends := by
  rcases fetchToken_moves s with ⟨f, u, h, -⟩ | ⟨t, u, h, -, e⟩ <;> rw [h]
  · exact .done f u
  · rintro _ ⟨⟩
    exact e.not_busy

theorem fetchToken_srcMoved {s u : State} {f : Fetched} (h : fetchToken s = .done f u) : SrcMoved s u := by
  rcases fetchToken_moves s with ⟨f', u', h', -, m⟩ | ⟨t, u', h', -⟩ <;> cases h.symm.trans h'
  exact m

/-- A read of the parse has consumed a bit or more, which brings the token under way further or completes it. -/
theorem fetchToken_done {s u : State} {f : Fetched} (h : fetchToken s = .done f u) :
    u.src.left.length < s.src.left.length ∧
    ((∃ p, f = .more p ∧ p.moved ++ u.src.left = s.token.moved ++ s.src.left) ∨
      ∃ T, f = .token (tokenOf T) ∧ s.token.moved ++ s.src.left = tokenBits (tokenOf T) ++ u.src.left) := by
  cases hk : s.token with
  | start =>
    simp only [fetchToken, hk] at h
    split at h <;> cases h
    next b hread =>
      obtain ⟨-, hleft⟩ := readBit_done hread
      refine ⟨by simp [hleft], ?_⟩
      cases b with
      | false => exact .inl ⟨.zero, rfl, by simp [hleft, TokenPart.moved]⟩
      | true => exact .inr ⟨.branch .endLeaf .endLeaf, rfl, by simp [hleft, TokenPart.moved, tokenOf, tokenBits]⟩
  | zero =>
    simp only [fetchToken, hk] at h
    split at h <;> cases h
    next b hread =>
      obtain ⟨-, hleft⟩ := readBit_done hread
      refine ⟨by simp [hleft], ?_⟩
      cases b with
      | false => exact .inr ⟨.endLeaf, rfl, by simp [hleft, TokenPart.moved, tokenOf, tokenBits]⟩
      | true => exact .inl ⟨.zeroOne, rfl, by simp [hleft, TokenPart.moved]⟩
  | zeroOne =>
    simp only [fetchToken, hk] at h
    split at h <;> cases h
    next v hread =>
      have hleft := readBits8_done hread
      exact ⟨by simp [hleft], .inr ⟨.leaf v, rfl, by simp [hleft, TokenPart.moved, tokenOf, tokenBits]⟩⟩

/-- A tree handed up to no Branch is that tree; handed up to a Branch, it becomes a Branch. -/
theorem closeBranches_ne_leaf {T : Tree} {ls : List Tree} (h : ls = [] → ∀ v, T ≠ .leaf v) (v : Byte) :
    closeBranches T ls ≠ .leaf v := by
  induction ls generalizing T with
  | nil => exact h rfl v
  | cons l ls ih => exact ih (T := .branch l T) fun _ _ => nofun

section
variable {s t u : State}

/-- A parse that has consumed bits goes on. -/
theorem parse_advancesTo (hp : s.phase.reads = true) (hphase : t.phase = s.phase)
    (hlen : t.src.left.length < s.src.left.length) (hleaf : s.phase = .dTree → ¬ AtLoneLeaf t) : AdvancesTo s t := by
  refine .inr ⟨?_, ?_⟩
  · rw [← hphase] at hp hleaf
    refine ⟨fun h => ?_, hleaf, fun h => ?_⟩ <;> simp [h, Phase.reads] at hp
  · rcases s.phase.reads_iff.mp hp with h | h <;> simp [remaining, hphase, h, rank_lt, hlen]

/-- The description is complete: `READ_TREE` ends, and `DECOMPRESS` walks a tree that is no lone Leaf. -/
theorem treeRead_advancesTo {T : Tree} (hp : s.phase.reads = true) (hphase : u.phase = s.phase)
    (hleaf : s.phase = .dTree → ∀ v, T ≠ .leaf v) : AdvancesTo s (treeRead T u) := by
  rcases s.phase.reads_iff.mp hp with h | h
  · rw [treeRead_of_rt (hphase.trans h)]
    exact .finished _
  · rw [treeRead_of_dTree (hphase.trans h)]
    exact .inr ⟨⟨nofun, nofun, fun _ => ⟨T, rfl, hleaf h⟩⟩, by simp [remaining, h, rank_lt]⟩

/-- A Leaf or an EndLeaf is handed up to the stack. -/
theorem handUp_advancesTo {T : Tree} (hp : s.phase.reads = true) (hphase : u.phase = s.phase)
    (hlen : u.src.left.length < s.src.left.length)
    (hleaf : s.phase = .dTree → u.rstack = [] → ∀ v, T ≠ .leaf v) : AdvancesTo s (handUp u T u.rstack) := by
  obtain ⟨ls, hstack | ⟨r, hstack⟩⟩ := rstack_shape u.rstack
  · rw [hstack, handUp_completes]
    refine treeRead_advancesTo hp hphase fun h => closeBranches_ne_leaf fun hls => hleaf h ?_
    rw [hstack, hls]
    rfl
  · rw [hstack, handUp_closes]
    exact parse_advancesTo hp hphase hlen fun _ h => nomatch h.1

theorem readOneToken_advances (hp : s.phase.reads = true) (hmay : MayEnd s) : Advances s (readOneToken s) := by
  obtain ⟨-, hparse, -⟩ := hmay
  cases h : fetchToken s with
  | ended t =>
    rw [readOneToken, h]
    exact .next (.inl (fetchToken_ends s t h))
  | done f u =>
    have m := fetchToken_srcMoved h
    have hphase : u.phase = s.phase := by rw [m.frame]
    have hstack : u.rstack = s.rstack := by rw [m.frame]
    obtain ⟨hlen, ⟨p, rfl, hbits⟩ | ⟨T, rfl, hbits⟩⟩ := fetchToken_done h
    · rw [readOneToken_of_more h]
      refine .next (parse_advancesTo hp hphase hlen fun hdTree hlone => hparse hdTree ?_)
      rwa [AtLoneLeaf, ← hbits, ← hstack]
    · rw [readOneToken_of_token h]
      have hup : ({ u with token := .start } : State).phase.reads = true := by rw [← hp, ← hphase]
      by_cases hT : tokenOf T = .branch
      · rw [hT, exec_branch_of_reads hup, readBranch]
        split
        next => exact .next (parse_advancesTo hp hphase hlen fun _ hlone => nomatch hlone.1)
        next => exact .next (.raised ..)
      · rw [exec_leafToken_of_reads hup hT]
        refine .next (handUp_advancesTo (u := { u with token := .start }) hp hphase hlen ?_)
        rintro hdTree hnil v rfl
        exact hparse hdTree ⟨hstack.symm.trans hnil, v, _, hbits⟩

end

/-! ### The walk -/

theorem nodeRank_lt_none (T : Tree) : nodeRank (some T) < nodeRank none := by
  cases T <;> simp [nodeRank]

theorem nodeRank_lt_leaf {T : Tree} (hleaf : ∀ v, T ≠ .leaf v) (v : Byte) :
    nodeRank (some T) < nodeRank (some (.leaf v)) := by
  cases T with
  | branch l r => simp [nodeRank]
  | endLeaf => simp [nodeRank]
  | leaf u => exact absurd rfl (hleaf u)

section
variable {s t u : State}

/-- A walk that has consumed a bit, or comes nearer to its next read or its end, goes on. -/
theorem walk_advancesTo (hp : s.phase = .dWalk) (hmay : MayEnd s) (hphase : t.phase = s.phase) (htree : t.tree = s.tree)
    (hless : t.src.left.length < s.src.left.length ∨
      t.src.left.length = s.src.left.length ∧ nodeRank t.node < nodeRank s.node) : AdvancesTo s t := by
  obtain ⟨-, -, hwalk⟩ := hmay
  refine .inr ⟨?_, ?_⟩
  · rw [MayEnd, hphase, htree, hp]
    exact ⟨nofun, nofun, fun _ => hwalk hp⟩
  · simpa [remaining, hphase, hp, rank_lt] using hless

theorem walk_advances (hp : s.phase = .dWalk) (hmay : MayEnd s) : Advances s (walk s) := by
  obtain ⟨T, htree, hleaf⟩ := hmay.2.2 hp
  unfold walk
  split
  next hnode =>
    split
    next => exact .next (.raised ..)
    next root _ =>
      exact .next (walk_advancesTo hp hmay rfl rfl (.inr ⟨rfl, by rw [hnode]; exact nodeRank_lt_none root⟩))
  next l r hnode =>
    refine (readBit_ends _ s).andThen fun b u h => .next ?_
    obtain ⟨rfl, hleft⟩ := readBit_done h
    exact walk_advancesTo hp hmay rfl rfl (.inl (by simp [hleft]))
  next v hnode =>
    split
    next =>
      refine .next (walk_advancesTo hp hmay rfl rfl (.inr ⟨rfl, ?_⟩))
      rw [hnode, htree]
      exact nodeRank_lt_leaf hleaf v
    next => exact .next (.raised ..)
  next => exact .next (.inr ⟨⟨nofun, nofun, nofun⟩, by simp [remaining, hp, rank_lt]⟩)

theorem deliver_advances (s : State) : Advances s (deliver s) :=
  (writeBytes_ends _ s).andThen fun _ _ _ => .next (.finished _)

/-! ### The writer -/

theorem remaining_of_writes (hp : s.phase.writes = true) : remaining s = rank 7 (emissionRank s) 0 0 := by
  rcases s.phase.writes_iff.mp hp with h | h <;> simp only [remaining, h]

/-- An emission with less to emit goes on. -/
theorem emission_advancesTo (hp : s.phase.writes = true) (hphase : t.phase = s.phase)
    (hless : emissionRank t < emissionRank s) : AdvancesTo s t := by
  have hp' : t.phase.writes = true := by rw [hphase]; exact hp
  refine .inr ⟨?_, ?_⟩
  · rcases t.phase.writes_iff.mp hp' with h | h <;> exact mayEnd_of_phase (by simp [h]) (by simp [h]) (by simp [h])
  · rw [remaining_of_writes hp, remaining_of_writes hp', rank_lt]
    exact .inr ⟨rfl, .inl hless⟩

theorem treeWritten_advancesTo (hp : s.phase.writes = true) (u : State) : AdvancesTo s (treeWritten u) := by
  unfold treeWritten
  split
  next =>
    refine .inr ⟨⟨nofun, nofun, nofun⟩, ?_⟩
    rw [remaining_of_writes hp]
    simp [remaining, rank_lt]
  next => exact .finished u

/-- A token gives way to what is left to emit. -/
theorem emitted_advancesTo (hp : s.phase.writes = true) (hphase : u.phase = s.phase) {w : List WFrame}
    (hless : (w.map fun f => writeRank f.sub).sum + 2 < emissionRank s) : AdvancesTo s (emitted w u) := by
  cases w with
  | nil => exact treeWritten_advancesTo hp u
  | cons f r => exact emission_advancesTo hp hphase hless

theorem writeOneToken_advances (hp : s.phase.writes = true) : Advances s (writeOneToken s) := by
  cases hw : s.wstack with
  | nil =>
    simp only [writeOneToken, hw]
    exact .next (treeWritten_advancesTo hp s)
  | cons f w =>
    obtain ⟨t, u, h, m, hcases⟩ := writeOneToken_cases hp hw
    have hphase : u.phase = s.phase := by rw [m.frame]
    have hstack : u.wstack = s.wstack := by rw [m.frame]
    rw [h]
    refine .next ?_
    rcases hcases with ⟨p, rfl, hpart⟩ | rfl | e
    · refine emission_advancesTo hp hphase ?_
      rcases hpart with ⟨hk, rfl, -⟩ | ⟨hk, rfl, -⟩ <;> simp [emissionRank, hstack, hk, TokenPart.moved]
    · refine emitted_advancesTo hp hphase ?_
      obtain ⟨sub, d⟩ := f
      simp only [emissionRank, hw]
      cases sub <;> simp [writeRank] <;> omega
    · exact .inl e.not_busy

/-! ### `COMPRESS` after its description -/

/-- The phases of `COMPRESS` after its description exclude nothing. -/
theorem mayEnd_of_hasTable (hp : s.phase.hasTable = true) : MayEnd s := by
  obtain ⟨hwalk, -, hidle, hreads, -⟩ := Phase.afterDescription_of_hasTable hp
  exact mayEnd_of_phase hidle (fun h => by simp [h, Phase.reads] at hreads) hwalk

theorem deriveTable_advancesTo (hp : s.phase = .cTable) : AdvancesTo s (deriveTable s) := by
  unfold deriveTable
  split
  next => exact .raised ..
  next =>
    split
    next => exact .inr ⟨mayEnd_of_hasTable rfl, by simp [remaining, hp, rank_lt]⟩
    next => exact .raised ..

theorem readChunk_advances (hp : s.phase = .cRead) : Advances s (readChunk s) := by
  refine (readBytes_ends _ s).andThen fun r u h => ?_
  have hleft := readBytes_done h
  cases r with
  | nil => exact .next (.inr ⟨mayEnd_of_hasTable rfl, by simp [remaining, hp, rank_lt]⟩)
  | cons x xs => exact .next (.inr ⟨mayEnd_of_hasTable rfl, by simp [remaining, hp, rank_lt, hleft]⟩)

/-- A bit of a code word that has gone out is one less to come. -/
theorem emitBit_advances (hp : s.phase = .cEmit ∨ s.phase = .cEom) {b : Bit} {rest : Code}
    (hcode : s.code = some (b :: rest)) : Advances s (emitBit b rest s) := by
  refine (sinkTransaction_ends _ _ s).andThen fun _ u h => .next (.inr ?_)
  obtain ⟨choice, rfl⟩ := sinkTransaction_done h
  refine ⟨mayEnd_of_hasTable ?_, ?_⟩
  · rcases hp with hp | hp <;> simp [hp, Phase.hasTable]
  · rcases hp with hp | hp <;> simp [remaining, hp, hcode, codeRank, rank_lt]

/-- A lookup faults, or leaves less to do whichever code it finds. -/
theorem lookUp_advancesTo {sym : Sym} (hp : u.phase.hasTable = true)
    (hless : ∀ c, remaining { u with code := some c } < remaining s) : AdvancesTo s (lookUp sym u) := by
  unfold lookUp
  split
  next => exact .raised ..
  next c _ => exact .inr ⟨mayEnd_of_hasTable hp, hless c⟩

theorem emitChunk_advances (hp : s.phase = .cEmit) : Advances s (emitChunk s) := by
  unfold emitChunk
  split
  next b rest hcode => exact emitBit_advances (.inl hp) hcode
  next hcode =>
    refine .next (.inr ⟨mayEnd_of_hasTable (by simp [hp, Phase.hasTable]), ?_⟩)
    simp [remaining, hp, hcode, codeRank, rank_lt]
  next hcode =>
    split
    next => exact .next (.inr ⟨mayEnd_of_hasTable rfl, by simp [remaining, hp, rank_lt]⟩)
    next x xs hbuf =>
      have hless (c : Code) : remaining { s with cbuf := xs, code := some c } < remaining s := by
        simp [remaining, hp, hbuf, rank_lt]
      exact .next (lookUp_advancesTo (by simp [hp, Phase.hasTable]) hless)

theorem emitEom_advances (hp : s.phase = .cEom) : Advances s (emitEom s) := by
  unfold emitEom
  split
  next b rest hcode => exact emitBit_advances (.inr hp) hcode
  next => exact .next (.inr ⟨mayEnd_of_hasTable rfl, by simp [remaining, hp, rank_lt]⟩)
  next hcode =>
    have hless (c : Code) : remaining { s with code := some c } < remaining s := by
      simp [remaining, hp, hcode, rank_lt]
    exact .next (lookUp_advancesTo (by simp [hp, Phase.hasTable]) hless)

theorem padStep_advances (hp : s.phase = .cPad) : Advances s (padStep s) := by
  unfold padStep
  split
  next => exact .next (.inr ⟨mayEnd_of_hasTable rfl, by simp [remaining, hp, rank_lt]⟩)
  next hoff =>
    refine (sinkTransaction_ends _ _ s).andThen fun _ u h => .next (.inr ?_)
    obtain ⟨choice, rfl⟩ := sinkTransaction_done h
    refine ⟨mayEnd_of_hasTable (by simp [hp, Phase.hasTable]), ?_⟩
    obtain ⟨n, hn⟩ : ∃ n, pad s.snk.off = n + 1 := Nat.exists_eq_add_one_of_ne_zero fun h => hoff (off_eq_zero_of_pad h)
    have hless : pad (s.snk.off + BitVec.ofNat 3 1) < pad s.snk.off := by
      rw [pad_of_bit hn, hn]
      exact Nat.lt_succ_self n
    simp only [remaining, record_phase, hp]
    exact rank_lt.mpr (.inr ⟨rfl, .inl hless⟩)

theorem flushStep_advances (s : State) : Advances s (flushStep s) :=
  (sinkTransaction_ends _ _ s).andThen fun _ _ _ => .next (.finished _)

/-! ### The running command -/

/-- A step of a command ends it, or less of it remains. -/
theorem phaseStep_advances (hmay : MayEnd s) : Advances s (phaseStep s) := by
  cases hp : s.phase <;> simp only [phaseStep, hp]
  case idle => exact absurd hp hmay.1
  case rt => exact readOneToken_advances (by rw [hp]; rfl) hmay
  case wt => exact writeOneToken_advances (by rw [hp]; rfl)
  case dTree => exact readOneToken_advances (by rw [hp]; rfl) hmay
  case dWalk => exact walk_advances hp hmay
  case dOut => exact deliver_advances s
  case cTree => exact writeOneToken_advances (by rw [hp]; rfl)
  case cTable => exact .next (deriveTable_advancesTo hp)
  case cRead => exact readChunk_advances hp
  case cEmit => exact emitChunk_advances hp
  case cEom => exact emitEom_advances hp
  case cPad => exact padStep_advances hp
  case cFlush => exact flushStep_advances s

end

/-! ### Waits (20_memory.md R69) -/

/-- Every phase but `IDLE` belongs to a command (R29). -/
theorem Phase.exists_command {p : Phase} (hp : p ≠ .idle) : ∃ i, p.command = some i := by
  rw [← Option.isSome_iff_exists]
  revert hp
  cases p <;> decide

section
variable {s t : State}

/-- A wait that is not over gets shorter. -/
theorem coreTurn_of_wait_on {i : Instr} {n : Nat} {w : List (Option Nat)} (hs : s.status = .busy)
    (hc : s.phase.command = some i) (ht : transacts s = true) (hw : s.waits = some (n + 1) :: w) :
    coreTurn s = .go { s with waits := some n :: w } := by
  simp [coreTurn, hs, hc, ht, hw]

/-- When its wait is over, a step with a transaction is taken. -/
theorem reaches_of_wait {i : Instr} {w : List (Option Nat)} (hs : s.status = .busy) (hc : s.phase.command = some i)
    (hhost : s.host = []) (ht : transacts s = true) (hstep : phaseStep { s with waits := w } = .next t) (n : Nat) :
    Reaches { s with waits := some n :: w } (· = t) := by
  have hturn (m : Nat) : turn { s with waits := some m :: w } = coreTurn { s with waits := some m :: w } :=
    turn_eq_coreTurn hs fun a h hq => by simp [hhost] at hq
  induction n with
  | zero =>
    have hover := coreTurn_of_wait_over (s := { s with waits := some 0 :: w }) hs hc ht rfl
    refine .step ((step_of_run ((hturn 0).trans hover)).trans ?_) (.here rfl)
    rw [← hstep]
    exact exec_eq_phaseStep hs hc
  | succ n ih =>
    have hon := coreTurn_of_wait_on (s := { s with waits := some (n + 1) :: w }) hs hc ht rfl
    exact .step (step_of_go ((hturn (n + 1)).trans hon)) ih

/-- A running command takes its next step, once the transaction of it is answered. -/
theorem reaches_phaseStep (hs : s.status = .busy) (hp : s.phase ≠ .idle) (ha : Answering s) :
    ∃ w t, none ∉ w ∧ phaseStep { s with waits := w } = .next t ∧ Reaches s (· = t) := by
  obtain ⟨i, hc⟩ := Phase.exists_command hp
  obtain ⟨hhost, hwaits⟩ := ha
  have hnext (w : List (Option Nat)) : ∃ t, phaseStep { s with waits := w } = .next t := phaseStep_goesOn hp
  obtain ⟨hquiet, hprompt, -⟩ := stepContinuesRunningCommand s i hs hc fun a h hq => by simp [hhost] at hq
  have hdirect (hstep : step s = exec i s) :
      ∃ w t, none ∉ w ∧ phaseStep { s with waits := w } = .next t ∧ Reaches s (· = t) := by
    obtain ⟨t, h⟩ := hnext s.waits
    exact ⟨s.waits, t, hwaits, h, .step ((hstep.trans (exec_eq_phaseStep hs hc)).trans h) (.here rfl)⟩
  by_cases ht : transacts s = true
  · match hw : s.waits with
    | [] => exact hdirect (hprompt hw)
    | none :: w => simp [hw] at hwaits
    | some n :: w =>
      obtain ⟨t, h⟩ := hnext w
      refine ⟨w, t, fun hmem => hwaits (by simp [hw, hmem]), h, ?_⟩
      have hreach := reaches_of_wait hs hc hhost ht h n
      rwa [← hw] at hreach
  · exact hdirect (hquiet (by simpa using ht))

end

/-! ### The end -/

/-- A running command that may end, with every transaction answered at last. -/
structure Ending (s : State) : Prop where
  busy : s.status = .busy
  answering : Answering s
  mayEnd : MayEnd s

/-- R268: less and less of the command remains, until it has ended. -/
theorem Ending.reaches_end {s : State} (h : Ending s) : Reaches s fun u => u.status ≠ .busy := by
  induction hn : remaining s using WellFoundedLT.induction generalizing s with
  | _ n ih =>
    obtain ⟨w, t, hw, hstep, hreach⟩ := reaches_phaseStep h.busy h.mayEnd.1 h.answering
    refine hreach.andThen ?_
    by_cases ht : t.status = .busy
    · rcases phaseStep_advances (s := { s with waits := w }) h.mayEnd t hstep with hend | ⟨hmay, hless⟩
      · exact absurd ht hend
      · obtain ⟨-, -, hhost, -, hwaits⟩ := (phaseStep_uses _ t hstep).frame
        have hanswering : Answering t := ⟨hhost.trans h.answering.1, by rwa [hwaits]⟩
        exact ih (remaining t) (hn ▸ hless) ⟨ht, hanswering, hmay⟩ rfl
    · exact .here ht

/-- Settles O44: each command starts a run that may end, or ends at once for want of a tree. -/
theorem commandsEnd : Obligations.CommandsEnd := by
  intro s c hs ha hleaf
  have hwrite (p : Phase) (hp : p.writes = true) : Reaches (startWriting p s) fun u => u.status ≠ .busy := by
    cases ht : s.tree with
    | none =>
      rw [startWriting_none ht]
      exact .here nofun
    | some T =>
      rw [startWriting_some ht]
      refine Ending.reaches_end ⟨rfl, ha, ?_⟩
      rcases p.writes_iff.mp hp with rfl | rfl <;> exact mayEnd_of_phase nofun nofun nofun
  rcases decodeCmd_cases c with h | h | h | h <;> rw [h]
  · exact ⟨_, exec_readTree_of_ready hs, Ending.reaches_end ⟨rfl, ha, mayEnd_of_phase nofun nofun nofun⟩⟩
  · exact ⟨_, exec_writeTree_of_ready hs, hwrite .wt rfl⟩
  · refine ⟨_, exec_decompress_of_ready hs, Ending.reaches_end ⟨rfl, ha, nofun, fun _ hlone => ?_, nofun⟩⟩
    obtain ⟨-, v, y, hbits⟩ := hlone
    exact hleaf h v y hbits
  · exact ⟨_, exec_compress_of_ready hs, hwrite .cTree rfl⟩

end Sys2Proof.Machine
end

section
/-! ## The steps of `COMPRESS` after its description (44_compressor.md R191 to R198, R201, R202, R209) -/

namespace Sys2Proof.Machine

section
variable {s : State}

/-- In each of its phases a running `COMPRESS` takes the step of that phase. -/
theorem exec_compress_at {p : Phase} (hs : s.status = .busy) (hp : s.phase = p) (hc : p.command = some .compress) :
    exec .compress s = phaseStep s :=
  exec_eq_phaseStep hs (by rw [hp]; exact hc)

theorem phaseStep_of_cTable (hp : s.phase = .cTable) : phaseStep s = .next (deriveTable s) := by
  simp only [phaseStep, hp]

theorem phaseStep_of_cRead (hp : s.phase = .cRead) : phaseStep s = readChunk s := by simp only [phaseStep, hp]

theorem phaseStep_of_cEmit (hp : s.phase = .cEmit) : phaseStep s = emitChunk s := by simp only [phaseStep, hp]

theorem phaseStep_of_cEom (hp : s.phase = .cEom) : phaseStep s = emitEom s := by simp only [phaseStep, hp]

theorem phaseStep_of_cPad (hp : s.phase = .cPad) : phaseStep s = padStep s := by simp only [phaseStep, hp]

theorem phaseStep_of_cFlush (hp : s.phase = .cFlush) : phaseStep s = flushStep s := by simp only [phaseStep, hp]

/-- R193: the table of a tree within `MAX_DEPTH` is derived. -/
theorem deriveTable_of_tree {t : Tree} (ht : s.tree = some t) (hfit : FitsDepth s t) :
    deriveTable s = { s with ct := some (tableOf t), phase := .cRead } := by
  simp only [deriveTable, ht]
  exact if_pos hfit

/-! ### The lookup -/

theorem lookUp_of_some {sym : Sym} {c : Code} (h : lookup s.ct sym = some c) :
    lookUp sym s = { s with code := some c } := by
  simp only [lookUp, h]

/-- R201, R202: the lookup of a symbol that no leaf of the tree carries faults. -/
theorem lookUp_of_not_carries {T : Tree} {sym : Sym} (ht : s.ct = some (tableOf T)) (h : ¬ carries T sym) :
    lookUp sym s = raise .missingCode (missingInfo sym) s := by
  have hnone : codeOf T sym = none := by rwa [← codeOf_isSome_iff, Option.not_isSome_iff_eq_none] at h
  simp only [lookUp, ht, lookup_tableOf, hnone]

/-! ### Code words -/

section
variable {b : Bit} {c : Code} {x : Byte} {xs : List Byte}

theorem emitBit_sends {choice : Nat} (ha : answer s = .ok choice) :
    emitBit b c s =
      .next { sentBits s [b] (.writeBit b) (deliveredAfter s.snk 1 choice) with code := some c } := by
  rw [emitBit, writeBit_sends ha]
  rfl

theorem emitChunk_of_bit (h : s.code = some (b :: c)) : emitChunk s = emitBit b c s := by simp only [emitChunk, h]

theorem emitChunk_of_end (h : s.code = some []) : emitChunk s = .next { s with code := none } := by
  simp only [emitChunk, h]

theorem emitChunk_of_byte (h : s.code = none) (hcbuf : s.cbuf = x :: xs) :
    emitChunk s = .next (lookUp (.byte x) { s with cbuf := xs }) := by
  simp only [emitChunk, h, hcbuf]

theorem emitChunk_of_empty (h : s.code = none) (hcbuf : s.cbuf = []) :
    emitChunk s = .next { s with phase := .cRead } := by
  simp only [emitChunk, h, hcbuf]

theorem emitEom_of_bit (h : s.code = some (b :: c)) : emitEom s = emitBit b c s := by simp only [emitEom, h]

theorem emitEom_of_end (h : s.code = some []) : emitEom s = .next { s with code := none, phase := .cPad } := by
  simp only [emitEom, h]

theorem emitEom_of_none (h : s.code = none) : emitEom s = .next (lookUp .eom s) := by simp only [emitEom, h]

/-- A bit of a code word goes out in the same way in both phases (R194, R196). -/
theorem phaseStep_of_bit {choice : Nat} (hp : s.phase = .cEmit ∨ s.phase = .cEom) (h : s.code = some (b :: c))
    (ha : answer s = .ok choice) :
    phaseStep s =
      .next { sentBits s [b] (.writeBit b) (deliveredAfter s.snk 1 choice) with code := some c } := by
  rcases hp with hp | hp
  · rw [phaseStep_of_cEmit hp, emitChunk_of_bit h, emitBit_sends ha]
  · rw [phaseStep_of_cEom hp, emitEom_of_bit h, emitBit_sends ha]

end

/-! ### The end -/

theorem padStep_of_aligned (h : s.snk.off = 0) : padStep s = .next { s with phase := .cFlush } := if_pos h

/-- R198: the flush of an aligned sink delivers every byte, and the command ends. -/
theorem flushStep_of_aligned {choice : Nat} (ha : answer s = .ok choice) (h : s.snk.off = 0) :
    flushStep s =
      .next (finish { record .flush .done s with snk := { s.snk with delivered := s.snk.bits.length / 8 } }) := by
  rw [flushStep, flush, sinkTransaction_ok _ _ ha, flushed_of_aligned h, ← h]
  rfl

end

/-- Settles O30: a step of the running command is that of its phase. -/
theorem compressEncodesStepByStep : Obligations.CompressEncodesStepByStep := by
  intro s hs
  have hexec {p : Phase} (hp : s.phase = p) (hc : p.command = some .compress) : exec .compress s = phaseStep s :=
    exec_compress_at hs hp hc
  refine ⟨fun t hp ht hfit => ?derive, fun choice hp ha => ?read, fun x xs c hp hcode hcbuf hc => ?byte,
    fun b c choice hp hcode ha => ?bit, fun hp hcode => ?wordEnd, fun hp hcode hcbuf => ?chunkEnd,
    fun c hp hcode hc => ?eom, fun hp hcode => ?eomEnd, fun hp hoff => ?padEnd, fun choice hp hoff ha => ?flush⟩
  case derive => rw [hexec hp rfl, phaseStep_of_cTable hp, deriveTable_of_tree ht hfit]
  case read =>
    obtain ⟨⟨r, t, hread, hnext, -, hempty, hbound⟩, -⟩ :=
      readBytesReturnsSomeOfTheNext s.par.chunk s choice (Nat.succ_pos _) ha
    have hr : s.ysrc.chunk s.par.chunk choice = r := by
      rw [readBytes_ok _ ha] at hread
      cases hread
      rfl
    refine ⟨r, hnext, hbound, by rw [← hempty, List.length_eq_zero_iff], ?_⟩
    rw [hexec hp rfl, phaseStep_of_cRead hp, readChunk_ok ha hr]
    simp [encodedTo, afterWrites, Stretch.reads]
  case byte =>
    rw [hexec hp rfl, phaseStep_of_cEmit hp, emitChunk_of_byte hcode hcbuf, lookUp_of_some]
    exact hc
  case bit =>
    refine ⟨deliveredAfter s.snk 1 choice, ?_⟩
    have hc : s.phase.command = some .compress := by rcases hp with hp | hp <;> rw [hp] <;> rfl
    rw [hexec rfl hc, phaseStep_of_bit hp hcode ha]
    rfl
  case wordEnd => rw [hexec hp rfl, phaseStep_of_cEmit hp, emitChunk_of_end hcode]
  case chunkEnd => rw [hexec hp rfl, phaseStep_of_cEmit hp, emitChunk_of_empty hcode hcbuf]
  case eom => rw [hexec hp rfl, phaseStep_of_cEom hp, emitEom_of_none hcode, lookUp_of_some hc]
  case eomEnd => rw [hexec hp rfl, phaseStep_of_cEom hp, emitEom_of_end hcode]
  case padEnd => rw [hexec hp rfl, phaseStep_of_cPad hp, padStep_of_aligned hoff]
  case flush =>
    rw [hexec hp rfl, phaseStep_of_cFlush hp, flushStep_of_aligned ha hoff, record, ← List.drop_one]
    rfl

end Sys2Proof.Machine
end

section
/-! ## `COMPRESS` as a whole (44_compressor.md R197, R199, R201, R202, R205, R206)

A run without faults is `reaches_compressed`. A symbol without a code stops the command at its lookup: a byte once the
bytes before it are encoded (`Encoding.reaches_atByte`), the end-of-message marker once the whole input is
(`Encoding.reaches_inputDone`). -/

namespace Sys2Proof.Machine

/-- Settles O39: the body, the padding and the flush make up the command. -/
theorem compressWritesStream : Obligations.CompressWritesStream := by
  intro s T hs ha hu hfit ht _ hcursor heom hcovers
  refine ⟨_, exec_compress_of_ready hs, (reaches_compressed ha hu hfit ht hcursor heom hcovers).mono ?_⟩
  rintro _ ⟨chunks, hflat, hchunks, rfl⟩
  exact ⟨chunks, _, hflat, hchunks, rfl, rfl⟩

/-- Settles O31: each zero bit brings the sink nearer to its byte boundary. -/
theorem compressPadsToByteBoundary : Obligations.CompressPadsToByteBoundary := by
  intro s hs hp ha hu
  have hpadding : Encoding s ⟨.cPad, s.cbuf, s.code⟩ := ⟨hs, ha, hu, hp, rfl, rfl⟩
  refine hpadding.reaches_padded.mono ?_
  rintro _ ⟨n, rfl⟩
  have hoff : s.snk.off + BitVec.ofNat 3 (List.replicate (pad s.snk.off) false).length = 0 := by
    rw [List.length_replicate, off_add_pad]
  have htrace : bitTxns (List.replicate (pad s.snk.off) false) =
      List.replicate (pad s.snk.off) { call := .writeBit false, reply := .done } := List.map_replicate
  exact ⟨hs, rfl, hoff, rfl, congrArg (s.trace ++ ·) htrace, rfl, rfl, rfl, rfl⟩

namespace Encoding

variable {s : State} {T : Tree}

/-! ### A byte without a code -/

/-- The code words of the next bytes of a chunk go out. -/
theorem reaches_bytes {r rest : List Byte} (h : Encoding s ⟨.cEmit, r ++ rest, none⟩) (ht : s.ct = some (tableOf T))
    (hcovers : Covers T r) : Reaches s (Encoded s (.writes (codedBytes T r)) ⟨.cEmit, rest, none⟩) := by
  induction r generalizing s with
  | nil => exact .here h.encoded_rest
  | cons x xs ih =>
    obtain ⟨hx, hxs⟩ := List.forall_mem_cons.mp hcovers
    have hbytes := (h.reaches_byte ht hx).encoded fun n => ih (h.encodedTo _ n _) ht hxs
    rwa [Stretch.writes_andThen_writes, ← codedBytes_cons] at hbytes

/-- `COMPRESS` has written the code words of `S`, has read them and at least the byte `x` after them, and is about to look
up `x`. -/
def AtByte (T : Tree) (S : List Byte) (x : Byte) (s u : State) : Prop :=
  ∃ xs a, a.sent = codedBytes T S ∧ S.length + 1 ≤ a.read ∧ Encoded s a ⟨.cEmit, x :: xs, none⟩ u

/-- A beginning `r` of an input reaches the byte `x` after `S`, or is among the bytes before it. -/
theorem reached_or_before {r rest S S' : List Byte} {x : Byte} (h : r ++ rest = S ++ x :: S') :
    (∃ xs, r = S ++ x :: xs) ∨ ∃ S₂, S = r ++ S₂ ∧ rest = S₂ ++ x :: S' := by
  rcases List.append_eq_append_iff.mp h with ⟨S₂, hS, hrest⟩ | ⟨_ | ⟨y, xs⟩, hr, hrest⟩
  · exact .inr ⟨S₂, hS, hrest⟩
  · exact .inr ⟨[], by simpa using hr.symm, by simpa using hrest.symm⟩
  · obtain ⟨rfl, -⟩ := List.cons.inj hrest
    exact .inl ⟨xs, hr⟩

/-- Each byte of the input is looked up once the bytes before it are encoded, whatever the chunks (R194, R195): the chunk
read next has it, or the bytes of that chunk are among those before it. -/
theorem reaches_atByte {S S' : List Byte} {x : Byte} (h : Encoding s ⟨.cRead, [], none⟩)
    (ht : s.ct = some (tableOf T)) (hcovers : Covers T S) (hleft : s.ysrc.left = S ++ x :: S') :
    Reaches s (AtByte T S x s) := by
  induction hn : S.length using Nat.strong_induction_on generalizing s S with
  | _ n ih =>
    obtain ⟨r, hsplit, -, hempty, hread⟩ := h.reaches_read
    have hr : r ≠ [] := fun hr => by simp [hempty hr] at hleft
    rw [if_neg hr] at hread
    rw [hleft] at hsplit
    rcases reached_or_before hsplit with ⟨xs, rfl⟩ | ⟨S₂, rfl, hrest⟩
    · refine (hread.encoded fun m => (h.encodedTo _ m _).reaches_bytes ht hcovers).mono fun u hu => ?_
      exact ⟨xs, _, rfl, by simp [Stretch.andThen, Stretch.reads, Stretch.writes], hu⟩
    · obtain ⟨hcovers_r, hcovers_rest⟩ := List.forall_mem_append.mp hcovers
      refine (hread.encoded fun m => (h.encodedTo _ m _).reaches_chunk ht hcovers_r).trans ?_
      rintro _ ⟨m, rfl⟩
      have hshorter : S₂.length < n := by
        have := List.length_pos_iff.mpr hr
        rw [List.length_append] at hn
        omega
      have hnext := h.encodedTo ((Stretch.reads s.par.chunk r).andThen (.writes (codedBytes T r))) m ⟨.cRead, [], none⟩
      refine (ih _ hshorter hnext ht hcovers_rest hrest rfl).mono ?_
      rintro _ ⟨xs, a, hsent, hlen, m', rfl⟩
      refine ⟨xs, _, ?_, ?_, m', encodedTo_encodedTo ..⟩
      · rw [codedBytes_append, ← hsent]
        rfl
      · simp only [Stretch.andThen, Stretch.reads, Stretch.writes, List.length_append]
        omega

/-- R201: the lookup of a byte without a code faults, before any bit of it. -/
theorem reaches_missing_byte {x : Byte} {xs : List Byte} (h : Encoding s ⟨.cEmit, x :: xs, none⟩)
    (ht : s.ct = some (tableOf T)) (hx : ¬ carries T (.byte x)) :
    Reaches s (· = raise .missingCode (missingInfo (.byte x)) { s with cbuf := xs }) := by
  have hlookup : phaseStep s = .next (raise .missingCode (missingInfo (.byte x)) { s with cbuf := xs }) := by
    rw [phaseStep_of_cEmit h.phase, emitChunk_of_byte h.code h.cbuf, lookUp_of_not_carries ?table hx]
    exact ht
  exact .step ((h.step_eq rfl).trans hlookup) (.here rfl)

/-! ### No end-of-message code -/

/-- R202: the lookup of the end-of-message marker in a tree without `EndLeaf` faults. -/
theorem reaches_missing_eom {b : List Byte} (h : Encoding s ⟨.cEom, b, none⟩) (ht : s.ct = some (tableOf T))
    (heom : ¬ carries T .eom) : Reaches s (· = raise .missingCode 256 s) := by
  have hlookup : phaseStep s = .next (raise .missingCode 256 s) := by
    rw [phaseStep_of_cEom h.phase, emitEom_of_none h.code, lookUp_of_not_carries ht heom]
    rfl
  exact .step ((h.step_eq rfl).trans hlookup) (.here rfl)

end Encoding

/-- Settles O41: the bytes before it are encoded, and its lookup faults. -/
theorem compressFaultsOnUncoveredByte : Obligations.CompressFaultsOnUncoveredByte := by
  intro s T S x S' hs ha hu hfit ht hleft hcovers hx
  refine ⟨_, exec_compress_of_ready hs, (reaches_withTable ha hu hfit ht).trans ?_⟩
  rintro _ ⟨n, rfl⟩
  refine ((encoding_withTable ha hu T (.describes T) n _).reaches_atByte rfl hcovers hleft).trans ?_
  rintro _ ⟨xs, a, hsent, hread, n, rfl⟩
  rw [encodedTo_encodedTo]
  refine ((encoding_withTable ha hu T _ n _).reaches_missing_byte rfl hx).mono ?_
  rintro _ rfl
  refine ⟨rfl, rfl, ?info, ht, rfl, rfl, rfl, ?bits, ?cursor, rfl, rfl, rfl⟩
  case info => exact BitVec.toNat_setWidth_of_le (by decide)
  case bits =>
    rw [List.append_assoc, ← hsent]
    rfl
  case cursor =>
    simp only [raise_ysrc, encodedTo, withTable, Stretch.andThen, Stretch.describes]
    omega

/-- Settles O42: the whole input is encoded, and the lookup of the end-of-message marker faults. -/
theorem compressFaultsWithoutEndLeaf : Obligations.CompressFaultsWithoutEndLeaf := by
  intro s T hs ha hu hfit ht hcursor hcovers heom
  refine ⟨_, exec_compress_of_ready hs, (reaches_withTable ha hu hfit ht).trans ?_⟩
  rintro _ ⟨n, rfl⟩
  refine ((encoding_withTable ha hu T (.describes T) n _).reaches_inputDone rfl hcovers).trans ?_
  rintro _ ⟨chunks, (hflat : chunks.flatten = s.ysrc.left), -, n, rfl⟩
  rw [encodedTo_encodedTo]
  refine ((encoding_withTable ha hu T _ n _).reaches_missing_eom rfl heom).mono ?_
  rintro _ rfl
  have hbits : s.snk.bits ++ ((Stretch.describes T).andThen (.ofChunks T s.par.chunk chunks)).sent =
      s.snk.bits ++ ser T ++ codedBytes T s.ysrc.left := by
    rw [Stretch.ofChunks_eq, hflat, List.append_assoc]
    rfl
  have hend : s.ysrc.pos + ((Stretch.describes T).andThen (.ofChunks T s.par.chunk chunks)).read =
      s.ysrc.data.length := by
    rw [Stretch.ofChunks_eq, hflat, ByteSource.left_length]
    simp only [Stretch.andThen, Stretch.describes]
    omega
  exact ⟨rfl, rfl, rfl, ht, rfl, rfl, hbits, by rw [← hend]; rfl, rfl, rfl⟩

end Sys2Proof.Machine
end

section
/-! ## The host in `FAULTED` (60_exceptions.md R228, R229) -/

namespace Sys2Proof.Machine

/-- `u` is `s` after an action of the host on its queue, its log and the devices only; CORE's own state and the
transactions performed are as they were. -/
def CoreKept (s u : State) : Prop :=
  u = { s with
    src := u.src, snk := u.snk, ysrc := u.ysrc, ysnk := u.ysnk, host := u.host, hostLog := u.hostLog }

/-- CORE takes no turn of its own outside `BUSY` (R252). -/
theorem coreTurn_of_not_busy {s : State} (hs : s.status ≠ .busy) : coreTurn s = .go s := by
  cases hst : s.status with
  | ready => simp [coreTurn, hst]
  | busy => exact absurd hst hs
  | faulted => simp [coreTurn, hst]

section
variable {s : State} (hs : s.status = .faulted)
include hs

/-! ### What is refused (R229) -/

theorem issue_of_faulted (c : BitVec 2) : issue c s = .go (tell (.refused (.issue c)) s) := by
  simp [issue, hs]

theorem loadTree_of_faulted (T : Tree) : loadTree T s = tell (.refused (.loadTree T)) s := by
  simp [loadTree, hs]

theorem readTreeReg_of_faulted : readTreeReg s = tell (.refused .readTreeReg) s := by
  simp [readTreeReg, hs]

/-! ### What is taken (R228) -/

/-- In `FAULTED` the host's next action is taken, whatever it is; a `tick` lets an idle CORE pass. -/
theorem turn_of_faulted {a : HostAction} {h : List HostAction} (hq : s.host = a :: h) :
    turn s = hostTurn a { s with host := h } := by
  by_cases ha : a = .tick
  · rw [ha] at hq ⊢
    simp [turn, hq, hostTurn, coreTurn_of_not_busy, hs]
  · exact turn_of_host hq ha fun hb => by simp [hs] at hb

/-- Of the host's actions only `RESET` changes CORE: `ISSUE`, `LOAD_TREE` and the read of `TREE` are refused, and
the others read registers or operate devices. -/
theorem hostTurn_coreKept_of_faulted {a : HostAction} (ha : a ≠ .reset) :
    ∃ u, hostTurn a s = .go u ∧ CoreKept s u := by
  cases a
  case reset => exact absurd rfl ha
  case issue c => exact ⟨_, issue_of_faulted hs c, rfl⟩
  case loadTree T => exact ⟨_, congrArg Turn.go (loadTree_of_faulted hs T), rfl⟩
  case readTreeReg => exact ⟨_, congrArg Turn.go (readTreeReg_of_faulted hs), rfl⟩
  all_goals exact ⟨_, rfl, rfl⟩

/-- Without a `RESET` a turn leaves CORE as it is: its own turn is idle, and the host's does not reach it. -/
theorem turn_coreKept_of_faulted (hreset : ∀ h, s.host ≠ .reset :: h) : ∃ u, turn s = .go u ∧ CoreKept s u := by
  cases hq : s.host with
  | nil => exact ⟨s, by simp [turn, hq, coreTurn_of_not_busy, hs], rfl⟩
  | cons a q =>
    have ha : a ≠ .reset := fun h => hreset q (by rw [hq, h])
    obtain ⟨u, hu, hkept⟩ := hostTurn_coreKept_of_faulted (s := { s with host := q }) hs ha
    exact ⟨u, (turn_of_faulted hs hq).trans hu, hkept⟩

end

/-- Settles O52: without a `RESET`, no turn in `FAULTED` reaches CORE or performs a transaction. -/
theorem faultedStaysUntilReset : Obligations.FaultedStaysUntilReset := by
  intro s t hs hreset hstep
  obtain ⟨u, hturn, hkept⟩ := turn_coreKept_of_faulted hs hreset
  cases (step_of_go hturn).symm.trans hstep
  rw [hkept]
  exact ⟨hs, rfl, rfl, rfl, rfl, rfl, rfl, rfl, rfl, rfl, rfl, rfl, rfl, rfl⟩

/-- Settles O53: both actions are taken at once and refused, and so is a command handed to `exec`. -/
theorem faultedRefusesIssueAndLoad : Obligations.FaultedRefusesIssueAndLoad := by
  intro s h hs
  refine ⟨fun c hq => ?issue, fun T hq => ?loadTree, fun c => exec_decodeCmd_of_faulted hs c⟩
  case issue =>
    exact step_of_go ((turn_of_faulted hs hq).trans (issue_of_faulted (s := { s with host := h }) hs c))
  case loadTree =>
    refine step_of_go ((turn_of_faulted hs hq).trans (congrArg Turn.go ?_))
    exact loadTree_of_faulted (s := { s with host := h }) hs T

end Sys2Proof.Machine
end

section
/-! ## Reset and the idle CORE (70_reset_and_hazards.md R250, R251, R252) -/

namespace Sys2Proof.Machine

/-- With no action of the host pending, the turn is CORE's. -/
theorem turn_of_no_action {s : State} (hq : s.host = []) : turn s = coreTurn s := by
  simp only [turn, hq]

/-- Settles O21: the turn is CORE's, and an idle CORE lets it pass. -/
theorem idleCoreDoesNothing : Obligations.IdleCoreDoesNothing := by
  intro s hs hq
  exact step_of_go ((turn_of_no_action hq).trans (coreTurn_of_not_busy hs))

/-- `RESET` is taken at once, whatever the state (R33, R250). -/
theorem step_of_reset {s : State} {h : List HostAction} (hq : s.host = .reset :: h) :
    step s = .next { applyReset { s with host := h } with waits := waitsAfterReset { s with host := h } } :=
  step_of_go (turn_of_host hq nofun fun _ => rfl)

/-- Settles O54: the step is `applyReset`, which sets the items of CORE and no device. -/
theorem resetClearsCoreOnly : Obligations.ResetClearsCoreOnly := by
  intro s h hq
  exact ⟨_, step_of_reset hq, by simp⟩

theorem sinkTransaction_reset {c : Call} {after : Nat → BitSink → BitSink} {s : State} (h : answer s = .reset) :
    sinkTransaction c after s = .ended (abandoned s) :=
  transaction_reset h

/-- Settles O55: each primitive is a `transaction`, and one that meets a `RESET` is abandoned for `applyReset`, before
the device does anything. -/
theorem resetAbandonsTransaction : Obligations.ResetAbandonsTransaction := by
  intro s as has info b v max seq
  have hreset : answer s = .reset := by simp only [answer, has]
  exact ⟨abandoned s, transaction_reset hreset, transaction_reset hreset, sinkTransaction_reset hreset,
    sinkTransaction_reset hreset, sinkTransaction_reset hreset, transaction_reset hreset, transaction_reset hreset,
    by simp⟩

end Sys2Proof.Machine
end
